-- ==== Sys2Proof/Word.lean ====
section
/-! DEFINITION. The word types of RTCPKT. Every register, packet field and bus transfer is one byte
(spec/20_memory.md R70), every value is unsigned (spec/00_scope.md R9). -/

namespace Sys2Proof

/-- A byte: bits 7..0 (R8, R9). -/
abbrev Byte := BitVec 8

/-- A two-bit meridiem code (R12, R34). -/
abbrev MerCode := BitVec 2

namespace Mer

/-- Meridiem undefined (R12). -/
def undef : MerCode := 0#2
/-- Before noon (R12). -/
def am : MerCode := 1#2
/-- After noon (R12). -/
def pm : MerCode := 2#2
/-- Reserved: storable, produced by no decoder (R12, R34). -/
def reserved : MerCode := 3#2

end Mer

end Sys2Proof
end

