-- ==== Sys2Proof/Config.lean ====
section
/-! DEFINITION. The implementation parameters of RTCPKT (spec/00_scope.md R7) and the model's free
values. An `opaque` constant has no body: nothing can be proved about its value, so a claim holds
whatever the instance's value is. -/

namespace Sys2Proof
namespace Config

/-- `P_MODE12`: the level of `mode12_strap` sampled at reset, `true` = 12-hour mode. OPEN (R7, D10).
DEDUCED (log 6). -/
opaque mode12 : Bool

/-- `P_FILL_BYTE`: the byte sent in every read data phase. OPEN (R7, D13). DEDUCED (log 6). -/
opaque fillByte : Byte

/-- `P_SEL_ACTIVE`: the level of `sel` while asserted. OPEN (R7, D14). DEDUCED (log 6). -/
opaque selActive : Bool

/-- `P_CFG_W`: the width of a bus-configuration word. OPEN (R7, D15). DEDUCED (log 6). -/
opaque cfgWidth : Nat

/-- `P_ENGINE_CFG`: the bus configuration the engine installs: master, most significant bit first
(R7, R68, R186). OPEN (D15). DEDUCED (log 6). -/
opaque engineCfg : BitVec cfgWidth

/-- What `cfg_in` holds before anything changed it: an input of the block (R36), so a free value.
DESIGN CHOICE (log 7). -/
opaque cfgInAtReset : BitVec cfgWidth

/-- The `n`-th `UNSPEC` draw: any byte (R10, R120, R124; U1, U2). DESIGN CHOICE (log 5). -/
opaque unspecByte : Nat → Byte

/-- What byte `k` of `BUF` holds after reset number `r` until it is written: "The hardware returns some
8-bit value" (R40). DESIGN CHOICE (log 4). -/
opaque unwrittenByte : (r k : Nat) → Byte

/-- `P_MAX_LEN`: the largest legal burst length (R7, D11). -/
def maxLen : Nat := 128

/-- The number of bytes of the transfer buffer (R7, D12). -/
def bufSize : Nat := 128

/-- The host address of `BUF[0]` (R32). -/
def bufBase : Nat := 0x80

/-- `MASK_SEC` and `MASK_MIN` (R7, R160, D4). -/
def maskSec : Byte := 0x7F#8
/-- `MASK_MIN` (R7, R160, D4). -/
def maskMin : Byte := 0x7F#8
/-- `MASK_DOW` (R7, R160). -/
def maskDow : Byte := 0x07#8
/-- `MASK_DOM` (R7, R160). -/
def maskDom : Byte := 0x3F#8
/-- `MASK_MON` (R7, R160). -/
def maskMon : Byte := 0x3F#8

end Config

/-- A bus-configuration word (R7, R36). -/
abbrev CfgWord := BitVec Config.cfgWidth

end Sys2Proof
end

