-- ==== Sys2Proof/Syntax.lean ====
section
/-! DEFINITION. The commands of RTCPKT, one constructor per row of the opcode map
(spec/30_encoding.md R93), and the written forms of R98-R100: commands with operands, the
pseudo-instructions, host-program lines. A command's opcode is its whole encoding: its operands are
the bytes `CMD_A`, `CMD_B`, `CMD_C` hold when it is issued (R90, R92). -/

namespace Sys2Proof

/-- The sixteen commands (R93). -/
inductive Instr where
  | bcdEnc
  | bcdDec
  | bcd8Enc
  | bcd8Dec
  | hourEnc
  | hourDec
  | tpktEnc
  | tpktDec
  | apktEnc
  | apktDec
  | burstRd
  | burstWr
  | setTime
  | getTime
  | setAlarm
  | getAlarm
deriving DecidableEq, Repr

/-- The three operand registers (R22, R23, R24). -/
inductive OperandReg where
  | a
  | b
  | c
deriving DecidableEq, Repr

/-- The operand registers a command's row of R92 gives it, in the order A, B, C. -/
def Instr.operandRegs : Instr → List OperandReg
  | .bcdEnc => [.a, .b]
  | .bcdDec => [.a, .b]
  | .bcd8Enc => [.a]
  | .bcd8Dec => [.a]
  | .hourEnc => [.a, .b, .c]
  | .hourDec => [.a]
  | .tpktEnc => []
  | .tpktDec => []
  | .apktEnc => []
  | .apktDec => []
  | .burstRd => [.a, .b]
  | .burstWr => [.a, .b]
  | .setTime => []
  | .getTime => []
  | .setAlarm => [.a]
  | .getAlarm => [.a]

/-- A written operand: a number, or one of the meridiem names (R98). -/
inductive Operand where
  | num (n : Nat)
  | undef
  | am
  | pm
deriving DecidableEq, Repr

/-- A written command: a mnemonic and its operands in the order A, B, C (R98). -/
structure Written where
  op : Instr
  args : List Operand
deriving DecidableEq, Repr

/-- One line of a host program (R98, R99, R100). -/
inductive Line where
  /-- a written command (R98) -/
  | cmd (w : Written)
  /-- `RD1 a` (R99) -/
  | rd1 (addr : Nat)
  /-- `WR1 a` (R99) -/
  | wr1 (addr : Nat)
  /-- `WRB a, v` (R99) -/
  | wrb (addr val : Nat)
  /-- `hw a, v`: a host write (R100) -/
  | hw (addr val : Nat)
  /-- `hr a`: a host read (R100) -/
  | hr (addr : Nat)
  /-- `wait`: poll `STATUS` until `BUSY` = 0 (R100) -/
  | wait
deriving DecidableEq, Repr

end Sys2Proof
end

