-- ==== Sys2Proof/WellFormed.lean ====
section
/-! DEFINITION. Which written forms are legal (spec/30_encoding.md R92, R98, R99, R100). An `Instr`
has no field, so every `Instr` is well formed: a command's operands are register contents and "Operand
values are never illegal except a burst length above 128" (R95), which is a result code and not a
matter of form. What can be ill formed is a WRITTEN command. -/

namespace Sys2Proof

/-- Every command is well formed: it has no field to check (R90, R93). -/
abbrev Instr.wf (_ : Instr) : Bool := true

/-- A byte-sized number. -/
abbrev isByte (n : Nat) : Bool := n < 256

/-- An operand fits the register it is written to: a number fits a byte, and a meridiem name stands
only where the operand is a meridiem, which is operand C of `HOUR_ENC` (R98, R92). -/
def Operand.wf (r : OperandReg) : Operand → Bool
  | .num n => isByte n
  | .undef => r == .c
  | .am => r == .c
  | .pm => r == .c

/-- The operands match the registers one for one. -/
def operandsWf : List OperandReg → List Operand → Bool
  | [], [] => true
  | r :: rs, x :: xs => x.wf r && operandsWf rs xs
  | _, _ => false

/-- A written command has exactly the operands its row of R92 reads, each legal (R98). -/
def Written.wf (w : Written) : Bool := operandsWf w.op.operandRegs w.args

/-- A host-program line is well formed. -/
def Line.wf : Line → Bool
  | .cmd w => w.wf
  | .rd1 a => isByte a
  | .wr1 a => isByte a
  | .wrb a v => isByte a && isByte v
  | .hw a v => isByte a && isByte v
  | .hr a => isByte a
  | .wait => true

end Sys2Proof
end

