-- ==== Sys2Proof/Decode.lean ====
section
/-! DEFINITION. The opcode map (spec/30_encoding.md R93), its decoder and encoder, and the assembler
of R98-R100 with its reader. -/

namespace Sys2Proof

/-- A row of the opcode map: a written byte `v` is this command when `v & mask = pattern`. -/
structure OpcodeRow where
  mask : Byte
  pattern : Byte
  op : Instr
deriving DecidableEq, Repr

/-- The opcode map: "Every opcode is the full 8-bit value of the `CMD_OP` write, so mask 0xFF" (R93). -/
def opcodeTable : List OpcodeRow :=
  [ ⟨0xFF#8, 0x01#8, .bcdEnc⟩,
    ⟨0xFF#8, 0x02#8, .bcdDec⟩,
    ⟨0xFF#8, 0x03#8, .bcd8Enc⟩,
    ⟨0xFF#8, 0x04#8, .bcd8Dec⟩,
    ⟨0xFF#8, 0x05#8, .hourEnc⟩,
    ⟨0xFF#8, 0x06#8, .hourDec⟩,
    ⟨0xFF#8, 0x08#8, .tpktEnc⟩,
    ⟨0xFF#8, 0x09#8, .tpktDec⟩,
    ⟨0xFF#8, 0x0A#8, .apktEnc⟩,
    ⟨0xFF#8, 0x0B#8, .apktDec⟩,
    ⟨0xFF#8, 0x10#8, .burstRd⟩,
    ⟨0xFF#8, 0x11#8, .burstWr⟩,
    ⟨0xFF#8, 0x18#8, .setTime⟩,
    ⟨0xFF#8, 0x19#8, .getTime⟩,
    ⟨0xFF#8, 0x1A#8, .setAlarm⟩,
    ⟨0xFF#8, 0x1B#8, .getAlarm⟩ ]

/-- Whether a written byte is the row's command. -/
def OpcodeRow.hits (r : OpcodeRow) (v : Byte) : Bool := v &&& r.mask == r.pattern

/-- Why a byte is no command. -/
inductive DecodeError where
  /-- an opcode that is not in R93's table (R94, R231); safe: the machine completes with `ILLEGAL_OP` -/
  | illegalOp (v : Byte)
deriving DecidableEq, Repr

/-- The decoder, total on the 256 values (R96). -/
def decode (v : Byte) : Except DecodeError Instr :=
  match opcodeTable.find? (·.hits v) with
  | some r => .ok r.op
  | none => .error (.illegalOp v)

/-- The encoder: the opcode of a command, written from R93's column `opcode`. -/
def encode : Instr → Byte
  | .bcdEnc => 0x01#8
  | .bcdDec => 0x02#8
  | .bcd8Enc => 0x03#8
  | .bcd8Dec => 0x04#8
  | .hourEnc => 0x05#8
  | .hourDec => 0x06#8
  | .tpktEnc => 0x08#8
  | .tpktDec => 0x09#8
  | .apktEnc => 0x0A#8
  | .apktDec => 0x0B#8
  | .burstRd => 0x10#8
  | .burstWr => 0x11#8
  | .setTime => 0x18#8
  | .getTime => 0x19#8
  | .setAlarm => 0x1A#8
  | .getAlarm => 0x1B#8

/-- The host's question on a row of the opcode table: the command this decoder reads from the byte `w`.
A command is one byte, so a wider value is no command. -/
def decodeTableWord (nbits w : Nat) : Option Instr :=
  if nbits ≤ 8 ∧ w < 256 then
    match decode (BitVec.ofNat 8 w) with
    | .ok i => some i
    | .error _ => none
  else none

/-! ## Assembly (R98, R99, R100) -/

/-- A host write: its address and its value (R100). -/
abbrev HostWrite := Byte × Byte

/-- The host address of an operand register (R22, R23, R24). -/
def OperandReg.addr : OperandReg → Byte
  | .a => 0x01#8
  | .b => 0x02#8
  | .c => 0x03#8

/-- The byte an operand stands for: `UNDEF`, `AM`, `PM` are the codes 0, 1, 2 (R98). -/
def Operand.byte : Operand → Byte
  | .num n => BitVec.ofNat 8 n
  | .undef => 0x00#8
  | .am => 0x01#8
  | .pm => 0x02#8

/-- The operand written as a number. -/
def Operand.numeric (x : Operand) : Operand := .num x.byte.toNat

/-- The command with every operand written as a number. -/
def Written.numeric (w : Written) : Written := ⟨w.op, w.args.map Operand.numeric⟩

/-- The host writes of a written command's operands, in the order A, B, C (R98). -/
def operandWrites : List OperandReg → List Operand → List HostWrite
  | r :: rs, x :: xs => (r.addr, x.byte) :: operandWrites rs xs
  | _, _ => []

/-- "A written command assembles to host writes of every operand register its row in rule R92 reads …
followed by the write of the opcode to `CMD_OP`" (R98). -/
def assemble (w : Written) : List HostWrite :=
  operandWrites w.op.operandRegs w.args ++ [(0x00#8, encode w.op)]

/-- The host writes of a line; `hr` and `wait` write nothing (R99, R100). -/
def Line.writes : Line → List HostWrite
  | .cmd w => assemble w
  | .rd1 a => assemble ⟨.burstRd, [.num a, .num 1]⟩
  | .wr1 a => assemble ⟨.burstWr, [.num a, .num 1]⟩
  | .wrb a v => (0x80#8, BitVec.ofNat 8 v) :: assemble ⟨.burstWr, [.num a, .num 1]⟩
  | .hw a v => [(BitVec.ofNat 8 a, BitVec.ofNat 8 v)]
  | .hr _ => []
  | .wait => []

/-- "A program's encoding is the list of its host writes as (address, value) pairs, in order" (R100). -/
def programWrites (ls : List Line) : List HostWrite := ls.flatMap Line.writes

/-- Reads assembled commands back: operand writes are held in `pending` until the write to `CMD_OP`
closes a command; none where the writes are no assembled command. -/
def disassemble : List HostWrite → List HostWrite → Option (List Written)
  | pending, [] => if pending.isEmpty then some [] else none
  | pending, (a, v) :: rest =>
    if a == 0x00#8 then
      match decode v with
      | .ok i =>
        if pending.map Prod.fst == i.operandRegs.map OperandReg.addr then
          (disassemble [] rest).map (⟨i, pending.map fun w => .num w.2.toNat⟩ :: ·)
        else none
      | .error _ => none
    else disassemble (pending ++ [(a, v)]) rest

end Sys2Proof
end

