-- ==== Sys2Proof/Machine/State.lean ====
section
/-! DEFINITION. The state of RTCPKT: everything spec/10_state.md gives it, the input pins it samples,
the moves of the outside world still to come, and the bus-event history of
spec/43_transaction_engine.md R197. -/

namespace Sys2Proof
namespace Machine

/-- The result codes of spec/60_exceptions.md R230. Codes 4-7 are "reserved and never produced", so
they have no constructor (U5). -/
inductive ResultCode where
  | ok
  | noopBadIdx
  | illegalOp
  | lenRange
deriving DecidableEq, Repr

/-- `STATUS` (R25): its three fields; the byte the host reads is `State.statusByte`. -/
structure Status where
  busy : Bool
  done : Bool
  result : ResultCode
deriving DecidableEq, Repr

/-- The time record (R30). -/
structure TimeRecord where
  sec : Byte
  min : Byte
  hr24 : Byte
  hr12 : Byte
  mer : MerCode
  dow : Byte
  dom : Byte
  mon : Byte
  yr : Byte
deriving DecidableEq, Repr

/-- The alarm record (R31). -/
structure AlarmRecord where
  sec : Byte
  min : Byte
  hr24 : Byte
  hr12 : Byte
  mer : MerCode
  dow : Byte
deriving DecidableEq, Repr

/-- `PHASE` (R35, R184). -/
inductive Phase where
  | idle
  | save
  | assert
  | addr
  | addrWait
  | data
  | dataWait
  | release
  | restore
  | finish
deriving DecidableEq, Repr

/-- `OPC` (R35). -/
inductive Dir where
  | rd
  | wr
deriving DecidableEq, Repr

/-- `POST` (R35): the work of the FINISH step. -/
inductive Post where
  | none
  | tdec
  | adec
deriving DecidableEq, Repr

/-- The bus events of R197. -/
inductive BusEvent where
  /-- `CfgSave(c0)` -/
  | cfgSave (c : CfgWord)
  /-- `CfgSet(c)` -/
  | cfgSet (c : CfgWord)
  /-- `Sel(ASSERTED)` (`true`) or `Sel(IDLE)` (`false`) -/
  | sel (asserted : Bool)
  /-- `Xfer(tx, rx)`: emitted when the transfer completes -/
  | xfer (tx rx : Byte)
deriving DecidableEq, Repr

/-- One move of an agent of spec/00_scope.md R13, or of a pin. DESIGN CHOICE (log 1). -/
inductive Input where
  /-- the host writes `val` to host address `addr` (R20) -/
  | hostWrite (addr val : Byte)
  /-- the host reads host address `addr` (R20) -/
  | hostRead (addr : Byte)
  /-- the sequencer takes its turn (R184) -/
  | sequencer
  /-- the transport presents `x_done` = 1 with `x_rx` = `rx` (R36); `rx` is any byte (R189) -/
  | transport (rx : Byte)
  /-- another bus user leaves the bus configuration at `c`; it may move only while `PHASE` = `IDLE`
  (R13, R269, D38; log 11) -/
  | busUser (c : CfgWord)
  /-- the level of `mode12_strap` becomes `level` (R36, R262) -/
  | strap (level : Bool)
  /-- the level of `rst` becomes `level` (R36, R260) -/
  | rst (level : Bool)
deriving DecidableEq, Repr

/-- A register of the host register space (R20), the target of a host access. -/
inductive HostReg where
  | cmdOp
  | cmdA
  | cmdB
  | cmdC
  | status
  | cfg
  | res0
  | res1
  | resM
  | tSec
  | tMin
  | tHr24
  | tHr12
  | tMer
  | tDow
  | tDom
  | tMon
  | tYr
  | aSec
  | aMin
  | aHr24
  | aHr12
  | aMer
  | aDow
  /-- `BUF[k]` (R32) -/
  | buf (k : Nat)
  /-- a reserved address (R33) -/
  | reserved
deriving DecidableEq, Repr

/-- Why a step stops. -/
inductive Fault where
  /-- A data phase whose index `K` is past the end of `BUF` (host addresses above 0xFF do not exist,
  R60). Raised by the sequencer's DATA and DATA_WAIT steps. Safe: no state that keeps the invariant
  raises it, and R35 gives `K` the range 0..128. DESIGN CHOICE (log 14). -/
  | bufIndexOutOfRange (k : Nat)
deriving DecidableEq, Repr

/-- What the model does not go on with. -/
inductive Refusal where
  /-- A command this model gives no meaning: raised by no arm, since all sixteen commands have one. Safe. -/
  | notModelled (mnemonic : String)
  /-- Another bus user moves while `PHASE` ≠ `IDLE`: the system's duty excludes it (R13, R269, D38), and U10
  has a model refuse it. Raised by `busUserStep`, by no command. Safe: the model stops. DEDUCED (log 11). -/
  | busUserInTransaction
deriving DecidableEq, Repr

/-- The state. `mem` holds `BUF` as (host address, byte) pairs, strictly rising; an unlisted byte was not
written since reset (R40). -/
structure State where
  /-- `CMD_A` (R22) -/
  cmdA : Byte
  /-- `CMD_B` (R23) -/
  cmdB : Byte
  /-- `CMD_C` (R24) -/
  cmdC : Byte
  /-- `STATUS` (R25) -/
  status : Status
  /-- `CFG.MODE12` (R26) -/
  mode12 : Bool
  /-- `RES0` (R27) -/
  res0 : Byte
  /-- `RES1` (R28) -/
  res1 : Byte
  /-- `RESM` (R29) -/
  resM : MerCode
  /-- the time record (R30) -/
  time : TimeRecord
  /-- the alarm record (R31) -/
  alarm : AlarmRecord
  /-- `BUF` (R32), by host address -/
  mem : List Host.Cell
  /-- `PHASE` (R35) -/
  phase : Phase
  /-- `OPC` (R35) -/
  opc : Dir
  /-- `ADDR` (R35) -/
  addr : Byte
  /-- `LEN` (R35) -/
  len : Byte
  /-- `K` (R35) -/
  k : Byte
  /-- `POST` (R35) -/
  post : Post
  /-- `SAVED_CFG` (R35) -/
  savedCfg : CfgWord
  /-- `TXB` (R35) -/
  txb : Byte
  /-- output port `x_req` (R36) -/
  xReq : Bool
  /-- output port `x_tx` (R36) -/
  xTx : Byte
  /-- output port `sel`: its level (R36, R181) -/
  sel : Bool
  /-- output port `cfg_out` (R36) -/
  cfgOut : CfgWord
  /-- output port `cfg_we`: a one-step strobe (R36) -/
  cfgWe : Bool
  /-- host port `h_rdata` (R20): the byte of the last host read -/
  hRdata : Byte
  /-- input port `cfg_in`: the bus configuration now in force (R36, R182) -/
  cfgIn : CfgWord
  /-- input port `mode12_strap` (R36) -/
  strap : Bool
  /-- input port `rst` (R36) -/
  rst : Bool
  /-- the moves still to come, the next one first (the model's own, log 1) -/
  inputs : List Input
  /-- the bus-event history, the oldest first (R197) -/
  trace : List BusEvent
  /-- how many `UNSPEC` draws were taken (the model's own, log 5) -/
  draws : Nat
  /-- how many reset steps were taken (the model's own, log 4) -/
  resets : Nat
deriving DecidableEq, Repr

/-- The state right after reset (spec/70_reset_and_hazards.md R260). The registers R260 leaves
"unspecified" hold zero. DESIGN CHOICE (log 3). -/
def State.reset : State where
  cmdA := 0#8
  cmdB := 0#8
  cmdC := 0#8
  status := ⟨false, false, .ok⟩
  mode12 := Config.mode12
  res0 := 0#8
  res1 := 0#8
  resM := 0#2
  time := ⟨0#8, 0#8, 0#8, 0#8, 0#2, 0#8, 0#8, 0#8, 0#8⟩
  alarm := ⟨0#8, 0#8, 0#8, 0#8, 0#2, 0#8⟩
  mem := []
  phase := .idle
  opc := .rd
  addr := 0#8
  len := 0#8
  k := 0#8
  post := .none
  savedCfg := 0#Config.cfgWidth
  txb := 0#8
  xReq := false
  xTx := 0#8
  sel := !Config.selActive
  cfgOut := 0#Config.cfgWidth
  cfgWe := false
  hRdata := 0#8
  cfgIn := Config.cfgInAtReset
  strap := Config.mode12
  rst := false
  inputs := []
  trace := []
  draws := 0
  resets := 0

end Machine
end Sys2Proof
end

