-- ==== Sys2Proof/Machine/Flags.lean ====
section
/-! DEFINITION. The flag registers of RTCPKT: how `STATUS`, `CFG` and the meridiem registers read as
bytes, and the values a command's acceptance, start and completion give `STATUS`
(spec/10_state.md R25, R26, R33, R34; spec/30_encoding.md R90, R91; spec/60_exceptions.md R230). -/

namespace Sys2Proof
namespace Machine

/-- The code of a result (R230). -/
def ResultCode.code : ResultCode → BitVec 3
  | .ok => 0#3
  | .noopBadIdx => 1#3
  | .illegalOp => 2#3
  | .lenRange => 3#3

/-- `STATUS` as a byte: bit 0 `BUSY`, bit 1 `DONE`, bits 4:2 `RESULT`, bits 7:5 read 0 (R25). -/
def Status.byte (st : Status) : Byte :=
  0#3 ++ st.result.code ++ BitVec.ofBool st.done ++ BitVec.ofBool st.busy

/-- `CFG` as a byte: bit 0 `MODE12`, bits 7:1 read 0 (R26). -/
def cfgByte (mode12 : Bool) : Byte := 0#7 ++ BitVec.ofBool mode12

/-- A meridiem register as a byte: bits 1:0 the code, bits 7:2 read 0 (R33, R34). -/
def merByte (m : MerCode) : Byte := 0#6 ++ m

/-- What a host write of `v` stores in a meridiem register: `v[1:0]` (R34). -/
def merOfByte (v : Byte) : MerCode := v.extractLsb' 0 2

/-- `STATUS` after a command is accepted: "`STATUS.DONE <- 0; STATUS.RESULT <- OK`" (R90). -/
def Status.accepted (st : Status) : Status := { st with done := false, result := .ok }

/-- `STATUS` after `complete(code)` (R91). -/
def Status.completed (code : ResultCode) : Status := ⟨false, true, code⟩

/-- `STATUS` after `start`: "`STATUS.BUSY <- 1`" (R185). -/
def Status.started (st : Status) : Status := { st with busy := true }

end Machine
end Sys2Proof
end

