-- ==== Sys2Proof/Machine/Ops.lean ====
section
/-! DEFINITION. The shared operations over `BUF`, the registers, the ports and the completion record.
RTCPKT has no traps: "What a trap would record is the completion record in `STATUS`"
(spec/60_exceptions.md R237), so `raiseResult` is what taking an exception is here, and there is no
return from one (R238). -/

namespace Sys2Proof
namespace Machine

/-! ## `BUF` as a memory -/

/-- A list of cells in rising order of address. -/
abbrev Memory := List Host.Cell

/-- The byte listed at an address, none where nothing is listed. -/
def Memory.lookup : Memory → Nat → Option Byte
  | [], _ => none
  | (b, w) :: m, a => if a = b then some w else Memory.lookup m a

/-- `m` with `v` at `a`: the cell is put where the order wants it. -/
def Memory.insert : Memory → Nat → Byte → Memory
  | [], a, v => [(a, v)]
  | (b, w) :: m, a, v =>
    if a < b then (a, v) :: (b, w) :: m
    else if a = b then (a, v) :: m
    else (b, w) :: Memory.insert m a v

/-- The bytes `vs` stored from address `a` on. -/
def Memory.insertAll : Memory → Nat → List Byte → Memory
  | m, _, [] => m
  | m, a, v :: vs => Memory.insertAll (m.insert a v) (a + 1) vs

/-- Addresses strictly rising from `low` on, none past the last host address. -/
def Memory.wfFrom : Nat → Memory → Bool
  | _, [] => true
  | low, (a, _) :: m => decide (low ≤ a) && decide (a < Config.bufBase + Config.bufSize) &&
      Memory.wfFrom (a + 1) m

/-- The canonical form: strictly rising addresses, all of them of `BUF` (R32). An unlisted byte has no
listed value, so no entry is excluded for its value. -/
def Memory.wf (m : Memory) : Bool := m.wfFrom Config.bufBase

/-- The host address of `BUF[k]`: 0x80 + k (R32). -/
def bufAddr (k : Nat) : Nat := Config.bufBase + k

namespace State

/-- The byte at host address `a` of `BUF`'s window: the listed byte, or the free value an unwritten byte
holds since the last reset (R40). DESIGN CHOICE (log 4). -/
def memByte (s : State) (a : Nat) : Byte :=
  (Memory.lookup s.mem a).getD (Config.unwrittenByte s.resets a)

/-- `BUF[k]` (R10, R32). -/
def buf (s : State) (k : Nat) : Byte := s.memByte (bufAddr k)

/-- `BUF[k] <- v` (R10, R32). -/
def setBuf (s : State) (k : Nat) (v : Byte) : State := { s with mem := Memory.insert s.mem (bufAddr k) v }

/-- `BUF[0..] <- vs`. -/
def setBufs (s : State) (vs : List Byte) : State := { s with mem := Memory.insertAll s.mem (bufAddr 0) vs }

/-! ## `UNSPEC` -/

/-- The byte of the `j`-th result of a command: the value the rules give, or, where they give `UNSPEC`
(`none`), a draw (R10, R234). DESIGN CHOICE (log 5). -/
def resolve (s : State) (j : Nat) (o : Option Byte) : Byte := o.getD (Config.unspecByte (s.draws + j))

/-- The results of a command from the `j`-th on. -/
def resolveFrom (s : State) : Nat → List (Option Byte) → List Byte
  | _, [] => []
  | j, o :: os => s.resolve j o :: s.resolveFrom (j + 1) os

/-- `RES0 <- v` (R27). -/
def setRes0 (s : State) (v : Byte) : State := { s with res0 := v }

/-- `(RES0, RES1, RESM) <- (a, b, m)` (R27, R28, R29). -/
def setHour (s : State) (a b : Byte) (m : MerCode) : State := { s with res0 := a, res1 := b, resM := m }

/-- `RES0 <- o` (R27), an `UNSPEC` result drawn. -/
def putRes0 (s : State) (o : Option Byte) : State := { s with res0 := s.resolve 0 o, draws := s.draws + 1 }

/-- `BUF[0..] <- os`, every `UNSPEC` byte its own draw (R163, R165). -/
def putPacket (s : State) (os : List (Option Byte)) : State :=
  { s.setBufs (s.resolveFrom 0 os) with draws := s.draws + os.length }

/-! ## Acceptance and completion -/

/-- A command is accepted: `DONE <- 0`, `RESULT <- OK` (R90). -/
def accept (s : State) : State := { s with status := s.status.accepted }

/-- `complete(code)` (R91). -/
def complete (s : State) (code : ResultCode) : State :=
  { s with status := .completed code, phase := .idle }

/-- `raise Result(code)`: "`complete(code)` with no other effect of the command" (R10, R91, R237). -/
def raiseResult (s : State) (code : ResultCode) : State := s.accept.complete code

/-! ## The engine's ports -/

/-- Adds an event to the history (R197). -/
def log (s : State) (e : BusEvent) : State := { s with trace := s.trace ++ [e] }

/-- `CFG_SET(c)`: drives `cfg_out <- c` with the `cfg_we` strobe, and the platform installs it
(R182, R264). DEDUCED (log 7). -/
def cfgSet (s : State) (c : CfgWord) : State :=
  { s.log (.cfgSet c) with cfgOut := c, cfgWe := true, cfgIn := c }

/-- `CFG_SAVE()` into `SAVED_CFG`: samples `cfg_in` (R182, R186). -/
def cfgSave (s : State) : State := { s.log (.cfgSave s.cfgIn) with savedCfg := s.cfgIn }

/-- The level of `sel` for `SEL(ASSERTED)` and `SEL(IDLE)` (R181). -/
def selLevel (asserted : Bool) : Bool := if asserted then Config.selActive else !Config.selActive

/-- `SEL(level)` (R181). -/
def driveSel (s : State) (asserted : Bool) : State := { s.log (.sel asserted) with sel := selLevel asserted }

/-- The issue half of `XFER(tx)` (R180). -/
def xferIssue (s : State) (tx : Byte) : State := { s with txb := tx, xTx := tx, xReq := true }

/-- The completion half of `XFER`: the transfer of `TXB` completed with `rx`, `x_req` falls (R180, R36). -/
def xferDone (s : State) (rx : Byte) : State := { s.log (.xfer s.txb rx) with xReq := false }

/-- `cfg_we` is a one-step strobe: it falls in the next step, whoever takes it (R36, R182).
DEDUCED (log 8). -/
def dropStrobe (s : State) : State := { s with cfgWe := false }

/-- `PHASE <- P` (R10). -/
def goto (s : State) (p : Phase) : State := { s with phase := p }

/-- `K <- n` (R184). -/
def setK (s : State) (n : Byte) : State := { s with k := n }

/-- `start(op, addr, len, post)` (R185). -/
def start (s : State) (op : Dir) (a n : Byte) (post : Post) : State :=
  { s with opc := op, addr := a, len := n, post := post, status := s.status.started, phase := .save }

/-! ## Reset -/

/-- A reset step (R260, R261): the block is in the reset state, `MODE12` samples the strap (R262). What is
not the block's stays: the pins and the bus configuration (R261), the moves still to come, the model's
two counters. The history begins anew: a run cut short by reset "is a new run from the reset state"
(R273). DEDUCED (log 10). -/
def applyReset (s : State) : State :=
  { State.reset with
    mode12 := s.strap, strap := s.strap, rst := s.rst, cfgIn := s.cfgIn, inputs := s.inputs,
    draws := s.draws, resets := s.resets + 1 }

/-! ## The moves still to come -/

/-- The next move: the first pending one, the sequencer's turn where none is. DESIGN CHOICE (log 1). -/
def nextInput (s : State) : Input := s.inputs.headD .sequencer

/-- The state with the next move taken off the list. -/
def popInput (s : State) : State := { s with inputs := s.inputs.tail }

end State
end Machine
end Sys2Proof
end

