-- ==== Sys2Proof/Machine/Operands.lean ====
section
/-! DEFINITION. The operands of a command (spec/30_encoding.md R92) and the host register map
(spec/10_state.md R20), read and written one byte at a time. -/

namespace Sys2Proof
namespace Machine

/-- The register a host address names (R20): "Every host address names one register, and no two
addresses alias" (R41). -/
def hostReg (a : Byte) : HostReg :=
  if 0x80 ≤ a.toNat then .buf (a.toNat - 0x80)
  else match a.toNat with
    | 0x00 => .cmdOp
    | 0x01 => .cmdA
    | 0x02 => .cmdB
    | 0x03 => .cmdC
    | 0x04 => .status
    | 0x05 => .cfg
    | 0x06 => .res0
    | 0x07 => .res1
    | 0x08 => .resM
    | 0x10 => .tSec
    | 0x11 => .tMin
    | 0x12 => .tHr24
    | 0x13 => .tHr12
    | 0x14 => .tMer
    | 0x15 => .tDow
    | 0x16 => .tDom
    | 0x17 => .tMon
    | 0x18 => .tYr
    | 0x20 => .aSec
    | 0x21 => .aMin
    | 0x22 => .aHr24
    | 0x23 => .aHr12
    | 0x24 => .aMer
    | 0x25 => .aDow
    | _ => .reserved

namespace State

/-- Operand A: `CMD_A` used as is (R22, R92). -/
def opA (s : State) : Byte := s.cmdA

/-- Operand B: `CMD_B` used as is (R23, R92). -/
def opB (s : State) : Byte := s.cmdB

/-- Operand C as a meridiem code: `CMD_C[1:0]` (R24, R92). -/
def opC (s : State) : MerCode := merOfByte s.cmdC

/-- What a register reads as (R20, R33). -/
def readReg (s : State) : HostReg → Byte
  | .cmdOp => 0x00#8
  | .cmdA => s.cmdA
  | .cmdB => s.cmdB
  | .cmdC => s.cmdC
  | .status => s.status.byte
  | .cfg => cfgByte s.mode12
  | .res0 => s.res0
  | .res1 => s.res1
  | .resM => merByte s.resM
  | .tSec => s.time.sec
  | .tMin => s.time.min
  | .tHr24 => s.time.hr24
  | .tHr12 => s.time.hr12
  | .tMer => merByte s.time.mer
  | .tDow => s.time.dow
  | .tDom => s.time.dom
  | .tMon => s.time.mon
  | .tYr => s.time.yr
  | .aSec => s.alarm.sec
  | .aMin => s.alarm.min
  | .aHr24 => s.alarm.hr24
  | .aHr12 => s.alarm.hr12
  | .aMer => merByte s.alarm.mer
  | .aDow => s.alarm.dow
  | .buf k => s.buf k
  | .reserved => 0x00#8

/-- A byte stored in a register: a read-only or reserved register ignores it (R20, R33). The command
trigger `CMD_OP` stores nothing (R21); what its write does is `issue`. -/
def writeReg (s : State) (v : Byte) : HostReg → State
  | .cmdOp => s
  | .cmdA => { s with cmdA := v }
  | .cmdB => { s with cmdB := v }
  | .cmdC => { s with cmdC := v }
  | .status => s
  | .cfg => s
  | .res0 => s
  | .res1 => s
  | .resM => s
  | .tSec => { s with time := { s.time with sec := v } }
  | .tMin => { s with time := { s.time with min := v } }
  | .tHr24 => { s with time := { s.time with hr24 := v } }
  | .tHr12 => { s with time := { s.time with hr12 := v } }
  | .tMer => { s with time := { s.time with mer := merOfByte v } }
  | .tDow => { s with time := { s.time with dow := v } }
  | .tDom => { s with time := { s.time with dom := v } }
  | .tMon => { s with time := { s.time with mon := v } }
  | .tYr => { s with time := { s.time with yr := v } }
  | .aSec => { s with alarm := { s.alarm with sec := v } }
  | .aMin => { s with alarm := { s.alarm with min := v } }
  | .aHr24 => { s with alarm := { s.alarm with hr24 := v } }
  | .aHr12 => { s with alarm := { s.alarm with hr12 := v } }
  | .aMer => { s with alarm := { s.alarm with mer := merOfByte v } }
  | .aDow => { s with alarm := { s.alarm with dow := v } }
  | .buf k => s.setBuf k v
  | .reserved => s

/-- A host read of host address `a` (R20). -/
def hostByte (s : State) (a : Byte) : Byte := s.readReg (hostReg a)

end State
end Machine
end Sys2Proof
end

