-- ==== Sys2Proof/Machine/Bcd.lean ====
section
/-! DEFINITION. The BCD codec and its four commands (spec/40_bcd_codec.md R120-R129). An encoder answers
`none` where its rule answers `UNSPEC`. -/

namespace Sys2Proof
namespace Machine

/-- "`isWild(v)` is true exactly when `v[7]` = 1" (spec/00_scope.md R11, C1). -/
def isWild (v : Byte) : Bool := v.msb

/-- `bcd_enc_core(v)`: `((v / 10) << 4) | (v % 10)` for v in 0..99, else `UNSPEC` (R120). -/
def bcdEncCore (v : Byte) : Option Byte :=
  if v.toNat < 100 then some (((v / 10#8) <<< 4) ||| (v % 10#8)) else none

/-- `bcd_dec_core(b)`: `b[7:4] * 10 + b[3:0]` (R121). -/
def bcdDecCore (b : Byte) : Byte := (b >>> 4) * 10#8 + (b &&& 0x0F#8)

/-- `enc(v, m)` (R122). -/
def enc (v m : Byte) : Option Byte :=
  if isWild v then some v else (bcdEncCore v).map (· &&& m)

/-- `dec(b, m)` (R123). -/
def dec (b m : Byte) : Byte := if isWild b then b else bcdDecCore (b &&& m)

/-- `enc8(v)`, the year encoder (R124). -/
def enc8 (v : Byte) : Option Byte := bcdEncCore v

/-- `dec8(b)`, the year decoder (R125). -/
def dec8 (b : Byte) : Byte := bcdDecCore b

/-- `BCD_ENC`: `x[RES0] <- enc(A, B)` (R126). -/
def execBcdEnc (s : State) : Host.Outcome State Fault Refusal :=
  .next ((s.accept.putRes0 (enc s.opA s.opB)).complete .ok)

/-- `BCD_DEC`: `x[RES0] <- dec(A, B)` (R127). -/
def execBcdDec (s : State) : Host.Outcome State Fault Refusal :=
  .next ((s.accept.setRes0 (dec s.opA s.opB)).complete .ok)

/-- `BCD8_ENC`: `x[RES0] <- enc8(A)` (R128). -/
def execBcd8Enc (s : State) : Host.Outcome State Fault Refusal :=
  .next ((s.accept.putRes0 (enc8 s.opA)).complete .ok)

/-- `BCD8_DEC`: `x[RES0] <- dec8(A)` (R129). -/
def execBcd8Dec (s : State) : Host.Outcome State Fault Refusal :=
  .next ((s.accept.setRes0 (dec8 s.opA)).complete .ok)

end Machine
end Sys2Proof
end

