-- ==== Sys2Proof/Machine/Hour.lean ====
section
/-! DEFINITION. The hour codec and its two commands (spec/41_hour_codec.md R139-R145): a pure function
of its inputs and of `MODE12` (C7). -/

namespace Sys2Proof
namespace Machine

/-- What an hour byte decodes to (R141). -/
structure HourTriple where
  hr24 : Byte
  hr12 : Byte
  mer : MerCode
deriving DecidableEq, Repr

/-- The meridiem bit of the 12-hour shape: 0x20 for `PM`, 0x00 for every other code (R140, C8). -/
def merBit (mer : MerCode) : Byte := if mer = Mer.pm then 0x20#8 else 0x00#8

/-- `hour_enc` in 24-hour mode (R140). -/
def hourEnc24 (hr24 : Byte) : Option Byte :=
  if isWild hr24 then some hr24 else (bcdEncCore hr24).map (· &&& 0x3F#8)

/-- `hour_enc` in 12-hour mode (R140). -/
def hourEnc12 (hr12 : Byte) (mer : MerCode) : Option Byte :=
  if isWild hr12 then some hr12
  else (bcdEncCore hr12).map fun b => (b &&& 0x1F#8) ||| 0x40#8 ||| merBit mer

/-- `hour_enc(hr24, hr12, mer)`: only the authoritative field is read (R140). -/
def hourEnc (mode12 : Bool) (hr24 hr12 : Byte) (mer : MerCode) : Option Byte :=
  if mode12 then hourEnc12 hr12 mer else hourEnc24 hr24

/-- The 24-hour shape's hours: `b[5:4] * 10 + b[3:0]` (R139, R141). -/
def hours24 (b : Byte) : Byte := bcdDecCore (b &&& 0x3F#8)

/-- The 12-hour shape's hours: `b[4] * 10 + b[3:0]` (R139, R141). -/
def hours12 (b : Byte) : Byte := bcdDecCore (b &&& 0x1F#8)

/-- The 24-hour shape's mapping (R141). The arm of 24..45 is the spec's own (D8, U3; log 15). -/
def decShape24 (h : Byte) : HourTriple :=
  if h.toNat = 0 then ⟨0#8, 12#8, Mer.am⟩
  else if h.toNat = 12 then ⟨12#8, 12#8, Mer.pm⟩
  else if h.toNat < 12 then ⟨h, h, Mer.am⟩
  else ⟨h, h - 12#8, Mer.pm⟩

/-- The 12-hour shape's mapping (R141). -/
def decShape12 (pm : Bool) (h : Byte) : HourTriple :=
  if pm then ⟨if h.toNat = 12 then 12#8 else 12#8 + h, h, Mer.pm⟩
  else ⟨if h.toNat = 12 then 0#8 else h, h, Mer.am⟩

/-- `hour_dec(b)`, total; it does not read `MODE12` (R141, R148). -/
def hourDec (b : Byte) : HourTriple :=
  if isWild b then ⟨b, b, Mer.undef⟩
  else if b.getLsbD 6 then decShape12 (b.getLsbD 5) (hours12 b)
  else decShape24 (hours24 b)

/-- `HOUR_ENC`: `x[RES0] <- hour_enc(A, B, C[1:0])` (R144). -/
def execHourEnc (s : State) : Host.Outcome State Fault Refusal :=
  .next ((s.accept.putRes0 (hourEnc s.mode12 s.opA s.opB s.opC)).complete .ok)

/-- `HOUR_DEC`: `(x[RES0], x[RES1], x[RESM]) <- hour_dec(A)` (R145). -/
def execHourDec (s : State) : Host.Outcome State Fault Refusal :=
  let h := hourDec s.opA
  .next ((s.accept.setHour h.hr24 h.hr12 h.mer).complete .ok)

end Machine
end Sys2Proof
end

