-- ==== Sys2Proof/Machine/Packet.lean ====
section
/-! DEFINITION. The packet codec and its four commands (spec/42_packet_codec.md R160-R170). -/

namespace Sys2Proof
namespace Machine

/-- The seven bytes of `tpkt_enc()`, in the order of their offsets (R161, R163). -/
def tpktEnc (mode12 : Bool) (t : TimeRecord) : List (Option Byte) :=
  [ enc t.sec Config.maskSec,
    enc t.min Config.maskMin,
    hourEnc mode12 t.hr24 t.hr12 t.mer,
    enc t.dow Config.maskDow,
    enc t.dom Config.maskDom,
    enc t.mon Config.maskMon,
    enc8 t.yr ]

/-- The four bytes of `apkt_enc()` (R162, R165). -/
def apktEnc (mode12 : Bool) (r : AlarmRecord) : List (Option Byte) :=
  [ enc r.sec Config.maskSec,
    enc r.min Config.maskMin,
    hourEnc mode12 r.hr24 r.hr12 r.mer,
    enc r.dow Config.maskDow ]

/-- The record `tpkt_dec()` makes of seven packet bytes (R164). -/
def tpktDec (b0 b1 b2 b3 b4 b5 b6 : Byte) : TimeRecord where
  sec := dec b0 Config.maskSec
  min := dec b1 Config.maskMin
  hr24 := (hourDec b2).hr24
  hr12 := (hourDec b2).hr12
  mer := (hourDec b2).mer
  dow := dec b3 Config.maskDow
  dom := dec b4 Config.maskDom
  mon := dec b5 Config.maskMon
  yr := dec8 b6

/-- The record `apkt_dec()` makes of four packet bytes (R166). -/
def apktDec (b0 b1 b2 b3 : Byte) : AlarmRecord where
  sec := dec b0 Config.maskSec
  min := dec b1 Config.maskMin
  hr24 := (hourDec b2).hr24
  hr12 := (hourDec b2).hr12
  mer := (hourDec b2).mer
  dow := dec b3 Config.maskDow

namespace State

/-- `tpkt_enc()`: `BUF[0..6]` from the time record (R163). -/
def encTime (s : State) : State := s.putPacket (tpktEnc s.mode12 s.time)

/-- `tpkt_dec()`: the time record from `BUF[0..6]` (R164). -/
def decTime (s : State) : State :=
  { s with time := tpktDec (s.buf 0) (s.buf 1) (s.buf 2) (s.buf 3) (s.buf 4) (s.buf 5) (s.buf 6) }

/-- `apkt_enc()`: `BUF[0..3]` from the alarm record (R165). -/
def encAlarm (s : State) : State := s.putPacket (apktEnc s.mode12 s.alarm)

/-- `apkt_dec()`: the alarm record from `BUF[0..3]` (R166). -/
def decAlarm (s : State) : State :=
  { s with alarm := apktDec (s.buf 0) (s.buf 1) (s.buf 2) (s.buf 3) }

end State

/-- `TPKT_ENC` (R167). -/
def execTpktEnc (s : State) : Host.Outcome State Fault Refusal :=
  .next (s.accept.encTime.complete .ok)

/-- `TPKT_DEC` (R168). -/
def execTpktDec (s : State) : Host.Outcome State Fault Refusal :=
  .next (s.accept.decTime.complete .ok)

/-- `APKT_ENC` (R169). -/
def execApktEnc (s : State) : Host.Outcome State Fault Refusal :=
  .next (s.accept.encAlarm.complete .ok)

/-- `APKT_DEC` (R170). -/
def execApktDec (s : State) : Host.Outcome State Fault Refusal :=
  .next (s.accept.decAlarm.complete .ok)

end Machine
end Sys2Proof
end

