-- ==== Sys2Proof/Machine/Burst.lean ====
section
/-! DEFINITION. The burst commands (spec/43_transaction_engine.md R194, R195): what their issuing step
does. The transaction they start is `Machine/Engine.lean`. -/

namespace Sys2Proof
namespace Machine

/-- The issuing step of a burst: a length above 128 raises `LEN_RANGE` and starts nothing (R232). -/
def State.issueBurst (s : State) (op : Dir) : State :=
  if s.opB.toNat > Config.maxLen then s.raiseResult .lenRange
  else s.accept.start op s.opA s.opB .none

/-- `BURST_RD` (R194). -/
def execBurstRd (s : State) : Host.Outcome State Fault Refusal := .next (s.issueBurst .rd)

/-- `BURST_WR` (R195). -/
def execBurstWr (s : State) : Host.Outcome State Fault Refusal := .next (s.issueBurst .wr)

end Machine
end Sys2Proof
end

