-- ==== Sys2Proof/Machine/Marshal.lean ====
section
/-! DEFINITION. The time and alarm commands (spec/44_register_marshal.md R210-R216): what their issuing
step does. -/

namespace Sys2Proof
namespace Machine

/-- The peripheral address of the time packet (R210). -/
def timeBase : Byte := 0x00#8

/-- The length of the time packet (R161, R210). -/
def timeLen : Byte := 7#8

/-- `alarm_base(i) = 0x07 + 4·i` (R211). -/
def alarmBase (i : Byte) : Byte := 0x07#8 + 4#8 * i

/-- The length of an alarm packet (R162, R211). -/
def alarmLen : Byte := 4#8

/-- Alarms 0 and 1 exist, no other (R211, R233). -/
def alarmIndexOk (i : Byte) : Bool := i == 0#8 || i == 1#8

/-- `clear_alarm_record()` (R216). -/
def State.clearAlarm (s : State) : State := { s with alarm := ⟨0#8, 0#8, 0#8, 0#8, Mer.undef, 0#8⟩ }

/-- `SET_TIME`: encode, then the burst write of 7 bytes at 0x00 (R212). -/
def execSetTime (s : State) : Host.Outcome State Fault Refusal :=
  .next (s.accept.encTime.start .wr timeBase timeLen .none)

/-- `GET_TIME`: the burst read of 7 bytes at 0x00, decoded at FINISH (R213). -/
def execGetTime (s : State) : Host.Outcome State Fault Refusal :=
  .next (s.accept.start .rd timeBase timeLen .tdec)

/-- `SET_ALARM`: encode, then the burst write of 4 bytes at the alarm's address; another index is a
no-op with `NOOP_BADIDX` (R214). -/
def execSetAlarm (s : State) : Host.Outcome State Fault Refusal :=
  if alarmIndexOk s.opA then .next (s.accept.encAlarm.start .wr (alarmBase s.opA) alarmLen .none)
  else .next (s.raiseResult .noopBadIdx)

/-- `GET_ALARM`: the burst read of 4 bytes at the alarm's address, decoded at FINISH; another index
clears the record and completes with `NOOP_BADIDX` (R215). -/
def execGetAlarm (s : State) : Host.Outcome State Fault Refusal :=
  if alarmIndexOk s.opA then .next (s.accept.start .rd (alarmBase s.opA) alarmLen .adec)
  else .next (s.clearAlarm.raiseResult .noopBadIdx)

end Machine
end Sys2Proof
end

