-- ==== Sys2Proof/Machine/Dispatch.lean ====
section
/-! DEFINITION. One arm per command: the effect of issuing it (spec/30_encoding.md R90). -/

namespace Sys2Proof
namespace Machine

def exec (i : Instr) (s : State) : Host.Outcome State Fault Refusal :=
  match i with
  | .bcdEnc => Sys2Proof.Machine.execBcdEnc s
  | .bcdDec => Sys2Proof.Machine.execBcdDec s
  | .bcd8Enc => Sys2Proof.Machine.execBcd8Enc s
  | .bcd8Dec => Sys2Proof.Machine.execBcd8Dec s
  | .hourEnc => Sys2Proof.Machine.execHourEnc s
  | .hourDec => Sys2Proof.Machine.execHourDec s
  | .tpktEnc => Sys2Proof.Machine.execTpktEnc s
  | .tpktDec => Sys2Proof.Machine.execTpktDec s
  | .apktEnc => Sys2Proof.Machine.execApktEnc s
  | .apktDec => Sys2Proof.Machine.execApktDec s
  | .burstRd => Sys2Proof.Machine.execBurstRd s
  | .burstWr => Sys2Proof.Machine.execBurstWr s
  | .setTime => Sys2Proof.Machine.execSetTime s
  | .getTime => Sys2Proof.Machine.execGetTime s
  | .setAlarm => Sys2Proof.Machine.execSetAlarm s
  | .getAlarm => Sys2Proof.Machine.execGetAlarm s

end Machine
end Sys2Proof
end

