-- ==== Sys2Proof/Machine/Engine.lean ====
section
/-! DEFINITION. The transaction sequencer (spec/43_transaction_engine.md R180-R193): one definition per
numbered line of R184. -/

namespace Sys2Proof
namespace Machine

namespace State

/-- `abyte`: `ADDR | 0x80` for a write, `ADDR` unmodified for a read (R183). -/
def abyte (s : State) : Byte :=
  match s.opc with
  | .rd => s.addr
  | .wr => s.addr ||| 0x80#8

/-- SAVE (R186). -/
def stepSave (s : State) : State := (s.cfgSave.cfgSet Config.engineCfg).goto .assert

/-- ASSERT (R187). -/
def stepAssert (s : State) : State := (s.driveSel true).goto .addr

/-- ADDR (R188). -/
def stepAddr (s : State) : State := (s.xferIssue s.abyte).goto .addrWait

/-- ADDR_WAIT on `x_done`: the byte shifted in is discarded (R188, D17). -/
def doneAddr (s : State) (rx : Byte) : State :=
  ((s.xferDone rx).setK 0#8).goto (if s.len = 0#8 then .release else .data)

/-- The byte sent in a data phase: `P_FILL_BYTE` or `BUF[K]` (R189, R190). -/
def dataByte (s : State) : Byte :=
  match s.opc with
  | .rd => Config.fillByte
  | .wr => s.buf s.k.toNat

/-- DATA (R189, R190). -/
def stepData (s : State) : State := (s.xferIssue s.dataByte).goto .dataWait

/-- Where a read's byte goes: `BUF[K] <- x_rx`; a write discards it (R189, R190). -/
def storeAnswer (s : State) (rx : Byte) : State :=
  match s.opc with
  | .rd => s.setBuf s.k.toNat rx
  | .wr => s

/-- DATA_WAIT on `x_done` (R189, R190). -/
def doneData (s : State) (rx : Byte) : State :=
  (((s.storeAnswer rx).xferDone rx).setK (s.k + 1#8)).goto
    (if s.k + 1#8 = s.len then .release else .data)

/-- RELEASE (R191). -/
def stepRelease (s : State) : State := (s.driveSel false).goto .restore

/-- RESTORE (R192). -/
def stepRestore (s : State) : State := (s.cfgSet s.savedCfg).goto .finish

/-- `POST`, the work of FINISH (R193). -/
def runPost (s : State) : State :=
  match s.post with
  | .none => s
  | .tdec => s.decTime
  | .adec => s.decAlarm

/-- FINISH (R193). -/
def stepFinish (s : State) : State := s.runPost.complete .ok

/-- Whether `BUF[K]` exists (R32). -/
def bufIndexOk (s : State) : Bool := s.k.toNat < Config.bufSize

/-- A data phase past the end of `BUF` stops: no host address is there (log 14). -/
def withBufIndex (s t : State) : Host.Outcome State Fault Refusal :=
  if s.bufIndexOk then .next t else .fault (.bufIndexOutOfRange s.k.toNat)

/-- The sequencer's turn. In IDLE there is nothing to do; in a wait phase it holds (R180, R196). -/
def sequencerStep (s : State) : Host.Outcome State Fault Refusal :=
  match s.phase with
  | .idle => .next s
  | .save => .next s.stepSave
  | .assert => .next s.stepAssert
  | .addr => .next s.stepAddr
  | .addrWait => .next s
  | .data => s.withBufIndex s.stepData
  | .dataWait => .next s
  | .release => .next s.stepRelease
  | .restore => .next s.stepRestore
  | .finish => .next s.stepFinish

/-- The transport presents `x_done` with `rx`: the wait step completes; "The sequencer ignores `x_done`
whenever it is not waiting for a transfer" (R36). -/
def transportStep (s : State) (rx : Byte) : Host.Outcome State Fault Refusal :=
  match s.phase with
  | .idle => .next s
  | .save => .next s
  | .assert => .next s
  | .addr => .next s
  | .addrWait => .next (s.doneAddr rx)
  | .data => .next s
  | .dataWait => s.withBufIndex (s.doneData rx)
  | .release => .next s
  | .restore => .next s
  | .finish => .next s

end State
end Machine
end Sys2Proof
end

