-- ==== Sys2Proof/Machine/Agents.lean ====
section
/-! DEFINITION. What each move of the outside world does: host accesses (spec/10_state.md R20, R38),
command issue (spec/30_encoding.md R90), the pins, reset (spec/70_reset_and_hazards.md R260). -/

namespace Sys2Proof
namespace Machine

/-- The issue of the command of opcode `v`; an opcode of no command completes with `ILLEGAL_OP` and
changes nothing else (R90, R231). -/
def issue (v : Byte) (s : State) : Host.Outcome State Fault Refusal :=
  match decode v with
  | .ok i => exec i s
  | .error _ => .next (s.raiseResult .illegalOp)

/-- A host write of `v` to address `a`: ignored while `BUSY` = 1 (R38); a write to `CMD_OP` issues a
command (R21). -/
def hostWrite (a v : Byte) (s : State) : Host.Outcome State Fault Refusal :=
  if s.status.busy then .next s
  else match hostReg a with
    | .cmdOp => issue v s
    | r => .next (s.writeReg v r)

/-- A host read of address `a`: `h_rdata` shows the byte and nothing else changes (R20, R39).
DEDUCED (log 12). -/
def hostRead (a : Byte) (s : State) : State := { s with hRdata := s.hostByte a }

/-- The pins a move changes. -/
def State.setPins (s : State) : Input → State
  | .busUser c => { s with cfgIn := c }
  | .strap b => { s with strap := b }
  | .rst b => { s with rst := b }
  | .hostWrite _ _ => s
  | .hostRead _ => s
  | .sequencer => s
  | .transport _ => s

/-- Another bus user's move, its word already on `cfg_in`: "other bus users may act only while `PHASE` =
`IDLE`" (R13, R269, D38); a move in a transaction is refused, as U10 says. DEDUCED (log 11). -/
def State.busUserStep (s : State) : Host.Outcome State Fault Refusal :=
  match s.phase with
  | .idle => .next s
  | .save => .refused .busUserInTransaction
  | .assert => .refused .busUserInTransaction
  | .addr => .refused .busUserInTransaction
  | .addrWait => .refused .busUserInTransaction
  | .data => .refused .busUserInTransaction
  | .dataWait => .refused .busUserInTransaction
  | .release => .refused .busUserInTransaction
  | .restore => .refused .busUserInTransaction
  | .finish => .refused .busUserInTransaction

/-- A move outside reset. -/
def move (i : Input) (s : State) : Host.Outcome State Fault Refusal :=
  match i with
  | .hostWrite a v => hostWrite a v s
  | .hostRead a => .next (hostRead a s)
  | .sequencer => s.sequencerStep
  | .transport rx => s.transportStep rx
  | .busUser _ => s.busUserStep
  | .strap _ => .next s
  | .rst _ => .next s

/-- One move: "While `rst` = 1, and in the step it falls to 0, RTCPKT enters the state below. Reset has
priority over every other step" (R260). -/
def act (i : Input) (s : State) : Host.Outcome State Fault Refusal :=
  let t := s.setPins i
  if s.rst || t.rst then .next t.applyReset else move i t

/-- The host write that runs the command of opcode `w` next, and the state it needs: not in reset and
not busy. From reset only the list of moves changes. -/
def State.placeCommand (s : State) (w : Nat) : State :=
  { s with
    inputs := .hostWrite 0x00#8 (BitVec.ofNat 8 w) :: s.inputs,
    rst := false, status := { s.status with busy := false }, phase := .idle }

end Machine
end Sys2Proof
end

