-- ==== Sys2Proof/Machine/Step.lean ====
section
/-! DEFINITION. One step of the machine (spec/20_memory.md R77): the next move is taken off the list and
made. RTCPKT fetches no instruction (spec/10_state.md R37): a command comes as a host write of its
opcode to `CMD_OP`. -/

namespace Sys2Proof
namespace Machine

/-- One step (R77): the next pending move, or the sequencer's turn where none is pending; the strobe
`cfg_we` of the step before falls. -/
def step (s : State) : Host.Outcome State Fault Refusal :=
  act s.nextInput s.popInput.dropStrobe

/-- `s` with the command of opcode `w` as its very next move (log 2). A command is one byte, so `nbits`
says nothing more. -/
def State.withFetchWord (s : State) (_nbits w : Nat) : State := s.placeCommand w

end Machine
end Sys2Proof
end

