-- ==== Sys2Proof/Safety.lean ====
section
/-! DEFINITION. The terms claims use: the invariant of the machine, the words of a frame, the end of a run
(spec/70_reset_and_hazards.md R273), the duty of other bus users (R269), and the strict reading of
spec/10_state.md R40, under which a run that reads a register before it was written stops. -/

namespace Sys2Proof
namespace Safety

open Machine

/-! ## The invariant -/

/-- The phases in which the select line is asserted: from after ASSERT until RELEASE (R181). -/
def selAsserted : Phase → Bool
  | .idle => false
  | .save => false
  | .assert => false
  | .addr => true
  | .addrWait => true
  | .data => true
  | .dataWait => true
  | .release => true
  | .restore => false
  | .finish => false

/-- The phases that wait for the transport (R180, R184). -/
def waiting : Phase → Bool
  | .addrWait => true
  | .dataWait => true
  | .idle => false
  | .save => false
  | .assert => false
  | .addr => false
  | .data => false
  | .release => false
  | .restore => false
  | .finish => false

/-- The data phases. -/
def inData : Phase → Bool
  | .data => true
  | .dataWait => true
  | .idle => false
  | .save => false
  | .assert => false
  | .addr => false
  | .addrWait => false
  | .release => false
  | .restore => false
  | .finish => false

/-- The phases in which the engine's bus configuration is installed: after SAVE until RESTORE (R186, R192). -/
def inFrame : Phase → Bool
  | .idle => false
  | .save => false
  | .assert => true
  | .addr => true
  | .addrWait => true
  | .data => true
  | .dataWait => true
  | .release => true
  | .restore => true
  | .finish => false

/-- What holds of every state a run reaches. -/
structure Inv (s : State) : Prop where
  /-- `BUF` is in its canonical form (R32) -/
  mem_wf : Memory.wf s.mem = true
  /-- `BUSY` = 1 exactly while a bus command runs (R25) -/
  busy_iff : s.status.busy = decide (s.phase ≠ .idle)
  /-- while a command runs, `DONE` = 0 and `RESULT` = `OK` (R25) -/
  running : s.phase ≠ .idle → s.status.done = false ∧ s.status.result = .ok
  /-- `sel` is asserted continuously from ASSERT to RELEASE and at no other time (R181) -/
  sel_level : s.sel = State.selLevel (selAsserted s.phase)
  /-- `x_req` = 1 exactly while a transfer is requested and not yet complete (R36) -/
  req_iff : s.xReq = waiting s.phase
  /-- the byte on `x_tx` is that of the transfer in flight (R35, R36) -/
  tx_stable : s.xReq = true → s.xTx = s.txb
  /-- the length latched is legal (R35) -/
  len_le : s.phase ≠ .idle → s.len.toNat ≤ Config.maxLen
  /-- the data phase's index is below the length (R184) -/
  k_lt : inData s.phase = true → s.k.toNat < s.len.toNat
  /-- a time packet is decoded only after the read of 7 bytes at 0x00 (R210, R213) -/
  post_time : s.phase ≠ .idle → s.post = .tdec → s.opc = .rd ∧ s.addr = timeBase ∧ s.len = timeLen
  /-- an alarm packet is decoded only after the read of 4 bytes at an alarm's address (R211, R215) -/
  post_alarm : s.phase ≠ .idle → s.post = .adec →
    s.opc = .rd ∧ (s.addr = alarmBase 0#8 ∨ s.addr = alarmBase 1#8) ∧ s.len = alarmLen
  /-- inside the frame the block drives the engine's configuration (R186, R192) -/
  cfg_frame : inFrame s.phase = true → s.cfgOut = Config.engineCfg
  /-- the bus holds the engine's configuration there, by the platform's duty of R264 (log 7) and the duty of
  other bus users (R13, R269; log 11) -/
  cfg_held : inFrame s.phase = true → s.cfgIn = Config.engineCfg
  /-- the strobe stands only right after SAVE and RESTORE (R182) -/
  strobe : s.cfgWe = true → s.phase = .assert ∨ s.phase = .finish
  /-- in reset no command runs (R260) -/
  rst_idle : s.rst = true → s.phase = .idle

/-! ## The words of a frame -/

/-- The operand registers are as before. -/
def SameOperands (s t : State) : Prop := t.cmdA = s.cmdA ∧ t.cmdB = s.cmdB ∧ t.cmdC = s.cmdC

/-- The result registers are as before. -/
def SameResults (s t : State) : Prop := t.res0 = s.res0 ∧ t.res1 = s.res1 ∧ t.resM = s.resM

/-- Both records are as before. -/
def SameRecords (s t : State) : Prop := t.time = s.time ∧ t.alarm = s.alarm

/-- Every byte of `BUF` reads as before. -/
def SameBuf (s t : State) : Prop := ∀ a, t.memByte a = s.memByte a

/-- Every byte but `BUF[0..n-1]` reads as before. -/
def SameBufBut (n : Nat) (s t : State) : Prop :=
  ∀ a, (∀ k, k < n → a ≠ bufAddr k) → t.memByte a = s.memByte a

/-- The sequencer's latches are as before (all of R35 but `PHASE`). -/
def SameLatches (s t : State) : Prop :=
  t.opc = s.opc ∧ t.addr = s.addr ∧ t.len = s.len ∧ t.k = s.k ∧ t.post = s.post ∧
    t.savedCfg = s.savedCfg ∧ t.txb = s.txb

/-- The output ports and the input pins are as before (R36), and no bus event was added. -/
def SameBus (s t : State) : Prop :=
  t.xReq = s.xReq ∧ t.xTx = s.xTx ∧ t.sel = s.sel ∧ t.cfgOut = s.cfgOut ∧ t.cfgWe = s.cfgWe ∧
    t.cfgIn = s.cfgIn ∧ t.trace = s.trace

/-- The same but for the strobe `cfg_we`, which falls in every step that does not raise it. -/
def SameLines (s t : State) : Prop :=
  t.xReq = s.xReq ∧ t.xTx = s.xTx ∧ t.sel = s.sel ∧ t.cfgOut = s.cfgOut ∧ t.cfgIn = s.cfgIn ∧
    t.trace = s.trace

/-- `MODE12`, the read port, the pins `rst` and `mode12_strap`, the moves to come and the count of resets
are as before. -/
def SameRest (s t : State) : Prop :=
  t.mode12 = s.mode12 ∧ t.hRdata = s.hRdata ∧ t.strap = s.strap ∧ t.rst = s.rst ∧
    t.inputs = s.inputs ∧ t.resets = s.resets

/-- A command completed with a result: `BUSY` = 0, `DONE` = 1, `PHASE` = `IDLE` (R91, R230). -/
def Completed (code : ResultCode) (t : State) : Prop :=
  t.status = .completed code ∧ t.phase = .idle

/-- A transaction was started: the latches hold the operands, `BUSY` = 1, `DONE` = 0, `RESULT` = `OK`,
`PHASE` = `SAVE` (R185), and the latches `start` does not write are as before. -/
def Started (op : Dir) (a n : Byte) (post : Post) (s t : State) : Prop :=
  t.opc = op ∧ t.addr = a ∧ t.len = n ∧ t.post = post ∧ t.status = ⟨true, false, .ok⟩ ∧
    t.phase = .save ∧ t.k = s.k ∧ t.savedCfg = s.savedCfg ∧ t.txb = s.txb

/-- The moves of a transaction of `rxs.length` data phases in which every transfer completes when first
awaited: the sequencer's turns, and the transport's with the bytes shifted in (R184). -/
def transactionMoves (rxa : Byte) (rxs : List Byte) : List Input :=
  [.sequencer, .sequencer, .sequencer, .transport rxa] ++
    rxs.flatMap (fun rx => [.sequencer, .transport rx]) ++ [.sequencer, .sequencer, .sequencer]

/-- The events of a transaction around its transfers (R197). -/
def frameEvents (c0 : CfgWord) (transfers : List BusEvent) : List BusEvent :=
  [.cfgSave c0, .cfgSet Config.engineCfg, .sel true] ++ transfers ++ [.sel false, .cfgSet c0]

/-- The transfers of a read's data phases: the filler sent, the answers received (R189). -/
def readTransfers (rxs : List Byte) : List BusEvent := rxs.map (.xfer Config.fillByte)

/-- The transfers of a write's data phases: byte `k` of `b` sent in phase `k` (R190). -/
def writeTransfers (b : Nat → Byte) (rxs : List Byte) : List BusEvent :=
  rxs.mapIdx fun k rx => .xfer (b k) rx

/-- After a transaction: completed `OK`, the frame closed, the bus configuration as it was sampled
(R191, R192, R193), the moves used up, the rest as before. -/
def AfterTransaction (s t : State) (rest : List Input) : Prop :=
  Completed .ok t ∧ t.sel = State.selLevel false ∧ t.xReq = false ∧ t.cfgIn = s.cfgIn ∧
    t.inputs = rest ∧ SameOperands s t ∧ SameResults s t ∧ t.mode12 = s.mode12 ∧
    t.hRdata = s.hRdata ∧ t.strap = s.strap ∧ t.rst = s.rst ∧ t.resets = s.resets

/-- The block can accept a command: not in reset and not busy (R38, R90). -/
def Ready (s : State) : Prop := s.rst = false ∧ s.status.busy = false

/-- The state in which the next move is made: that move is off the list, the strobe has fallen. -/
def before (s : State) : State := s.popInput.dropStrobe

/-- The block is being reset in the step from `s`: `rst` is 1, or is made 1 (R260). -/
def resetting (s : State) : Bool := s.rst || (s.popInput.setPins s.nextInput).rst

/-! ## The host register map, row by row -/

/-- The code of a result (R230). -/
def resultCode : ResultCode → Nat
  | .ok => 0
  | .noopBadIdx => 1
  | .illegalOp => 2
  | .lenRange => 3

/-- A byte shows a two-bit code in bits 1:0 and 0 above them (R33, R34). -/
def ShowsCode (b : Byte) (m : MerCode) : Prop := b.toNat = m.toNat

/-- What a host read of each address of the block below the records gives (R20, R21-R29). -/
structure ControlMap (s : State) : Prop where
  cmdOp : s.hostByte 0x00#8 = 0x00#8
  cmdA : s.hostByte 0x01#8 = s.cmdA
  cmdB : s.hostByte 0x02#8 = s.cmdB
  cmdC : s.hostByte 0x03#8 = s.cmdC
  /-- bit 0 `BUSY`, bit 1 `DONE`, bits 4:2 `RESULT`, bits 7:5 read 0 (R25, R230) -/
  status : (s.hostByte 0x04#8).toNat =
    (if s.status.busy then 1 else 0) + (if s.status.done then 2 else 0) + 4 * resultCode s.status.result
  /-- bit 0 `MODE12`, bits 7:1 read 0 (R26) -/
  cfg : (s.hostByte 0x05#8).toNat = if s.mode12 then 1 else 0
  res0 : s.hostByte 0x06#8 = s.res0
  res1 : s.hostByte 0x07#8 = s.res1
  resM : ShowsCode (s.hostByte 0x08#8) s.resM

/-- What a host read of each address of the time record gives (R20, R30). -/
structure TimeMap (s : State) : Prop where
  sec : s.hostByte 0x10#8 = s.time.sec
  min : s.hostByte 0x11#8 = s.time.min
  hr24 : s.hostByte 0x12#8 = s.time.hr24
  hr12 : s.hostByte 0x13#8 = s.time.hr12
  mer : ShowsCode (s.hostByte 0x14#8) s.time.mer
  dow : s.hostByte 0x15#8 = s.time.dow
  dom : s.hostByte 0x16#8 = s.time.dom
  mon : s.hostByte 0x17#8 = s.time.mon
  yr : s.hostByte 0x18#8 = s.time.yr

/-- What a host read of each address of the alarm record gives (R20, R31). -/
structure AlarmMap (s : State) : Prop where
  sec : s.hostByte 0x20#8 = s.alarm.sec
  min : s.hostByte 0x21#8 = s.alarm.min
  hr24 : s.hostByte 0x22#8 = s.alarm.hr24
  hr12 : s.hostByte 0x23#8 = s.alarm.hr12
  mer : ShowsCode (s.hostByte 0x24#8) s.alarm.mer
  dow : s.hostByte 0x25#8 = s.alarm.dow

/-- "`BUF[k]` is at host address 0x80 + k" (R32). -/
def BufMap (s : State) : Prop := ∀ a : Byte, 0x80 ≤ a.toNat → s.hostByte a = s.buf (a.toNat - 0x80)

/-! ## The codecs, in the words of the rules

Relations between the byte a codec reads and the byte it gives, stated on naturals and apart from the
model's own codec functions. They leave an `UNSPEC` byte free. -/

/-- `((v / 10) << 4) | (v % 10)` for a v below 100 (R120). -/
def bcdOf (n : Nat) : Nat := n / 10 * 16 + n % 10

/-- `b[7:4] * 10 + b[3:0]` (R121). -/
def ofBcd (b : Nat) : Nat := b / 16 * 10 + b % 16

/-- `out` is `enc(v, m)` (R122): a wildcard unchanged, a value below 100 as masked BCD, any byte else. -/
def Encodes (v m out : Byte) : Prop :=
  (128 ≤ v.toNat → out = v) ∧ (v.toNat < 100 → out.toNat = bcdOf v.toNat &&& m.toNat)

/-- `out` is `dec(b, m)` (R123). -/
def Decodes (b m out : Byte) : Prop :=
  (128 ≤ b.toNat → out = b) ∧ (b.toNat < 128 → out.toNat = ofBcd (b.toNat &&& m.toNat))

/-- `out` is `enc8(v)` (R124): any byte where v is 100 or more. -/
def EncodesYear (v out : Byte) : Prop := v.toNat < 100 → out.toNat = bcdOf v.toNat

/-- `out` is `dec8(b)` (R125). -/
def DecodesYear (b out : Byte) : Prop := out.toNat = ofBcd b.toNat

/-- `out` is `hour_enc(hr24, hr12, mer)` (R140): the authoritative field's wildcard unchanged, its value
below 100 as 6-bit BCD or as 5-bit BCD with the mode bit and the meridiem bit. -/
def HourEncodes (mode12 : Bool) (hr24 hr12 : Byte) (mer : MerCode) (out : Byte) : Prop :=
  (mode12 = false →
    (128 ≤ hr24.toNat → out = hr24) ∧ (hr24.toNat < 100 → out.toNat = bcdOf hr24.toNat &&& 0x3F)) ∧
  (mode12 = true →
    (128 ≤ hr12.toNat → out = hr12) ∧
    (hr12.toNat < 100 →
      out.toNat = (bcdOf hr12.toNat &&& 0x1F) + 0x40 + (if mer = Mer.pm then 0x20 else 0x00)))

/-- The hour fields an encoder reads are the same in both triples: `hr24` in 24-hour mode; `hr12` in 12-hour
mode, "plus `mer` only when `hr12` is not a wildcard" (R140). -/
def SameUsedHour (mode12 : Bool) (hr24 hr12 : Byte) (mer : MerCode) (hr24' hr12' : Byte) (mer' : MerCode) :
    Prop :=
  (mode12 = false → hr24' = hr24) ∧
  (mode12 = true → hr12' = hr12 ∧ (hr12.toNat < 128 → mer' = mer))

/-- `(hr24, hr12, mer)` is `hour_dec(b)` (R141), less `hr12` and `mer` of a 24-hour-shaped byte of 24..45,
on which "a proof must not depend" (U3; log 15). -/
def HourDecodes (b hr24 hr12 : Byte) (mer : MerCode) : Prop :=
  (128 ≤ b.toNat → hr24 = b ∧ hr12 = b ∧ mer = Mer.undef) ∧
  (b.toNat < 64 →
    hr24.toNat = ofBcd b.toNat ∧
    (ofBcd b.toNat = 0 → hr12.toNat = 12 ∧ mer = Mer.am) ∧
    (1 ≤ ofBcd b.toNat → ofBcd b.toNat ≤ 11 → hr12.toNat = ofBcd b.toNat ∧ mer = Mer.am) ∧
    (ofBcd b.toNat = 12 → hr12.toNat = 12 ∧ mer = Mer.pm) ∧
    (13 ≤ ofBcd b.toNat → ofBcd b.toNat ≤ 23 → hr12.toNat = ofBcd b.toNat - 12 ∧ mer = Mer.pm)) ∧
  (64 ≤ b.toNat → b.toNat < 128 →
    hr12.toNat = ofBcd (b.toNat % 32) ∧
    (b.toNat / 32 % 2 = 1 →
      mer = Mer.pm ∧
      hr24.toNat = (if ofBcd (b.toNat % 32) = 12 then 12 else 12 + ofBcd (b.toNat % 32))) ∧
    (b.toNat / 32 % 2 = 0 →
      mer = Mer.am ∧
      hr24.toNat = (if ofBcd (b.toNat % 32) = 12 then 0 else ofBcd (b.toNat % 32))))

/-- The bytes `b 0 .. b 6` are `tpkt_enc()` of the record under the mode (R161, R163). -/
def TimePacketOf (mode12 : Bool) (r : TimeRecord) (b : Nat → Byte) : Prop :=
  Encodes r.sec 0x7F#8 (b 0) ∧ Encodes r.min 0x7F#8 (b 1) ∧
  HourEncodes mode12 r.hr24 r.hr12 r.mer (b 2) ∧ Encodes r.dow 0x07#8 (b 3) ∧
  Encodes r.dom 0x3F#8 (b 4) ∧ Encodes r.mon 0x3F#8 (b 5) ∧ EncodesYear r.yr (b 6)

/-- The record is `tpkt_dec()` of the bytes `b 0 .. b 6` (R161, R164). -/
def TimeRecordOf (b : Nat → Byte) (r : TimeRecord) : Prop :=
  Decodes (b 0) 0x7F#8 r.sec ∧ Decodes (b 1) 0x7F#8 r.min ∧
  HourDecodes (b 2) r.hr24 r.hr12 r.mer ∧ Decodes (b 3) 0x07#8 r.dow ∧
  Decodes (b 4) 0x3F#8 r.dom ∧ Decodes (b 5) 0x3F#8 r.mon ∧ DecodesYear (b 6) r.yr

/-- The bytes `b 0 .. b 3` are `apkt_enc()` of the record under the mode (R162, R165). -/
def AlarmPacketOf (mode12 : Bool) (r : AlarmRecord) (b : Nat → Byte) : Prop :=
  Encodes r.sec 0x7F#8 (b 0) ∧ Encodes r.min 0x7F#8 (b 1) ∧
  HourEncodes mode12 r.hr24 r.hr12 r.mer (b 2) ∧ Encodes r.dow 0x07#8 (b 3)

/-- The record is `apkt_dec()` of the bytes `b 0 .. b 3` (R162, R166). -/
def AlarmRecordOf (b : Nat → Byte) (r : AlarmRecord) : Prop :=
  Decodes (b 0) 0x7F#8 r.sec ∧ Decodes (b 1) 0x7F#8 r.min ∧
  HourDecodes (b 2) r.hr24 r.hr12 r.mer ∧ Decodes (b 3) 0x07#8 r.dow

/-! ## The end of a run and the duty of other bus users -/

/-- The end of a run (R273), once the host has no write left: `PHASE` = `IDLE`, `sel` idle, `x_req` = 0,
and `DONE` = 1 if a command was issued. -/
def Final (issued : Bool) (s : State) : Prop :=
  (∀ a v, Input.hostWrite a v ∉ s.inputs) ∧ s.phase = .idle ∧ s.sel = State.selLevel false ∧
    s.xReq = false ∧ (issued = true → s.status.done = true)

/-- The next move is one R13 allows: "other bus users may act only while `PHASE` = `IDLE`. This is a system duty
that RTCPKT cannot check" (R269, R267; D38, U10). -/
def busDuty (s : State) : Prop :=
  ∀ c, s.nextInput = .busUser c → s.phase = .idle

/-! ## The strict reading of R40 -/

/-- The registers marked `unspec` in R20, by host address. -/
def unspecReg (a : Nat) : Bool :=
  (decide (0x01 ≤ a) && decide (a ≤ 0x03)) || (decide (0x06 ≤ a) && decide (a ≤ 0x08)) ||
  (decide (0x10 ≤ a) && decide (a ≤ 0x18)) || (decide (0x20 ≤ a) && decide (a ≤ 0x25)) ||
  (decide (0x80 ≤ a) && decide (a ≤ 0xFF))

/-- Those of them the host can write. -/
def hostWritable (a : Nat) : Bool := unspecReg a && !(decide (0x06 ≤ a) && decide (a ≤ 0x08))

/-- What holds no value the spec fixes until it is first written: the registers marked `unspec` in R20 and
R35 (R40), and the ports R260 calls unspecified, with the read port (log 3, log 12). -/
inductive UnspecReg where
  /-- the register at host address `a` (R20) -/
  | host (a : Nat)
  /-- `OPC` (R35) -/
  | opc
  /-- `ADDR` (R35) -/
  | addr
  /-- `LEN` (R35) -/
  | len
  /-- `K` (R35) -/
  | k
  /-- `POST` (R35) -/
  | post
  /-- `SAVED_CFG` (R35) -/
  | savedCfg
  /-- `TXB` (R35) -/
  | txb
  /-- the port `x_tx` (R36, R260) -/
  | xTx
  /-- the port `cfg_out` (R36, R260) -/
  | cfgOut
  /-- the port `h_rdata` (R20; log 12) -/
  | hRdata
deriving DecidableEq, Repr

/-- Registers of the host register space, by address. -/
def hostRegs (as : List Nat) : List UnspecReg := as.map .host

/-- The latches `start` writes (R185). -/
def startLatches : List UnspecReg := [.opc, .addr, .len, .post]

/-- The host addresses of `BUF[0..n-1]`. -/
def bufAddrs (n : Nat) : List Nat := (List.range n).map bufAddr

/-- The hour registers an encoder reads: the authoritative field, and in 12-hour mode the meridiem too
unless the field is a wildcard (R140, D37). -/
def hourReads (mode12 wild12 : Bool) (a24 a12 amer : Nat) : List Nat :=
  if mode12 then a12 :: (if wild12 then [] else [amer]) else [a24]

/-- The time-record registers `tpkt_enc` reads (R163). -/
def timeReads (s : State) : List Nat :=
  [0x10, 0x11] ++ hourReads s.mode12 (isWild s.time.hr12) 0x12 0x13 0x14 ++ [0x15, 0x16, 0x17, 0x18]

/-- The alarm-record registers `apkt_enc` reads (R165). -/
def alarmReads (s : State) : List Nat :=
  [0x20, 0x21] ++ hourReads s.mode12 (isWild s.alarm.hr12) 0x22 0x23 0x24 ++ [0x25]

/-- The time-record registers, all written by `tpkt_dec` (R164). -/
def timeRegs : List Nat := [0x10, 0x11, 0x12, 0x13, 0x14, 0x15, 0x16, 0x17, 0x18]

/-- The alarm-record registers, all written by `apkt_dec` and `clear_alarm_record` (R166, R216). -/
def alarmRegs : List Nat := [0x20, 0x21, 0x22, 0x23, 0x24, 0x25]

/-- The registers a command reads in its issuing step (R92; R140). -/
def commandReads (i : Instr) (s : State) : List Nat :=
  match i with
  | .bcdEnc => [0x01, 0x02]
  | .bcdDec => [0x01, 0x02]
  | .bcd8Enc => [0x01]
  | .bcd8Dec => [0x01]
  | .hourEnc => hourReads s.mode12 (isWild s.cmdB) 0x01 0x02 0x03
  | .hourDec => [0x01]
  | .tpktEnc => timeReads s
  | .tpktDec => bufAddrs 7
  | .apktEnc => alarmReads s
  | .apktDec => bufAddrs 4
  | .burstRd => [0x01, 0x02]
  | .burstWr => [0x01, 0x02]
  | .setTime => timeReads s
  | .getTime => []
  | .setAlarm => 0x01 :: (if alarmIndexOk s.cmdA then alarmReads s else [])
  | .getAlarm => [0x01]

/-- The registers a command writes in its issuing step, the latches of a started transaction among them
(R92, R185). -/
def commandWrites (i : Instr) (s : State) : List UnspecReg :=
  match i with
  | .bcdEnc => hostRegs [0x06]
  | .bcdDec => hostRegs [0x06]
  | .bcd8Enc => hostRegs [0x06]
  | .bcd8Dec => hostRegs [0x06]
  | .hourEnc => hostRegs [0x06]
  | .hourDec => hostRegs [0x06, 0x07, 0x08]
  | .tpktEnc => hostRegs (bufAddrs 7)
  | .tpktDec => hostRegs timeRegs
  | .apktEnc => hostRegs (bufAddrs 4)
  | .apktDec => hostRegs alarmRegs
  | .burstRd => if s.cmdB.toNat ≤ 128 then startLatches else []
  | .burstWr => if s.cmdB.toNat ≤ 128 then startLatches else []
  | .setTime => hostRegs (bufAddrs 7) ++ startLatches
  | .getTime => startLatches
  | .setAlarm => if alarmIndexOk s.cmdA then hostRegs (bufAddrs 4) ++ startLatches else []
  | .getAlarm => if alarmIndexOk s.cmdA then startLatches else hostRegs alarmRegs

/-- What a line of R184 reads, in the order it is read. A data phase reads `K` in either direction, as the
model checks that `BUF[K]` exists (log 14). -/
def sequencerReads (s : State) : List UnspecReg :=
  match s.phase with
  | .idle => []
  | .save => []
  | .assert => []
  | .addr => [.opc, .addr]
  | .addrWait => []
  | .data =>
    match s.opc with
    | .rd => [.opc, .k]
    | .wr => [.opc, .k, .host (bufAddr s.k.toNat)]
  | .dataWait => []
  | .release => []
  | .restore => [.savedCfg]
  | .finish =>
    match s.post with
    | .none => [.post]
    | .tdec => .post :: hostRegs (bufAddrs 7)
    | .adec => .post :: hostRegs (bufAddrs 4)

/-- What a line of R184 writes. -/
def sequencerWrites (s : State) : List UnspecReg :=
  match s.phase with
  | .idle => []
  | .save => [.savedCfg, .cfgOut]
  | .assert => []
  | .addr => [.txb, .xTx]
  | .addrWait => []
  | .data => [.txb, .xTx]
  | .dataWait => []
  | .release => []
  | .restore => [.cfgOut]
  | .finish =>
    match s.post with
    | .none => []
    | .tdec => hostRegs timeRegs
    | .adec => hostRegs alarmRegs

/-- What a wait line of R184 reads when the transfer completes. -/
def transportReads (s : State) : List UnspecReg :=
  match s.phase with
  | .idle => []
  | .save => []
  | .assert => []
  | .addr => []
  | .addrWait => [.txb, .len]
  | .data => []
  | .dataWait => [.opc, .k, .txb, .len]
  | .release => []
  | .restore => []
  | .finish => []

/-- What a wait line of R184 writes when the transfer completes. -/
def transportWrites (s : State) : List UnspecReg :=
  match s.phase with
  | .idle => []
  | .save => []
  | .assert => []
  | .addr => []
  | .addrWait => [.k]
  | .data => []
  | .dataWait =>
    match s.opc with
    | .rd => [.k, .host (bufAddr s.k.toNat)]
    | .wr => [.k]
  | .release => []
  | .restore => []
  | .finish => []

/-- The unspecified registers the step from `s` reads. -/
def stepReads (s : State) : List UnspecReg :=
  if resetting s then []
  else match s.nextInput with
    | .hostRead a => if unspecReg a.toNat then [.host a.toNat] else []
    | .hostWrite a v =>
      if s.status.busy || a != 0x00#8 then []
      else match decode v with
        | .ok i => hostRegs (commandReads i s)
        | .error _ => []
    | .sequencer => sequencerReads s
    | .transport _ => transportReads s
    | .busUser _ => []
    | .strap _ => []
    | .rst _ => []

/-- The unspecified registers the step from `s` writes. -/
def stepWrites (s : State) : List UnspecReg :=
  match s.nextInput with
  | .hostRead _ => [.hRdata]
  | .hostWrite a v =>
    if s.status.busy then []
    else if a = 0x00#8 then
      match decode v with
      | .ok i => commandWrites i s
      | .error _ => []
    else if hostWritable a.toNat then [.host a.toNat] else []
  | .sequencer => sequencerWrites s
  | .transport _ => transportWrites s
  | .busUser _ => []
  | .strap _ => []
  | .rst _ => []

/-- The machine beside the list of unspecified registers written since reset. -/
structure Tracked where
  st : State
  written : List UnspecReg
deriving DecidableEq, Repr

/-- Why the strict machine stops. -/
inductive StrictFault where
  /-- "A model gives it no value, and treats a read of it as a fault" (R40); safe -/
  | unspecRead (r : UnspecReg)
  /-- a fault of the machine itself -/
  | machine (f : Fault)
deriving DecidableEq, Repr

/-- The registers written after the step from `t`: after a reset step none (R260). -/
def Tracked.writtenAfter (t : Tracked) : List UnspecReg :=
  if resetting t.st then [] else t.written ++ stepWrites t.st

/-- One step of the strict machine: it stops where the step reads a register not written since reset
(R40), and is otherwise the machine's own step. -/
def Tracked.step (t : Tracked) : Host.Outcome Tracked StrictFault Refusal :=
  match (stepReads t.st).find? (fun r => !t.written.contains r) with
  | some r => .fault (.unspecRead r)
  | none =>
    match Machine.step t.st with
    | .next s => .next ⟨s, t.writtenAfter⟩
    | .fault f => .fault (.machine f)
    | .refused r => .refused r

/-- The strict machine right after reset: nothing was written yet. -/
def Tracked.reset : Tracked := ⟨State.reset, []⟩

/-- The sequencer's latches are written in every phase that reads them (R184, R185). -/
structure Tracked.LatchesWritten (t : Tracked) : Prop where
  started : t.st.phase ≠ .idle → ∀ r ∈ startLatches, r ∈ t.written
  frame : inFrame t.st.phase = true → .savedCfg ∈ t.written
  transfer : waiting t.st.phase = true → .txb ∈ t.written
  data : inData t.st.phase = true → .k ∈ t.written

/-- Two states hold the same in an unspecified register. -/
def SameReg (s t : State) : UnspecReg → Prop
  | .host a => ∀ b : Byte, b.toNat = a → t.hostByte b = s.hostByte b
  | .opc => t.opc = s.opc
  | .addr => t.addr = s.addr
  | .len => t.len = s.len
  | .k => t.k = s.k
  | .post => t.post = s.post
  | .savedCfg => t.savedCfg = s.savedCfg
  | .txb => t.txb = s.txb
  | .xTx => t.xTx = s.xTx
  | .cfgOut => t.cfgOut = s.cfgOut
  | .hRdata => t.hRdata = s.hRdata

/-- Two states that differ at most in unspecified registers that are not in `w` (and in the count of
resets, which only an unwritten byte of `BUF` depends on). -/
structure Agree (w : List UnspecReg) (s t : State) : Prop where
  status : t.status = s.status
  mode12 : t.mode12 = s.mode12
  phase : t.phase = s.phase
  xReq : t.xReq = s.xReq
  sel : t.sel = s.sel
  cfgWe : t.cfgWe = s.cfgWe
  cfgIn : t.cfgIn = s.cfgIn
  strap : t.strap = s.strap
  rst : t.rst = s.rst
  inputs : t.inputs = s.inputs
  trace : t.trace = s.trace
  draws : t.draws = s.draws
  regs : ∀ r ∈ w, SameReg s t r

end Safety
end Sys2Proof
end

