-- ==== Sys2Proof/Certificates/Slice0/Obligations.lean ====
section
/-! DEFINITION. The statements for the provers, from the numbered rules of spec/. A statement holds for every
value of the model's free values: it says nothing where a rule says `UNSPEC`. A statement about `step` takes
the moves of the outside world from `State.inputs`, which is the model's own form of a step (log 1). -/

open Sys2Proof Sys2Proof.Machine Sys2Proof.Safety

/-! ## Encoding -/

/-- R93: the opcode map, row by row. "Every opcode is the full 8-bit value of the `CMD_OP` write". -/
def Obligations.OpcodeMapRows : Prop :=
  ∀ v : Byte,
    (decode v = .ok .bcdEnc ↔ v = 0x01#8) ∧ (decode v = .ok .bcdDec ↔ v = 0x02#8) ∧
    (decode v = .ok .bcd8Enc ↔ v = 0x03#8) ∧ (decode v = .ok .bcd8Dec ↔ v = 0x04#8) ∧
    (decode v = .ok .hourEnc ↔ v = 0x05#8) ∧ (decode v = .ok .hourDec ↔ v = 0x06#8) ∧
    (decode v = .ok .tpktEnc ↔ v = 0x08#8) ∧ (decode v = .ok .tpktDec ↔ v = 0x09#8) ∧
    (decode v = .ok .apktEnc ↔ v = 0x0A#8) ∧ (decode v = .ok .apktDec ↔ v = 0x0B#8) ∧
    (decode v = .ok .burstRd ↔ v = 0x10#8) ∧ (decode v = .ok .burstWr ↔ v = 0x11#8) ∧
    (decode v = .ok .setTime ↔ v = 0x18#8) ∧ (decode v = .ok .getTime ↔ v = 0x19#8) ∧
    (decode v = .ok .setAlarm ↔ v = 0x1A#8) ∧ (decode v = .ok .getAlarm ↔ v = 0x1B#8)

/-- R96: decoder and encoder agree in both directions. -/
def Obligations.DecodeAndEncodeAgree : Prop :=
  ∀ (v : Byte) (i : Instr), decode v = .ok i ↔ v = encode i

/-- R98: the host writes of any list of well-formed written commands, whatever byte each operand is, read
back as those commands with their operands as numbers. -/
def Obligations.AssembledCommandsReadBack : Prop :=
  ∀ ws : List Written, (∀ w ∈ ws, w.wf = true) →
    disassemble [] (ws.flatMap assemble) = some (ws.map Written.numeric)

/-- R94, R231: an opcode of no command completes in the same step with `ILLEGAL_OP` and changes nothing
else, whatever the operand registers hold. -/
def Obligations.IllegalOpcodeCompletesAtOnce : Prop :=
  ∀ (s : State) (v : Byte), Ready s → s.nextInput = .hostWrite 0x00#8 v →
    (v.toNat = 0x00 ∨ v.toNat = 0x07 ∨ (0x0C ≤ v.toNat ∧ v.toNat ≤ 0x0F) ∨
      (0x12 ≤ v.toNat ∧ v.toNat ≤ 0x17) ∨ 0x1C ≤ v.toNat) →
    ∃ t, step s = .next t ∧ Completed .illegalOp t ∧ t.status.byte = 0x0A#8 ∧
      SameOperands s t ∧ SameResults s t ∧ SameRecords s t ∧ SameBuf s t ∧ SameLatches s t ∧
      SameLines s t ∧ SameRest (before s) t

/-- R90, R20, R77: a step whose move is the host's write of a byte that decodes to a command, in a state
that can accept one, is that command's `exec`; the step adds that the move is off the list and the
strobe `cfg_we` of the step before has fallen: both are the model's choice (log 1, log 8). -/
def Obligations.StepRunsTheDecodedCommand : Prop :=
  ∀ (s : State) (v : Byte) (i : Instr) (rest : List Input), Ready s →
    s.inputs = .hostWrite 0x00#8 v :: rest → decode v = .ok i →
    step s = exec i { s with inputs := rest, cfgWe := false }

/-! ## BCD codec -/

/-- R126, R122: `BCD_ENC` leaves `enc(A, B)` in `RES0`, completes `OK` and changes nothing else. -/
def Obligations.BcdEncStoresMaskedBcd : Prop :=
  ∀ s : State, ∃ t, exec .bcdEnc s = .next t ∧ Encodes s.cmdA s.cmdB t.res0 ∧
    Completed .ok t ∧ t.status.byte = 0x02#8 ∧ t.res1 = s.res1 ∧ t.resM = s.resM ∧
    SameOperands s t ∧ SameRecords s t ∧ SameBuf s t ∧ SameLatches s t ∧ SameBus s t ∧ SameRest s t

/-- R127, R123: `BCD_DEC` leaves `dec(A, B)` in `RES0`: masked first, then weighted; a wildcard unchanged. -/
def Obligations.BcdDecStoresMaskedValue : Prop :=
  ∀ s : State, ∃ t, exec .bcdDec s = .next t ∧ Decodes s.cmdA s.cmdB t.res0 ∧
    Completed .ok t ∧ t.status.byte = 0x02#8 ∧ t.res1 = s.res1 ∧ t.resM = s.resM ∧
    SameOperands s t ∧ SameRecords s t ∧ SameBuf s t ∧ SameLatches s t ∧ SameBus s t ∧ SameRest s t

/-- R128, R124: `BCD8_ENC` leaves the unmasked BCD of A in `RES0`, with no wildcard. -/
def Obligations.YearEncStoresBcd : Prop :=
  ∀ s : State, ∃ t, exec .bcd8Enc s = .next t ∧ EncodesYear s.cmdA t.res0 ∧
    Completed .ok t ∧ t.status.byte = 0x02#8 ∧ t.res1 = s.res1 ∧ t.resM = s.resM ∧
    SameOperands s t ∧ SameRecords s t ∧ SameBuf s t ∧ SameLatches s t ∧ SameBus s t ∧ SameRest s t

/-- R129, R125: `BCD8_DEC` leaves the weighted nibbles of A in `RES0`, with no wildcard. -/
def Obligations.YearDecStoresValue : Prop :=
  ∀ s : State, ∃ t, exec .bcd8Dec s = .next t ∧ DecodesYear s.cmdA t.res0 ∧
    Completed .ok t ∧ t.status.byte = 0x02#8 ∧ t.res1 = s.res1 ∧ t.resM = s.resM ∧
    SameOperands s t ∧ SameRecords s t ∧ SameBuf s t ∧ SameLatches s t ∧ SameBus s t ∧ SameRest s t

/-- R130: encoding a value below 100 and decoding it under the same mask with bit 7 clear gives the value
back exactly when its BCD digits fit the mask, through the commands themselves. -/
def Obligations.MaskedBcdRoundTrip : Prop :=
  ∀ s t u : State, s.cmdA.toNat < 100 → s.cmdB.toNat < 128 → exec .bcdEnc s = .next t →
    exec .bcdDec { t with cmdA := t.res0 } = .next u →
    (u.res0 = s.cmdA ↔ bcdOf s.cmdA.toNat &&& s.cmdB.toNat = bcdOf s.cmdA.toNat) ∧
    (s.cmdB = 0x7F#8 → s.cmdA.toNat < 80 → u.res0 = s.cmdA) ∧
    (s.cmdB = 0x3F#8 → s.cmdA.toNat < 40 → u.res0 = s.cmdA) ∧
    (s.cmdB = 0x1F#8 → s.cmdA.toNat < 20 → u.res0 = s.cmdA) ∧
    (s.cmdB = 0x07#8 → s.cmdA.toNat < 8 → u.res0 = s.cmdA)

/-- R132: the year codec gives every value of 0..99 back, through the commands themselves. -/
def Obligations.YearRoundTrip : Prop :=
  ∀ s t u : State, s.cmdA.toNat < 100 → exec .bcd8Enc s = .next t →
    exec .bcd8Dec { t with cmdA := t.res0 } = .next u → u.res0 = s.cmdA

/-! ## Hour codec -/

/-- R144: `HOUR_ENC` leaves the hour byte of the authoritative field in `RES0`, completes `OK` and changes
nothing else. -/
def Obligations.HourEncStoresHourByte : Prop :=
  ∀ s : State, ∃ t, exec .hourEnc s = .next t ∧
    HourEncodes s.mode12 s.cmdA s.cmdB (s.cmdC.extractLsb' 0 2) t.res0 ∧
    Completed .ok t ∧ t.status.byte = 0x02#8 ∧ t.res1 = s.res1 ∧ t.resM = s.resM ∧
    SameOperands s t ∧ SameRecords s t ∧ SameBuf s t ∧ SameLatches s t ∧ SameBus s t ∧ SameRest s t

/-- R145, R141: `HOUR_DEC` leaves the hour triple of A in `RES0`, `RES1`, `RESM`, under either mode. It says
nothing of the 12-hour value and meridiem of a 24-hour-shaped byte of 24..45 (U3; log 15). -/
def Obligations.HourDecStoresHourTriple : Prop :=
  ∀ s : State, ∃ t, exec .hourDec s = .next t ∧ HourDecodes s.cmdA t.res0 t.res1 t.resM ∧
    Completed .ok t ∧ t.status.byte = 0x02#8 ∧
    SameOperands s t ∧ SameRecords s t ∧ SameBuf s t ∧ SameLatches s t ∧ SameBus s t ∧ SameRest s t

/-- R146: the authoritative field comes back: hr24 of 0..23, or hr12 of 1..12 with the meridiem (every code
but `PM` comes back as `AM`), or the wildcard with an undefined meridiem. -/
def Obligations.HourRoundTrip : Prop :=
  ∀ s t u : State, exec .hourEnc s = .next t → exec .hourDec { t with cmdA := t.res0 } = .next u →
    (s.mode12 = false → s.cmdA.toNat ≤ 23 → u.res0 = s.cmdA) ∧
    (s.mode12 = true → 1 ≤ s.cmdB.toNat → s.cmdB.toNat ≤ 12 →
      u.res1 = s.cmdB ∧ u.resM = (if s.cmdC.extractLsb' 0 2 = Mer.pm then Mer.pm else Mer.am)) ∧
    (s.mode12 = false → 128 ≤ s.cmdA.toNat →
      u.res0 = s.cmdA ∧ u.res1 = s.cmdA ∧ u.resM = Mer.undef) ∧
    (s.mode12 = true → 128 ≤ s.cmdB.toNat →
      u.res0 = s.cmdB ∧ u.res1 = s.cmdB ∧ u.resM = Mer.undef)

/-- R147: every hour of 0..23 survives 24-hour byte, decode, 12-hour byte, decode, on blocks of either mode. -/
def Obligations.HourCrossRoundTrip : Prop :=
  ∀ s t u v w : State, s.mode12 = false → s.cmdA.toNat ≤ 23 →
    exec .hourEnc s = .next t → exec .hourDec { t with cmdA := t.res0 } = .next u →
    exec .hourEnc { u with mode12 := true, cmdB := u.res1, cmdC := merByte u.resM } = .next v →
    exec .hourDec { v with cmdA := v.res0 } = .next w → w.res0 = s.cmdA

/-! ## Packet codec -/

/-- R163, R161: `TPKT_ENC` writes `BUF[0..6]` from the time record and no other byte, completes `OK` and
changes nothing else. -/
def Obligations.TimePacketEncoded : Prop :=
  ∀ s : State, ∃ t, exec .tpktEnc s = .next t ∧ TimePacketOf s.mode12 s.time t.buf ∧
    SameBufBut 7 s t ∧ Completed .ok t ∧ t.status.byte = 0x02#8 ∧
    SameOperands s t ∧ SameResults s t ∧ SameRecords s t ∧ SameLatches s t ∧ SameBus s t ∧ SameRest s t

/-- R164, R168: `TPKT_DEC` writes every register of the time record from `BUF[0..6]`, under either mode, and
changes nothing else. -/
def Obligations.TimePacketDecoded : Prop :=
  ∀ s : State, ∃ t, exec .tpktDec s = .next t ∧ TimeRecordOf s.buf t.time ∧ t.alarm = s.alarm ∧
    Completed .ok t ∧ t.status.byte = 0x02#8 ∧
    SameOperands s t ∧ SameResults s t ∧ SameBuf s t ∧ SameLatches s t ∧ SameBus s t ∧ SameRest s t

/-- R165, R162: `APKT_ENC` writes `BUF[0..3]` from the alarm record and no other byte, completes `OK` and
changes nothing else. -/
def Obligations.AlarmPacketEncoded : Prop :=
  ∀ s : State, ∃ t, exec .apktEnc s = .next t ∧ AlarmPacketOf s.mode12 s.alarm t.buf ∧
    SameBufBut 4 s t ∧ Completed .ok t ∧ t.status.byte = 0x02#8 ∧
    SameOperands s t ∧ SameResults s t ∧ SameRecords s t ∧ SameLatches s t ∧ SameBus s t ∧ SameRest s t

/-- R166, R170: `APKT_DEC` writes every register of the alarm record from `BUF[0..3]` and changes nothing
else. -/
def Obligations.AlarmPacketDecoded : Prop :=
  ∀ s : State, ∃ t, exec .apktDec s = .next t ∧ AlarmRecordOf s.buf t.alarm ∧ t.time = s.time ∧
    Completed .ok t ∧ t.status.byte = 0x02#8 ∧
    SameOperands s t ∧ SameResults s t ∧ SameBuf s t ∧ SameLatches s t ∧ SameBus s t ∧ SameRest s t

/-- R171: a time record in its source ranges comes back from encode then decode, with an hour triple that
agrees with the authoritative field. -/
def Obligations.TimeRecordRoundTrip : Prop :=
  ∀ s t u : State,
    s.time.sec.toNat ≤ 59 → s.time.min.toNat ≤ 59 → 1 ≤ s.time.dow.toNat → s.time.dow.toNat ≤ 7 →
    1 ≤ s.time.dom.toNat → s.time.dom.toNat ≤ 31 → 1 ≤ s.time.mon.toNat → s.time.mon.toNat ≤ 12 →
    s.time.yr.toNat ≤ 99 →
    (s.mode12 = false → s.time.hr24.toNat ≤ 23) →
    (s.mode12 = true → 1 ≤ s.time.hr12.toNat ∧ s.time.hr12.toNat ≤ 12 ∧
      (s.time.mer = Mer.am ∨ s.time.mer = Mer.pm)) →
    exec .tpktEnc s = .next t → exec .tpktDec t = .next u →
    u.time.sec = s.time.sec ∧ u.time.min = s.time.min ∧ u.time.dow = s.time.dow ∧
    u.time.dom = s.time.dom ∧ u.time.mon = s.time.mon ∧ u.time.yr = s.time.yr ∧
    (s.mode12 = false → u.time.hr24 = s.time.hr24) ∧
    (s.mode12 = true → u.time.hr12 = s.time.hr12 ∧ u.time.mer = s.time.mer)

/-- R172: a wildcard in any field of a record but the year and the meridiem is unchanged by encode then
decode. -/
def Obligations.WildcardFieldsSurvive : Prop :=
  (∀ s t u : State, exec .tpktEnc s = .next t → exec .tpktDec t = .next u →
    (128 ≤ s.time.sec.toNat → u.time.sec = s.time.sec) ∧
    (128 ≤ s.time.min.toNat → u.time.min = s.time.min) ∧
    (s.mode12 = false → 128 ≤ s.time.hr24.toNat → u.time.hr24 = s.time.hr24) ∧
    (s.mode12 = true → 128 ≤ s.time.hr12.toNat → u.time.hr12 = s.time.hr12) ∧
    (128 ≤ s.time.dow.toNat → u.time.dow = s.time.dow) ∧
    (128 ≤ s.time.dom.toNat → u.time.dom = s.time.dom) ∧
    (128 ≤ s.time.mon.toNat → u.time.mon = s.time.mon)) ∧
  (∀ s t u : State, exec .apktEnc s = .next t → exec .apktDec t = .next u →
    (128 ≤ s.alarm.sec.toNat → u.alarm.sec = s.alarm.sec) ∧
    (128 ≤ s.alarm.min.toNat → u.alarm.min = s.alarm.min) ∧
    (s.mode12 = false → 128 ≤ s.alarm.hr24.toNat → u.alarm.hr24 = s.alarm.hr24) ∧
    (s.mode12 = true → 128 ≤ s.alarm.hr12.toNat → u.alarm.hr12 = s.alarm.hr12) ∧
    (128 ≤ s.alarm.dow.toNat → u.alarm.dow = s.alarm.dow))

/-- R140, R97, R169, R212, R214, D37: a command that encodes an hour reads only the authoritative field: what
it leaves does not depend on the other hour fields, whatever they hold. In 12-hour mode the meridiem beside
a wildcard is not read either, and only bits 1:0 of operand C ever are. Run with other values in the hour
fields not read, `HOUR_ENC`, `TPKT_ENC`, `SET_TIME`, `APKT_ENC` and `SET_ALARM` leave the same state but for
those values. That an `UNSPEC` byte is the same in both runs is the model's choice: a draw depends on the
count of draws alone (log 5). -/
def Obligations.UnusedHourFieldsIgnored : Prop :=
  (∀ (s t : State) (a b c : Byte),
    SameUsedHour s.mode12 s.cmdA s.cmdB (s.cmdC.extractLsb' 0 2) a b (c.extractLsb' 0 2) →
    exec .hourEnc s = .next t →
    exec .hourEnc { s with cmdA := a, cmdB := b, cmdC := c } =
      .next { t with cmdA := a, cmdB := b, cmdC := c }) ∧
  (∀ (i : Instr) (s t : State) (x y : Byte) (m : MerCode), i = .tpktEnc ∨ i = .setTime →
    SameUsedHour s.mode12 s.time.hr24 s.time.hr12 s.time.mer x y m → exec i s = .next t →
    exec i { s with time := { s.time with hr24 := x, hr12 := y, mer := m } } =
      .next { t with time := { t.time with hr24 := x, hr12 := y, mer := m } }) ∧
  (∀ (i : Instr) (s t : State) (x y : Byte) (m : MerCode), i = .apktEnc ∨ i = .setAlarm →
    SameUsedHour s.mode12 s.alarm.hr24 s.alarm.hr12 s.alarm.mer x y m → exec i s = .next t →
    exec i { s with alarm := { s.alarm with hr24 := x, hr12 := y, mer := m } } =
      .next { t with alarm := { t.alarm with hr24 := x, hr12 := y, mer := m } })

/-! ## Issuing the bus commands -/

/-- R194, R195, R185: a burst of a legal length is accepted: the operands are latched, `BUSY` = 1,
`PHASE` = `SAVE`, and nothing else changes in the issuing step. -/
def Obligations.BurstOfLegalLengthStarts : Prop :=
  ∀ s : State, s.cmdB.toNat ≤ 128 →
    (∃ t, exec .burstRd s = .next t ∧ Started .rd s.cmdA s.cmdB .none s t ∧ t.status.byte = 0x01#8 ∧
      SameOperands s t ∧ SameResults s t ∧ SameRecords s t ∧ SameBuf s t ∧ SameBus s t ∧ SameRest s t) ∧
    (∃ t, exec .burstWr s = .next t ∧ Started .wr s.cmdA s.cmdB .none s t ∧ t.status.byte = 0x01#8 ∧
      SameOperands s t ∧ SameResults s t ∧ SameRecords s t ∧ SameBuf s t ∧ SameBus s t ∧ SameRest s t)

/-- R232: a burst length above 128 completes in the issuing step with `LEN_RANGE`, the sequencer not
started and `BUF` unchanged; no other command raises it. -/
def Obligations.BurstLengthAbove128Rejected : Prop :=
  ∀ (i : Instr) (s t : State), exec i s = .next t →
    (((i = .burstRd ∨ i = .burstWr) ∧ 128 < s.cmdB.toNat) →
      Completed .lenRange t ∧ t.status.byte = 0x0E#8 ∧
      SameOperands s t ∧ SameResults s t ∧ SameRecords s t ∧ SameBuf s t ∧ SameLatches s t ∧
      SameBus s t ∧ SameRest s t) ∧
    (t.status.result = .lenRange → (i = .burstRd ∨ i = .burstWr) ∧ 128 < s.cmdB.toNat)

/-- R212, R210: `SET_TIME` encodes the time record into `BUF[0..6]` in the issuing step and starts the
write of 7 bytes at 0x00; no other byte or register changes. -/
def Obligations.SetTimeEncodesAndStarts : Prop :=
  ∀ s : State, ∃ t, exec .setTime s = .next t ∧ TimePacketOf s.mode12 s.time t.buf ∧
    SameBufBut 7 s t ∧ Started .wr 0x00#8 7#8 .none s t ∧
    SameOperands s t ∧ SameResults s t ∧ SameRecords s t ∧ SameBus s t ∧ SameRest s t

/-- R213, R210: `GET_TIME` starts the read of 7 bytes at 0x00 with the decode left to FINISH; no byte and no
register changes in the issuing step. -/
def Obligations.GetTimeStarts : Prop :=
  ∀ s : State, ∃ t, exec .getTime s = .next t ∧ Started .rd 0x00#8 7#8 .tdec s t ∧
    SameOperands s t ∧ SameResults s t ∧ SameRecords s t ∧ SameBuf s t ∧ SameBus s t ∧ SameRest s t

/-- R214, R211: `SET_ALARM` of index 0 or 1 encodes the alarm record into `BUF[0..3]` and starts the write
of 4 bytes at 0x07 or 0x0B. -/
def Obligations.SetAlarmEncodesAndStarts : Prop :=
  ∀ s : State, s.cmdA = 0#8 ∨ s.cmdA = 1#8 →
    ∃ t, exec .setAlarm s = .next t ∧ AlarmPacketOf s.mode12 s.alarm t.buf ∧ SameBufBut 4 s t ∧
      Started .wr (if s.cmdA = 0#8 then 0x07#8 else 0x0B#8) 4#8 .none s t ∧
      SameOperands s t ∧ SameResults s t ∧ SameRecords s t ∧ SameBus s t ∧ SameRest s t

/-- R215, R211: `GET_ALARM` of index 0 or 1 starts the read of 4 bytes at 0x07 or 0x0B with the decode left
to FINISH. -/
def Obligations.GetAlarmStarts : Prop :=
  ∀ s : State, s.cmdA = 0#8 ∨ s.cmdA = 1#8 →
    ∃ t, exec .getAlarm s = .next t ∧
      Started .rd (if s.cmdA = 0#8 then 0x07#8 else 0x0B#8) 4#8 .adec s t ∧
      SameOperands s t ∧ SameResults s t ∧ SameRecords s t ∧ SameBuf s t ∧ SameBus s t ∧ SameRest s t

/-- R233, R216: an alarm index other than 0 and 1 completes in the issuing step with `NOOP_BADIDX`;
`SET_ALARM` changes nothing else, `GET_ALARM` clears the alarm record. -/
def Obligations.BadAlarmIndexIsANoOp : Prop :=
  ∀ s : State, s.cmdA ≠ 0#8 → s.cmdA ≠ 1#8 →
    (∃ t, exec .setAlarm s = .next t ∧ Completed .noopBadIdx t ∧ t.status.byte = 0x06#8 ∧
      SameOperands s t ∧ SameResults s t ∧ SameRecords s t ∧ SameBuf s t ∧ SameLatches s t ∧
      SameBus s t ∧ SameRest s t) ∧
    (∃ t, exec .getAlarm s = .next t ∧ Completed .noopBadIdx t ∧ t.status.byte = 0x06#8 ∧
      t.alarm = ⟨0#8, 0#8, 0#8, 0#8, Mer.undef, 0#8⟩ ∧ t.time = s.time ∧
      SameOperands s t ∧ SameResults s t ∧ SameBuf s t ∧ SameLatches s t ∧
      SameBus s t ∧ SameRest s t)

/-! ## The sequencer's steps -/

/-- R186, R187, R191, R192: the framing steps. SAVE samples the bus configuration and installs the engine's;
ASSERT and RELEASE drive the select line; RESTORE installs the sampled configuration, whatever another
bus user left; no other step writes the sampled one. That the platform installs a configuration in the
same step, and that the strobe falls in the next, is the model's choice (log 7, log 8). -/
def Obligations.FrameSaveAssertReleaseRestore : Prop :=
  ∀ s t : State, resetting s = false → step s = .next t →
    (s.nextInput = .sequencer → s.phase = .save →
      t.savedCfg = s.cfgIn ∧ t.cfgOut = Config.engineCfg ∧ t.cfgIn = Config.engineCfg ∧
      t.cfgWe = true ∧ t.phase = .assert ∧
      t.trace = s.trace ++ [.cfgSave s.cfgIn, .cfgSet Config.engineCfg]) ∧
    (s.nextInput = .sequencer → s.phase = .assert →
      t.sel = Config.selActive ∧ t.phase = .addr ∧ t.xReq = s.xReq ∧ t.trace = s.trace ++ [.sel true]) ∧
    (s.nextInput = .sequencer → s.phase = .release →
      t.sel = !Config.selActive ∧ t.phase = .restore ∧ t.trace = s.trace ++ [.sel false]) ∧
    (s.nextInput = .sequencer → s.phase = .restore →
      t.cfgOut = s.savedCfg ∧ t.cfgIn = s.savedCfg ∧ t.cfgWe = true ∧ t.phase = .finish ∧
      t.trace = s.trace ++ [.cfgSet s.savedCfg]) ∧
    (¬ (s.nextInput = .sequencer ∧ s.phase = .save) → t.savedCfg = s.savedCfg) ∧
    (¬ (s.nextInput = .sequencer ∧ (s.phase = .save ∨ s.phase = .restore)) →
      t.cfgWe = false ∧ t.cfgOut = s.cfgOut)

/-- R183, R188: the address phase sends `ADDR | 0x80` for a write and `ADDR` unmodified for a read; on
completion the byte shifted in is discarded, `K` is 0, and the next step is RELEASE when `LEN` is 0. -/
def Obligations.AddressPhaseSendsAddressByte : Prop :=
  ∀ s t : State, resetting s = false → step s = .next t →
    (s.nextInput = .sequencer → s.phase = .addr →
      t.xTx = (if s.opc = .wr then s.addr ||| 0x80#8 else s.addr) ∧ t.txb = t.xTx ∧ t.xReq = true ∧
      t.phase = .addrWait) ∧
    (∀ rx, s.nextInput = .transport rx → s.phase = .addrWait →
      t.xReq = false ∧ t.k = 0#8 ∧ t.trace = s.trace ++ [.xfer s.txb rx] ∧ SameBuf s t ∧
      SameRecords s t ∧ SameResults s t ∧ t.phase = (if s.len = 0#8 then .release else .data))

/-- R189: a read's data phase sends the filler byte; on completion the answer, any byte, is in `BUF[K]`, no
other byte changed, `K` is one more, and after `K` = `LEN` - 1 the next step is RELEASE. -/
def Obligations.ReadDataPhaseStoresAnswer : Prop :=
  ∀ s : State, resetting s = false → s.opc = .rd → s.k.toNat < s.len.toNat → s.len.toNat ≤ 128 →
    (s.nextInput = .sequencer → s.phase = .data →
      ∃ t, step s = .next t ∧ t.xTx = Config.fillByte ∧ t.txb = Config.fillByte ∧ t.xReq = true ∧
        t.phase = .dataWait ∧ t.k = s.k ∧ SameBuf s t) ∧
    (∀ rx, s.nextInput = .transport rx → s.phase = .dataWait →
      ∃ t, step s = .next t ∧ t.buf s.k.toNat = rx ∧
        (∀ a, a ≠ bufAddr s.k.toNat → t.memByte a = s.memByte a) ∧ t.xReq = false ∧
        t.trace = s.trace ++ [.xfer s.txb rx] ∧ t.k.toNat = s.k.toNat + 1 ∧
        t.phase = (if s.k.toNat + 1 = s.len.toNat then .release else .data))

/-- R190: a write's data phase sends `BUF[K]`; on completion the byte shifted in is discarded, `BUF` is as it
was, and `K` is one more. -/
def Obligations.WriteDataPhaseSendsBuffer : Prop :=
  ∀ s : State, resetting s = false → s.opc = .wr → s.k.toNat < s.len.toNat → s.len.toNat ≤ 128 →
    (s.nextInput = .sequencer → s.phase = .data →
      ∃ t, step s = .next t ∧ t.xTx = s.buf s.k.toNat ∧ t.txb = s.buf s.k.toNat ∧ t.xReq = true ∧
        t.phase = .dataWait ∧ t.k = s.k ∧ SameBuf s t) ∧
    (∀ rx, s.nextInput = .transport rx → s.phase = .dataWait →
      ∃ t, step s = .next t ∧ SameBuf s t ∧ t.xReq = false ∧
        t.trace = s.trace ++ [.xfer s.txb rx] ∧ t.k.toNat = s.k.toNat + 1 ∧
        t.phase = (if s.k.toNat + 1 = s.len.toNat then .release else .data))

/-- R193: FINISH does the work of `POST` (nothing, `tpkt_dec`, `apkt_dec`) and completes `OK`. It says nothing
of the 12-hour value and meridiem of a 24-hour-shaped byte of 24..45 (U3; log 15). -/
def Obligations.FinishDoesPostAndCompletes : Prop :=
  ∀ s : State, resetting s = false → s.nextInput = .sequencer → s.phase = .finish →
    ∃ t, step s = .next t ∧ Completed .ok t ∧ SameBuf s t ∧ SameOperands s t ∧ SameResults s t ∧
      SameLatches s t ∧ SameLines s t ∧
      (s.post = .none → SameRecords s t) ∧
      (s.post = .tdec → TimeRecordOf s.buf t.time ∧ t.alarm = s.alarm) ∧
      (s.post = .adec → AlarmRecordOf s.buf t.alarm ∧ t.time = s.time)

/-! ## Whole transactions, every transfer completing when first awaited

That the transport's completion and the sequencer's wait step are one step is the model's reading (log 9), and
that the bus configuration is then the sampled one is the model's reading of the platform's duty (log 7). -/

/-- R184, R194, R197: `BURST_RD` of N bytes, from its issue on, takes 2N + 8 steps, emits exactly the events
of R197 with N + 1 transfers, and leaves the N answers, whatever bytes they are, in `BUF[0..N-1]` and every
other byte as it was. The count of steps is the model's reading of a completion as one step with its wait line
(log 9), and that the bus configuration is then the sampled one rests on the platform's duty (log 7). -/
def Obligations.BurstReadRunsItsTransaction : Prop :=
  ∀ (s : State) (rxa : Byte) (rxs : List Byte) (rest : List Input), Ready s →
    s.inputs = .hostWrite 0x00#8 0x10#8 :: transactionMoves rxa rxs ++ rest →
    s.cmdB.toNat = rxs.length → rxs.length ≤ 128 →
    ∃ t, core.run (2 * rxs.length + 8) s = .next t ∧
      t.trace = s.trace ++ frameEvents s.cfgIn (.xfer s.cmdA rxa :: readTransfers rxs) ∧
      (∀ k, k < rxs.length → some (t.buf k) = rxs[k]?) ∧ SameBufBut rxs.length s t ∧
      SameRecords s t ∧ AfterTransaction s t rest

/-- R184, R195, R197: `BURST_WR` of N bytes, from its issue on, takes 2N + 8 steps, emits exactly the events
of R197, sending `a | 0x80` and then `BUF[0]` .. `BUF[N-1]` in order, and leaves `BUF` as it was. The count of
steps is the model's reading of a completion as one step with its wait line (log 9), and that the bus
configuration is then the sampled one rests on the platform's duty (log 7). -/
def Obligations.BurstWriteRunsItsTransaction : Prop :=
  ∀ (s : State) (rxa : Byte) (rxs : List Byte) (rest : List Input), Ready s →
    s.inputs = .hostWrite 0x00#8 0x11#8 :: transactionMoves rxa rxs ++ rest →
    s.cmdB.toNat = rxs.length → rxs.length ≤ 128 →
    ∃ t, core.run (2 * rxs.length + 8) s = .next t ∧
      t.trace = s.trace ++ frameEvents s.cfgIn
        (.xfer (s.cmdA ||| 0x80#8) rxa :: writeTransfers s.buf rxs) ∧
      SameBuf s t ∧ SameRecords s t ∧ AfterTransaction s t rest

/-- R212, R184: `SET_TIME` sends 0x80 and then the seven bytes of the encoded time record. The count of steps
is the model's reading of a completion as one step with its wait line (log 9), and that the bus configuration
is then the sampled one rests on the platform's duty (log 7). -/
def Obligations.SetTimeRunsItsTransaction : Prop :=
  ∀ (s : State) (rxa : Byte) (rxs : List Byte) (rest : List Input), Ready s →
    s.inputs = .hostWrite 0x00#8 0x18#8 :: transactionMoves rxa rxs ++ rest → rxs.length = 7 →
    ∃ t, core.run 22 s = .next t ∧
      t.trace = s.trace ++ frameEvents s.cfgIn (.xfer 0x80#8 rxa :: writeTransfers t.buf rxs) ∧
      TimePacketOf s.mode12 s.time t.buf ∧ SameBufBut 7 s t ∧ SameRecords s t ∧
      AfterTransaction s t rest

/-- R213, R184: `GET_TIME` sends 0x00 and seven fillers, keeps the raw answers in `BUF[0..6]`, and leaves in
the time record what they decode to. The count of steps is the model's reading of a completion as one step
with its wait line (log 9), and that the bus configuration is then the sampled one rests on the platform's
duty (log 7). It leaves the 12-hour value and meridiem of an hour byte of 24..45 free (U3; log 15). -/
def Obligations.GetTimeRunsItsTransaction : Prop :=
  ∀ (s : State) (rxa : Byte) (rxs : List Byte) (rest : List Input), Ready s →
    s.inputs = .hostWrite 0x00#8 0x19#8 :: transactionMoves rxa rxs ++ rest → rxs.length = 7 →
    ∃ t, core.run 22 s = .next t ∧
      t.trace = s.trace ++ frameEvents s.cfgIn (.xfer 0x00#8 rxa :: readTransfers rxs) ∧
      (∀ k, k < 7 → some (t.buf k) = rxs[k]?) ∧ SameBufBut 7 s t ∧
      TimeRecordOf t.buf t.time ∧ t.alarm = s.alarm ∧ AfterTransaction s t rest

/-- R214, R211, R184: `SET_ALARM` of index 0 or 1 sends 0x87 or 0x8B and then the four bytes of the encoded
alarm record. The count of steps is the model's reading of a completion as one step with its wait line (log
9), and that the bus configuration is then the sampled one rests on the platform's duty (log 7). -/
def Obligations.SetAlarmRunsItsTransaction : Prop :=
  ∀ (s : State) (rxa : Byte) (rxs : List Byte) (rest : List Input), Ready s →
    s.inputs = .hostWrite 0x00#8 0x1A#8 :: transactionMoves rxa rxs ++ rest → rxs.length = 4 →
    s.cmdA = 0#8 ∨ s.cmdA = 1#8 →
    ∃ t, core.run 16 s = .next t ∧
      t.trace = s.trace ++ frameEvents s.cfgIn
        (.xfer (if s.cmdA = 0#8 then 0x87#8 else 0x8B#8) rxa :: writeTransfers t.buf rxs) ∧
      AlarmPacketOf s.mode12 s.alarm t.buf ∧ SameBufBut 4 s t ∧ SameRecords s t ∧
      AfterTransaction s t rest

/-- R215, R211, R184: `GET_ALARM` of index 0 or 1 sends 0x07 or 0x0B and four fillers, keeps the raw answers
in `BUF[0..3]`, and leaves in the alarm record what they decode to. The count of steps is the model's reading
of a completion as one step with its wait line (log 9), and that the bus configuration is then the sampled one
rests on the platform's duty (log 7). It leaves the 12-hour value and meridiem of an hour byte of 24..45 free
(U3; log 15). -/
def Obligations.GetAlarmRunsItsTransaction : Prop :=
  ∀ (s : State) (rxa : Byte) (rxs : List Byte) (rest : List Input), Ready s →
    s.inputs = .hostWrite 0x00#8 0x1B#8 :: transactionMoves rxa rxs ++ rest → rxs.length = 4 →
    s.cmdA = 0#8 ∨ s.cmdA = 1#8 →
    ∃ t, core.run 16 s = .next t ∧
      t.trace = s.trace ++ frameEvents s.cfgIn
        (.xfer (if s.cmdA = 0#8 then 0x07#8 else 0x0B#8) rxa :: readTransfers rxs) ∧
      (∀ k, k < 4 → some (t.buf k) = rxs[k]?) ∧ SameBufBut 4 s t ∧
      AlarmRecordOf t.buf t.alarm ∧ t.time = s.time ∧ AfterTransaction s t rest

/-! ## The host port -/

/-- R38: while `BUSY` = 1 a host write changes nothing, whatever its address and value, and a host read
returns the register's current contents. The strobe's fall and the read port are the model's choice
(log 8, log 12). -/
def Obligations.BusyIgnoresHostWrites : Prop :=
  ∀ s : State, s.rst = false → s.status.busy = true →
    (∀ a v, s.nextInput = .hostWrite a v → step s = .next (before s)) ∧
    (∀ a, s.nextInput = .hostRead a → ∃ t, step s = .next t ∧ t.hRdata = s.hostByte a)

/-- R20, R25 to R33, R38, R39: a host read, at any time, shows on the read port the register its address
names, row by row of the register map, and changes no other state; reserved addresses and `CMD_OP` read 0,
and the reserved bits of `STATUS`, `CFG`, `RESM`, `T_MER`, `A_MER` too. The read port that keeps the byte
and the strobe's fall are the model's choice (log 12, log 8). -/
def Obligations.HostReadsHaveNoSideEffect : Prop :=
  (∀ s : State, ControlMap s ∧ TimeMap s ∧ AlarmMap s ∧ BufMap s) ∧
  (∀ (s : State) (a : Byte), (0x09 ≤ a.toNat ∧ a.toNat ≤ 0x0F) ∨ (0x19 ≤ a.toNat ∧ a.toNat ≤ 0x1F) ∨
    (0x26 ≤ a.toNat ∧ a.toNat ≤ 0x7F) → s.hostByte a = 0x00#8) ∧
  (∀ (s : State) (a : Byte), s.rst = false → s.nextInput = .hostRead a →
    step s = .next { before s with hRdata := s.hostByte a })

/-- R41, R20, R33, R34: a host write that is not ignored and is no command stores its byte in the one
register its address names, if the host may write it (bits 1:0 only for a meridiem); every other host
address reads as before, and nothing outside the register space changes. -/
def Obligations.HostWriteStoresInOneRegister : Prop :=
  ∀ (s : State) (a v : Byte), Ready s → s.nextInput = .hostWrite a v → a ≠ 0x00#8 →
    ∃ t, step s = .next t ∧
      t.hostByte a = (if hostWritable a.toNat = false then s.hostByte a
        else if a = 0x14#8 ∨ a = 0x24#8 then v &&& 0x03#8 else v) ∧
      (∀ b : Byte, b ≠ a → t.hostByte b = s.hostByte b) ∧
      t.phase = s.phase ∧ SameLatches s t ∧ SameLines s t ∧ SameRest (before s) t

/-! ## Reset -/

/-- R260: the values R260 gives, in the state right after reset. -/
def Obligations.ResetStateValues : Prop :=
  State.reset.hostByte 0x04#8 = 0x00#8 ∧ State.reset.mode12 = State.reset.strap ∧
    State.reset.phase = .idle ∧ State.reset.sel = (!Config.selActive) ∧ State.reset.xReq = false ∧
    State.reset.cfgWe = false ∧ State.reset.hostByte 0x00#8 = 0x00#8

/-- R260: while `rst` = 1, and in the step it falls to 0, whatever the block was doing and whatever move is
next, the block enters the reset state, with `MODE12` sampled from `mode12_strap`. That every reset step
samples the strap, and that the step in which `rst` rises is a reset step already, are the model's reading
(log 10); that a pin moves in a step of its own is its choice (log 1). -/
def Obligations.ResetWinsOverEveryMove : Prop :=
  ∀ s : State, resetting s = true →
    ∃ t, step s = .next t ∧ t.status = ⟨false, false, .ok⟩ ∧ t.status.byte = 0x00#8 ∧
      t.mode12 = t.strap ∧ t.strap = (s.setPins s.nextInput).strap ∧ t.phase = .idle ∧
      t.sel = (!Config.selActive) ∧ t.xReq = false ∧ t.cfgWe = false ∧
      t.rst = (s.setPins s.nextInput).rst

/-- R261: a reset that arrives while a transaction runs abandons the transfer, idles the select line, does not
restore the bus configuration, and never completes the command; an `x_done` that comes later is ignored. That
the step in which `rst` rises is a reset step already is the model's reading (log 10). That the configuration
is then exactly the one before is the model's choice (log 7; U14). -/
def Obligations.ResetAbandonsTransaction : Prop :=
  ∀ (s : State) (rest : List Input), s.phase ≠ .idle → s.inputs = .rst true :: rest →
    ∃ t, step s = .next t ∧ t.xReq = false ∧ t.sel = (!Config.selActive) ∧ t.cfgIn = s.cfgIn ∧
      t.status.done = false ∧ t.status.busy = false ∧ t.phase = .idle ∧
      (∀ (rx : Byte) (more : List Input),
        step { t with rst := false, inputs := .transport rx :: more } =
          .next { t with rst := false, inputs := more })

/-- R262: `MODE12` is the level of `mode12_strap` at the last reset: no step outside reset changes it, the
strap's own move included. That a reset step, each of them, leaves the level the strap then has is the
model's reading (log 10), the second clause. -/
def Obligations.ModeChangesOnlyInReset : Prop :=
  ∀ s t : State, step s = .next t →
    (resetting s = false → t.mode12 = s.mode12) ∧ (resetting s = true → t.mode12 = t.strap)

/-! ## Rules of the whole machine -/

/-- The invariant holds right after reset. It rests on no value of a register the spec leaves unspecified
(log 3). -/
def Obligations.ResetKeepsInvariant : Prop := Inv State.reset

/-- R13, R25, R32, R35, R36, R181, R184, R186, R192, R213, R215: from a state that keeps the invariant, every
step whose move R13 allows answers a next state, which keeps it; the one thing the machine stops at is
another bus user's move while `PHASE` is not `IDLE`, which U10 has a model refuse (log 11). That the bus
then holds the engine's configuration from SAVE to RESTORE rests on the platform's duty (log 7). -/
def Obligations.EveryStepGoesOnAndKeepsInvariant : Prop :=
  ∀ s : State, Inv s →
    (busDuty s → ∃ t, step s = .next t ∧ Inv t) ∧
    (¬ busDuty s → step s = .refused .busUserInTransaction)

/-- R90, R91, R265: a command is either complete after its issuing step or has started the sequencer; the
codec and packet commands always complete at once with `OK`. -/
def Obligations.CommandCompletesOrStarts : Prop :=
  ∀ (i : Instr) (s t : State), exec i s = .next t →
    ((∃ code, Completed code t ∧ SameLatches s t) ∨
      (t.status = ⟨true, false, .ok⟩ ∧ t.phase = .save ∧ t.len.toNat ≤ 128)) ∧
    (i ≠ .burstRd → i ≠ .burstWr → i ≠ .setTime → i ≠ .getTime → i ≠ .setAlarm → i ≠ .getAlarm →
      Completed .ok t)

/-- R22, R23, R24, D36: no command writes an operand register, in its issuing step or later: a step changes
one only by a host write to it that is not ignored, or in reset. -/
def Obligations.OperandRegistersKept : Prop :=
  ∀ s t : State, resetting s = false → step s = .next t →
    (t.cmdA ≠ s.cmdA → ∃ v, s.nextInput = .hostWrite 0x01#8 v ∧ s.status.busy = false) ∧
    (t.cmdB ≠ s.cmdB → ∃ v, s.nextInput = .hostWrite 0x02#8 v ∧ s.status.busy = false) ∧
    (t.cmdC ≠ s.cmdC → ∃ v, s.nextInput = .hostWrite 0x03#8 v ∧ s.status.busy = false)

/-- R27, R28, R29: `RES0` is written by the BCD and hour commands only, `RES1` and `RESM` by `HOUR_DEC` only;
no other step outside reset changes a result register. -/
def Obligations.ResultRegistersKept : Prop :=
  ∀ s t : State, resetting s = false → step s = .next t →
    (t.res0 ≠ s.res0 → s.status.busy = false ∧ ∃ v i, s.nextInput = .hostWrite 0x00#8 v ∧
      decode v = .ok i ∧ i ∈ [.bcdEnc, .bcdDec, .bcd8Enc, .bcd8Dec, .hourEnc, .hourDec]) ∧
    (t.res1 ≠ s.res1 ∨ t.resM ≠ s.resM →
      s.status.busy = false ∧ s.nextInput = .hostWrite 0x00#8 0x06#8)

/-- R30, R31, R213, R215: a record changes only by a host write to one of its registers, by its packet decode
command, by FINISH of the read that decodes into it, in reset, and the alarm record by `GET_ALARM` of a
bad index too; so a record keeps its values while a `GET_TIME` or `GET_ALARM` runs, until FINISH. -/
def Obligations.RecordsChangeOnlyByTheirWriters : Prop :=
  ∀ s t : State, resetting s = false → step s = .next t →
    (t.time ≠ s.time →
      (s.nextInput = .sequencer ∧ s.phase = .finish ∧ s.post = .tdec) ∨
      (s.status.busy = false ∧ (s.nextInput = .hostWrite 0x00#8 0x09#8 ∨
        ∃ a v, s.nextInput = .hostWrite a v ∧ 0x10 ≤ a.toNat ∧ a.toNat ≤ 0x18))) ∧
    (t.alarm ≠ s.alarm →
      (s.nextInput = .sequencer ∧ s.phase = .finish ∧ s.post = .adec) ∨
      (s.status.busy = false ∧ (s.nextInput = .hostWrite 0x00#8 0x0B#8 ∨
        (s.nextInput = .hostWrite 0x00#8 0x1B#8 ∧ s.cmdA ≠ 0#8 ∧ s.cmdA ≠ 1#8) ∨
        ∃ a v, s.nextInput = .hostWrite a v ∧ 0x20 ≤ a.toNat ∧ a.toNat ≤ 0x25)))

/-- R25, R238: outside reset, `STATUS` changes only when a command is accepted and in FINISH: the completion
record stays until the next accepted command. -/
def Obligations.StatusChangesOnlyAtIssueAndFinish : Prop :=
  ∀ s t : State, resetting s = false → step s = .next t → t.status ≠ s.status →
    (s.status.busy = false ∧ ∃ v, s.nextInput = .hostWrite 0x00#8 v) ∨
    (s.nextInput = .sequencer ∧ s.phase = .finish)

/-- R181: outside reset, `sel` is driven to `P_SEL_ACTIVE` in ASSERT, to its complement in RELEASE, and
changes in no other step. -/
def Obligations.SelectLineChangesOnlyInAssertAndRelease : Prop :=
  ∀ s t : State, resetting s = false → step s = .next t →
    t.sel = (if s.nextInput = .sequencer ∧ s.phase = .assert then Config.selActive
      else if s.nextInput = .sequencer ∧ s.phase = .release then !Config.selActive else s.sel)

/-- R197, R74: outside reset, a step appends to the event history exactly the events of the line of R184 it
is, and no other step appends any. -/
def Obligations.EventsOnlyFromTheLinesOfATransaction : Prop :=
  ∀ s t : State, resetting s = false → step s = .next t →
    t.trace = s.trace ++
      (match s.nextInput, s.phase with
        | .sequencer, .save => [.cfgSave s.cfgIn, .cfgSet Config.engineCfg]
        | .sequencer, .assert => [.sel true]
        | .transport rx, .addrWait => [.xfer s.txb rx]
        | .transport rx, .dataWait => [.xfer s.txb rx]
        | .sequencer, .release => [.sel false]
        | .sequencer, .restore => [.cfgSet s.savedCfg]
        | _, _ => [])

/-- R196, R235: while the transport does not complete the transfer in flight and no reset comes, whatever the
moves R13 allows in a transaction are and however many they are, the sequencer stays in its wait phase:
`BUSY` stays 1, `DONE` stays 0, the select line stays asserted, the bus configuration stays
`P_ENGINE_CFG`, `x_req` and `x_tx` stay, no event is emitted, no register or byte of `BUF` changes. That the
bus holds what was installed rests on the platform's duty (log 7). -/
def Obligations.UnansweredTransferHangs : Prop :=
  ∀ (s : State) (ms rest : List Input), Inv s → s.rst = false → waiting s.phase = true →
    s.inputs = ms ++ rest → (∀ m ∈ ms, ∀ rx, m ≠ .transport rx) → (∀ m ∈ ms, ∀ b, m ≠ .rst b) →
    (∀ m ∈ ms, ∀ c, m ≠ .busUser c) →
    ∃ t, core.run ms.length s = .next t ∧ t.phase = s.phase ∧ t.status.byte = 0x01#8 ∧
      t.sel = Config.selActive ∧ t.xReq = true ∧ t.xTx = s.xTx ∧ t.trace = s.trace ∧
      SameLatches s t ∧ SameOperands s t ∧ SameResults s t ∧ SameRecords s t ∧ SameBuf s t ∧
      t.cfgIn = Config.engineCfg ∧ t.inputs = rest

/-- R36, R13, R269: outside a wait phase `x_done` is ignored; the strap's move changes the level of its pin and
nothing else; another bus user's move while `PHASE` = `IDLE` changes the bus configuration and nothing
else, and while it is not `IDLE` it is refused, as U10 has a model do (log 11). That a pin moves in a step of
its own, and the strobe's fall, are the model's choice (log 1, log 8). -/
def Obligations.StrayPinMovesChangeOnlyTheirPin : Prop :=
  ∀ s : State, s.rst = false →
    (∀ rx, s.nextInput = .transport rx → waiting s.phase = false → step s = .next (before s)) ∧
    (∀ c, s.nextInput = .busUser c →
      (s.phase = .idle → step s = .next { before s with cfgIn := c }) ∧
      (s.phase ≠ .idle → step s = .refused .busUserInTransaction)) ∧
    (∀ b, s.nextInput = .strap b → step s = .next { before s with strap := b })

/-- R40, D35: under the strict reading of R40 no outcome depends on what a register holds that was not
written since reset, of R20 and of R35, nor on the ports R260 leaves unspecified and the read port. Two
states that agree on all but such registers take strict steps to states that again agree on all but such
registers; so the registers' values at reset (log 3) and the unwritten bytes of `BUF` (log 4) have no effect
on a run the strict machine does not stop. That an `UNSPEC` result is the same in both is the model's
choice: a draw depends on the count of draws alone (log 5). -/
def Obligations.StrictRunsIgnoreUnwrittenRegisters : Prop :=
  ∀ (s t s' : State) (w w' : List UnspecReg), Agree w s t → Tracked.step ⟨s, w⟩ = .next ⟨s', w'⟩ →
    ∃ t', Tracked.step ⟨t, w⟩ = .next ⟨t', w'⟩ ∧ Agree w' s' t'

/-- R40, R184, R185: the sequencer writes each of its latches before it reads it. Right after reset, and after
every strict step from a state in which they are so, the latches are written in every phase that reads
them; and the strict machine then stops at no latch: what it stops at is a read
of the host register space. -/
def Obligations.LatchesAreWrittenBeforeTheyAreRead : Prop :=
  Tracked.reset.LatchesWritten ∧
  ∀ t : Tracked, t.LatchesWritten →
    (∀ t', t.step = .next t' → t'.LatchesWritten) ∧
    (∀ r, t.step = .fault (.unspecRead r) → ∃ a, r = .host a)
end

