-- ==== Sys2Proof/Laws/State.lean ====
section
/-! SUPPORT. What each shared operation does to each field of the state: one lemma per field per operation,
true by unfolding, so that a proof need not unfold an operation. -/

namespace Sys2Proof
namespace Machine
namespace State

/-! ### `dropStrobe` -/

@[simp] theorem dropStrobe_cmdA (s : State) : (s.dropStrobe).cmdA = s.cmdA := rfl
@[simp] theorem dropStrobe_cmdB (s : State) : (s.dropStrobe).cmdB = s.cmdB := rfl
@[simp] theorem dropStrobe_cmdC (s : State) : (s.dropStrobe).cmdC = s.cmdC := rfl
@[simp] theorem dropStrobe_status (s : State) : (s.dropStrobe).status = s.status := rfl
@[simp] theorem dropStrobe_mode12 (s : State) : (s.dropStrobe).mode12 = s.mode12 := rfl
@[simp] theorem dropStrobe_res0 (s : State) : (s.dropStrobe).res0 = s.res0 := rfl
@[simp] theorem dropStrobe_res1 (s : State) : (s.dropStrobe).res1 = s.res1 := rfl
@[simp] theorem dropStrobe_resM (s : State) : (s.dropStrobe).resM = s.resM := rfl
@[simp] theorem dropStrobe_time (s : State) : (s.dropStrobe).time = s.time := rfl
@[simp] theorem dropStrobe_alarm (s : State) : (s.dropStrobe).alarm = s.alarm := rfl
@[simp] theorem dropStrobe_mem (s : State) : (s.dropStrobe).mem = s.mem := rfl
@[simp] theorem dropStrobe_phase (s : State) : (s.dropStrobe).phase = s.phase := rfl
@[simp] theorem dropStrobe_opc (s : State) : (s.dropStrobe).opc = s.opc := rfl
@[simp] theorem dropStrobe_addr (s : State) : (s.dropStrobe).addr = s.addr := rfl
@[simp] theorem dropStrobe_len (s : State) : (s.dropStrobe).len = s.len := rfl
@[simp] theorem dropStrobe_k (s : State) : (s.dropStrobe).k = s.k := rfl
@[simp] theorem dropStrobe_post (s : State) : (s.dropStrobe).post = s.post := rfl
@[simp] theorem dropStrobe_savedCfg (s : State) : (s.dropStrobe).savedCfg = s.savedCfg := rfl
@[simp] theorem dropStrobe_txb (s : State) : (s.dropStrobe).txb = s.txb := rfl
@[simp] theorem dropStrobe_xReq (s : State) : (s.dropStrobe).xReq = s.xReq := rfl
@[simp] theorem dropStrobe_xTx (s : State) : (s.dropStrobe).xTx = s.xTx := rfl
@[simp] theorem dropStrobe_sel (s : State) : (s.dropStrobe).sel = s.sel := rfl
@[simp] theorem dropStrobe_cfgOut (s : State) : (s.dropStrobe).cfgOut = s.cfgOut := rfl
@[simp] theorem dropStrobe_cfgWe (s : State) : (s.dropStrobe).cfgWe = false := rfl
@[simp] theorem dropStrobe_hRdata (s : State) : (s.dropStrobe).hRdata = s.hRdata := rfl
@[simp] theorem dropStrobe_cfgIn (s : State) : (s.dropStrobe).cfgIn = s.cfgIn := rfl
@[simp] theorem dropStrobe_strap (s : State) : (s.dropStrobe).strap = s.strap := rfl
@[simp] theorem dropStrobe_rst (s : State) : (s.dropStrobe).rst = s.rst := rfl
@[simp] theorem dropStrobe_inputs (s : State) : (s.dropStrobe).inputs = s.inputs := rfl
@[simp] theorem dropStrobe_trace (s : State) : (s.dropStrobe).trace = s.trace := rfl
@[simp] theorem dropStrobe_draws (s : State) : (s.dropStrobe).draws = s.draws := rfl
@[simp] theorem dropStrobe_resets (s : State) : (s.dropStrobe).resets = s.resets := rfl

/-! ### `popInput` -/

@[simp] theorem popInput_cmdA (s : State) : (s.popInput).cmdA = s.cmdA := rfl
@[simp] theorem popInput_cmdB (s : State) : (s.popInput).cmdB = s.cmdB := rfl
@[simp] theorem popInput_cmdC (s : State) : (s.popInput).cmdC = s.cmdC := rfl
@[simp] theorem popInput_status (s : State) : (s.popInput).status = s.status := rfl
@[simp] theorem popInput_mode12 (s : State) : (s.popInput).mode12 = s.mode12 := rfl
@[simp] theorem popInput_res0 (s : State) : (s.popInput).res0 = s.res0 := rfl
@[simp] theorem popInput_res1 (s : State) : (s.popInput).res1 = s.res1 := rfl
@[simp] theorem popInput_resM (s : State) : (s.popInput).resM = s.resM := rfl
@[simp] theorem popInput_time (s : State) : (s.popInput).time = s.time := rfl
@[simp] theorem popInput_alarm (s : State) : (s.popInput).alarm = s.alarm := rfl
@[simp] theorem popInput_mem (s : State) : (s.popInput).mem = s.mem := rfl
@[simp] theorem popInput_phase (s : State) : (s.popInput).phase = s.phase := rfl
@[simp] theorem popInput_opc (s : State) : (s.popInput).opc = s.opc := rfl
@[simp] theorem popInput_addr (s : State) : (s.popInput).addr = s.addr := rfl
@[simp] theorem popInput_len (s : State) : (s.popInput).len = s.len := rfl
@[simp] theorem popInput_k (s : State) : (s.popInput).k = s.k := rfl
@[simp] theorem popInput_post (s : State) : (s.popInput).post = s.post := rfl
@[simp] theorem popInput_savedCfg (s : State) : (s.popInput).savedCfg = s.savedCfg := rfl
@[simp] theorem popInput_txb (s : State) : (s.popInput).txb = s.txb := rfl
@[simp] theorem popInput_xReq (s : State) : (s.popInput).xReq = s.xReq := rfl
@[simp] theorem popInput_xTx (s : State) : (s.popInput).xTx = s.xTx := rfl
@[simp] theorem popInput_sel (s : State) : (s.popInput).sel = s.sel := rfl
@[simp] theorem popInput_cfgOut (s : State) : (s.popInput).cfgOut = s.cfgOut := rfl
@[simp] theorem popInput_cfgWe (s : State) : (s.popInput).cfgWe = s.cfgWe := rfl
@[simp] theorem popInput_hRdata (s : State) : (s.popInput).hRdata = s.hRdata := rfl
@[simp] theorem popInput_cfgIn (s : State) : (s.popInput).cfgIn = s.cfgIn := rfl
@[simp] theorem popInput_strap (s : State) : (s.popInput).strap = s.strap := rfl
@[simp] theorem popInput_rst (s : State) : (s.popInput).rst = s.rst := rfl
@[simp] theorem popInput_inputs (s : State) : (s.popInput).inputs = s.inputs.tail := rfl
@[simp] theorem popInput_trace (s : State) : (s.popInput).trace = s.trace := rfl
@[simp] theorem popInput_draws (s : State) : (s.popInput).draws = s.draws := rfl
@[simp] theorem popInput_resets (s : State) : (s.popInput).resets = s.resets := rfl

/-! ### `accept` -/

@[simp] theorem accept_cmdA (s : State) : (s.accept).cmdA = s.cmdA := rfl
@[simp] theorem accept_cmdB (s : State) : (s.accept).cmdB = s.cmdB := rfl
@[simp] theorem accept_cmdC (s : State) : (s.accept).cmdC = s.cmdC := rfl
@[simp] theorem accept_status (s : State) : (s.accept).status = s.status.accepted := rfl
@[simp] theorem accept_mode12 (s : State) : (s.accept).mode12 = s.mode12 := rfl
@[simp] theorem accept_res0 (s : State) : (s.accept).res0 = s.res0 := rfl
@[simp] theorem accept_res1 (s : State) : (s.accept).res1 = s.res1 := rfl
@[simp] theorem accept_resM (s : State) : (s.accept).resM = s.resM := rfl
@[simp] theorem accept_time (s : State) : (s.accept).time = s.time := rfl
@[simp] theorem accept_alarm (s : State) : (s.accept).alarm = s.alarm := rfl
@[simp] theorem accept_mem (s : State) : (s.accept).mem = s.mem := rfl
@[simp] theorem accept_phase (s : State) : (s.accept).phase = s.phase := rfl
@[simp] theorem accept_opc (s : State) : (s.accept).opc = s.opc := rfl
@[simp] theorem accept_addr (s : State) : (s.accept).addr = s.addr := rfl
@[simp] theorem accept_len (s : State) : (s.accept).len = s.len := rfl
@[simp] theorem accept_k (s : State) : (s.accept).k = s.k := rfl
@[simp] theorem accept_post (s : State) : (s.accept).post = s.post := rfl
@[simp] theorem accept_savedCfg (s : State) : (s.accept).savedCfg = s.savedCfg := rfl
@[simp] theorem accept_txb (s : State) : (s.accept).txb = s.txb := rfl
@[simp] theorem accept_xReq (s : State) : (s.accept).xReq = s.xReq := rfl
@[simp] theorem accept_xTx (s : State) : (s.accept).xTx = s.xTx := rfl
@[simp] theorem accept_sel (s : State) : (s.accept).sel = s.sel := rfl
@[simp] theorem accept_cfgOut (s : State) : (s.accept).cfgOut = s.cfgOut := rfl
@[simp] theorem accept_cfgWe (s : State) : (s.accept).cfgWe = s.cfgWe := rfl
@[simp] theorem accept_hRdata (s : State) : (s.accept).hRdata = s.hRdata := rfl
@[simp] theorem accept_cfgIn (s : State) : (s.accept).cfgIn = s.cfgIn := rfl
@[simp] theorem accept_strap (s : State) : (s.accept).strap = s.strap := rfl
@[simp] theorem accept_rst (s : State) : (s.accept).rst = s.rst := rfl
@[simp] theorem accept_inputs (s : State) : (s.accept).inputs = s.inputs := rfl
@[simp] theorem accept_trace (s : State) : (s.accept).trace = s.trace := rfl
@[simp] theorem accept_draws (s : State) : (s.accept).draws = s.draws := rfl
@[simp] theorem accept_resets (s : State) : (s.accept).resets = s.resets := rfl

/-! ### `complete` -/

@[simp] theorem complete_cmdA (s : State) (r : ResultCode) : (s.complete r).cmdA = s.cmdA := rfl
@[simp] theorem complete_cmdB (s : State) (r : ResultCode) : (s.complete r).cmdB = s.cmdB := rfl
@[simp] theorem complete_cmdC (s : State) (r : ResultCode) : (s.complete r).cmdC = s.cmdC := rfl
@[simp] theorem complete_status (s : State) (r : ResultCode) : (s.complete r).status = .completed r := rfl
@[simp] theorem complete_mode12 (s : State) (r : ResultCode) : (s.complete r).mode12 = s.mode12 := rfl
@[simp] theorem complete_res0 (s : State) (r : ResultCode) : (s.complete r).res0 = s.res0 := rfl
@[simp] theorem complete_res1 (s : State) (r : ResultCode) : (s.complete r).res1 = s.res1 := rfl
@[simp] theorem complete_resM (s : State) (r : ResultCode) : (s.complete r).resM = s.resM := rfl
@[simp] theorem complete_time (s : State) (r : ResultCode) : (s.complete r).time = s.time := rfl
@[simp] theorem complete_alarm (s : State) (r : ResultCode) : (s.complete r).alarm = s.alarm := rfl
@[simp] theorem complete_mem (s : State) (r : ResultCode) : (s.complete r).mem = s.mem := rfl
@[simp] theorem complete_phase (s : State) (r : ResultCode) : (s.complete r).phase = .idle := rfl
@[simp] theorem complete_opc (s : State) (r : ResultCode) : (s.complete r).opc = s.opc := rfl
@[simp] theorem complete_addr (s : State) (r : ResultCode) : (s.complete r).addr = s.addr := rfl
@[simp] theorem complete_len (s : State) (r : ResultCode) : (s.complete r).len = s.len := rfl
@[simp] theorem complete_k (s : State) (r : ResultCode) : (s.complete r).k = s.k := rfl
@[simp] theorem complete_post (s : State) (r : ResultCode) : (s.complete r).post = s.post := rfl
@[simp] theorem complete_savedCfg (s : State) (r : ResultCode) : (s.complete r).savedCfg = s.savedCfg := rfl
@[simp] theorem complete_txb (s : State) (r : ResultCode) : (s.complete r).txb = s.txb := rfl
@[simp] theorem complete_xReq (s : State) (r : ResultCode) : (s.complete r).xReq = s.xReq := rfl
@[simp] theorem complete_xTx (s : State) (r : ResultCode) : (s.complete r).xTx = s.xTx := rfl
@[simp] theorem complete_sel (s : State) (r : ResultCode) : (s.complete r).sel = s.sel := rfl
@[simp] theorem complete_cfgOut (s : State) (r : ResultCode) : (s.complete r).cfgOut = s.cfgOut := rfl
@[simp] theorem complete_cfgWe (s : State) (r : ResultCode) : (s.complete r).cfgWe = s.cfgWe := rfl
@[simp] theorem complete_hRdata (s : State) (r : ResultCode) : (s.complete r).hRdata = s.hRdata := rfl
@[simp] theorem complete_cfgIn (s : State) (r : ResultCode) : (s.complete r).cfgIn = s.cfgIn := rfl
@[simp] theorem complete_strap (s : State) (r : ResultCode) : (s.complete r).strap = s.strap := rfl
@[simp] theorem complete_rst (s : State) (r : ResultCode) : (s.complete r).rst = s.rst := rfl
@[simp] theorem complete_inputs (s : State) (r : ResultCode) : (s.complete r).inputs = s.inputs := rfl
@[simp] theorem complete_trace (s : State) (r : ResultCode) : (s.complete r).trace = s.trace := rfl
@[simp] theorem complete_draws (s : State) (r : ResultCode) : (s.complete r).draws = s.draws := rfl
@[simp] theorem complete_resets (s : State) (r : ResultCode) : (s.complete r).resets = s.resets := rfl

/-! ### `goto` -/

@[simp] theorem goto_cmdA (s : State) (p : Phase) : (s.goto p).cmdA = s.cmdA := rfl
@[simp] theorem goto_cmdB (s : State) (p : Phase) : (s.goto p).cmdB = s.cmdB := rfl
@[simp] theorem goto_cmdC (s : State) (p : Phase) : (s.goto p).cmdC = s.cmdC := rfl
@[simp] theorem goto_status (s : State) (p : Phase) : (s.goto p).status = s.status := rfl
@[simp] theorem goto_mode12 (s : State) (p : Phase) : (s.goto p).mode12 = s.mode12 := rfl
@[simp] theorem goto_res0 (s : State) (p : Phase) : (s.goto p).res0 = s.res0 := rfl
@[simp] theorem goto_res1 (s : State) (p : Phase) : (s.goto p).res1 = s.res1 := rfl
@[simp] theorem goto_resM (s : State) (p : Phase) : (s.goto p).resM = s.resM := rfl
@[simp] theorem goto_time (s : State) (p : Phase) : (s.goto p).time = s.time := rfl
@[simp] theorem goto_alarm (s : State) (p : Phase) : (s.goto p).alarm = s.alarm := rfl
@[simp] theorem goto_mem (s : State) (p : Phase) : (s.goto p).mem = s.mem := rfl
@[simp] theorem goto_phase (s : State) (p : Phase) : (s.goto p).phase = p := rfl
@[simp] theorem goto_opc (s : State) (p : Phase) : (s.goto p).opc = s.opc := rfl
@[simp] theorem goto_addr (s : State) (p : Phase) : (s.goto p).addr = s.addr := rfl
@[simp] theorem goto_len (s : State) (p : Phase) : (s.goto p).len = s.len := rfl
@[simp] theorem goto_k (s : State) (p : Phase) : (s.goto p).k = s.k := rfl
@[simp] theorem goto_post (s : State) (p : Phase) : (s.goto p).post = s.post := rfl
@[simp] theorem goto_savedCfg (s : State) (p : Phase) : (s.goto p).savedCfg = s.savedCfg := rfl
@[simp] theorem goto_txb (s : State) (p : Phase) : (s.goto p).txb = s.txb := rfl
@[simp] theorem goto_xReq (s : State) (p : Phase) : (s.goto p).xReq = s.xReq := rfl
@[simp] theorem goto_xTx (s : State) (p : Phase) : (s.goto p).xTx = s.xTx := rfl
@[simp] theorem goto_sel (s : State) (p : Phase) : (s.goto p).sel = s.sel := rfl
@[simp] theorem goto_cfgOut (s : State) (p : Phase) : (s.goto p).cfgOut = s.cfgOut := rfl
@[simp] theorem goto_cfgWe (s : State) (p : Phase) : (s.goto p).cfgWe = s.cfgWe := rfl
@[simp] theorem goto_hRdata (s : State) (p : Phase) : (s.goto p).hRdata = s.hRdata := rfl
@[simp] theorem goto_cfgIn (s : State) (p : Phase) : (s.goto p).cfgIn = s.cfgIn := rfl
@[simp] theorem goto_strap (s : State) (p : Phase) : (s.goto p).strap = s.strap := rfl
@[simp] theorem goto_rst (s : State) (p : Phase) : (s.goto p).rst = s.rst := rfl
@[simp] theorem goto_inputs (s : State) (p : Phase) : (s.goto p).inputs = s.inputs := rfl
@[simp] theorem goto_trace (s : State) (p : Phase) : (s.goto p).trace = s.trace := rfl
@[simp] theorem goto_draws (s : State) (p : Phase) : (s.goto p).draws = s.draws := rfl
@[simp] theorem goto_resets (s : State) (p : Phase) : (s.goto p).resets = s.resets := rfl

/-! ### `setK` -/

@[simp] theorem setK_cmdA (s : State) (n : Byte) : (s.setK n).cmdA = s.cmdA := rfl
@[simp] theorem setK_cmdB (s : State) (n : Byte) : (s.setK n).cmdB = s.cmdB := rfl
@[simp] theorem setK_cmdC (s : State) (n : Byte) : (s.setK n).cmdC = s.cmdC := rfl
@[simp] theorem setK_status (s : State) (n : Byte) : (s.setK n).status = s.status := rfl
@[simp] theorem setK_mode12 (s : State) (n : Byte) : (s.setK n).mode12 = s.mode12 := rfl
@[simp] theorem setK_res0 (s : State) (n : Byte) : (s.setK n).res0 = s.res0 := rfl
@[simp] theorem setK_res1 (s : State) (n : Byte) : (s.setK n).res1 = s.res1 := rfl
@[simp] theorem setK_resM (s : State) (n : Byte) : (s.setK n).resM = s.resM := rfl
@[simp] theorem setK_time (s : State) (n : Byte) : (s.setK n).time = s.time := rfl
@[simp] theorem setK_alarm (s : State) (n : Byte) : (s.setK n).alarm = s.alarm := rfl
@[simp] theorem setK_mem (s : State) (n : Byte) : (s.setK n).mem = s.mem := rfl
@[simp] theorem setK_phase (s : State) (n : Byte) : (s.setK n).phase = s.phase := rfl
@[simp] theorem setK_opc (s : State) (n : Byte) : (s.setK n).opc = s.opc := rfl
@[simp] theorem setK_addr (s : State) (n : Byte) : (s.setK n).addr = s.addr := rfl
@[simp] theorem setK_len (s : State) (n : Byte) : (s.setK n).len = s.len := rfl
@[simp] theorem setK_k (s : State) (n : Byte) : (s.setK n).k = n := rfl
@[simp] theorem setK_post (s : State) (n : Byte) : (s.setK n).post = s.post := rfl
@[simp] theorem setK_savedCfg (s : State) (n : Byte) : (s.setK n).savedCfg = s.savedCfg := rfl
@[simp] theorem setK_txb (s : State) (n : Byte) : (s.setK n).txb = s.txb := rfl
@[simp] theorem setK_xReq (s : State) (n : Byte) : (s.setK n).xReq = s.xReq := rfl
@[simp] theorem setK_xTx (s : State) (n : Byte) : (s.setK n).xTx = s.xTx := rfl
@[simp] theorem setK_sel (s : State) (n : Byte) : (s.setK n).sel = s.sel := rfl
@[simp] theorem setK_cfgOut (s : State) (n : Byte) : (s.setK n).cfgOut = s.cfgOut := rfl
@[simp] theorem setK_cfgWe (s : State) (n : Byte) : (s.setK n).cfgWe = s.cfgWe := rfl
@[simp] theorem setK_hRdata (s : State) (n : Byte) : (s.setK n).hRdata = s.hRdata := rfl
@[simp] theorem setK_cfgIn (s : State) (n : Byte) : (s.setK n).cfgIn = s.cfgIn := rfl
@[simp] theorem setK_strap (s : State) (n : Byte) : (s.setK n).strap = s.strap := rfl
@[simp] theorem setK_rst (s : State) (n : Byte) : (s.setK n).rst = s.rst := rfl
@[simp] theorem setK_inputs (s : State) (n : Byte) : (s.setK n).inputs = s.inputs := rfl
@[simp] theorem setK_trace (s : State) (n : Byte) : (s.setK n).trace = s.trace := rfl
@[simp] theorem setK_draws (s : State) (n : Byte) : (s.setK n).draws = s.draws := rfl
@[simp] theorem setK_resets (s : State) (n : Byte) : (s.setK n).resets = s.resets := rfl

/-! ### `log` -/

@[simp] theorem log_cmdA (s : State) (e : BusEvent) : (s.log e).cmdA = s.cmdA := rfl
@[simp] theorem log_cmdB (s : State) (e : BusEvent) : (s.log e).cmdB = s.cmdB := rfl
@[simp] theorem log_cmdC (s : State) (e : BusEvent) : (s.log e).cmdC = s.cmdC := rfl
@[simp] theorem log_status (s : State) (e : BusEvent) : (s.log e).status = s.status := rfl
@[simp] theorem log_mode12 (s : State) (e : BusEvent) : (s.log e).mode12 = s.mode12 := rfl
@[simp] theorem log_res0 (s : State) (e : BusEvent) : (s.log e).res0 = s.res0 := rfl
@[simp] theorem log_res1 (s : State) (e : BusEvent) : (s.log e).res1 = s.res1 := rfl
@[simp] theorem log_resM (s : State) (e : BusEvent) : (s.log e).resM = s.resM := rfl
@[simp] theorem log_time (s : State) (e : BusEvent) : (s.log e).time = s.time := rfl
@[simp] theorem log_alarm (s : State) (e : BusEvent) : (s.log e).alarm = s.alarm := rfl
@[simp] theorem log_mem (s : State) (e : BusEvent) : (s.log e).mem = s.mem := rfl
@[simp] theorem log_phase (s : State) (e : BusEvent) : (s.log e).phase = s.phase := rfl
@[simp] theorem log_opc (s : State) (e : BusEvent) : (s.log e).opc = s.opc := rfl
@[simp] theorem log_addr (s : State) (e : BusEvent) : (s.log e).addr = s.addr := rfl
@[simp] theorem log_len (s : State) (e : BusEvent) : (s.log e).len = s.len := rfl
@[simp] theorem log_k (s : State) (e : BusEvent) : (s.log e).k = s.k := rfl
@[simp] theorem log_post (s : State) (e : BusEvent) : (s.log e).post = s.post := rfl
@[simp] theorem log_savedCfg (s : State) (e : BusEvent) : (s.log e).savedCfg = s.savedCfg := rfl
@[simp] theorem log_txb (s : State) (e : BusEvent) : (s.log e).txb = s.txb := rfl
@[simp] theorem log_xReq (s : State) (e : BusEvent) : (s.log e).xReq = s.xReq := rfl
@[simp] theorem log_xTx (s : State) (e : BusEvent) : (s.log e).xTx = s.xTx := rfl
@[simp] theorem log_sel (s : State) (e : BusEvent) : (s.log e).sel = s.sel := rfl
@[simp] theorem log_cfgOut (s : State) (e : BusEvent) : (s.log e).cfgOut = s.cfgOut := rfl
@[simp] theorem log_cfgWe (s : State) (e : BusEvent) : (s.log e).cfgWe = s.cfgWe := rfl
@[simp] theorem log_hRdata (s : State) (e : BusEvent) : (s.log e).hRdata = s.hRdata := rfl
@[simp] theorem log_cfgIn (s : State) (e : BusEvent) : (s.log e).cfgIn = s.cfgIn := rfl
@[simp] theorem log_strap (s : State) (e : BusEvent) : (s.log e).strap = s.strap := rfl
@[simp] theorem log_rst (s : State) (e : BusEvent) : (s.log e).rst = s.rst := rfl
@[simp] theorem log_inputs (s : State) (e : BusEvent) : (s.log e).inputs = s.inputs := rfl
@[simp] theorem log_trace (s : State) (e : BusEvent) : (s.log e).trace = s.trace ++ [e] := rfl
@[simp] theorem log_draws (s : State) (e : BusEvent) : (s.log e).draws = s.draws := rfl
@[simp] theorem log_resets (s : State) (e : BusEvent) : (s.log e).resets = s.resets := rfl

/-! ### `cfgSet` -/

@[simp] theorem cfgSet_cmdA (s : State) (c : CfgWord) : (s.cfgSet c).cmdA = s.cmdA := rfl
@[simp] theorem cfgSet_cmdB (s : State) (c : CfgWord) : (s.cfgSet c).cmdB = s.cmdB := rfl
@[simp] theorem cfgSet_cmdC (s : State) (c : CfgWord) : (s.cfgSet c).cmdC = s.cmdC := rfl
@[simp] theorem cfgSet_status (s : State) (c : CfgWord) : (s.cfgSet c).status = s.status := rfl
@[simp] theorem cfgSet_mode12 (s : State) (c : CfgWord) : (s.cfgSet c).mode12 = s.mode12 := rfl
@[simp] theorem cfgSet_res0 (s : State) (c : CfgWord) : (s.cfgSet c).res0 = s.res0 := rfl
@[simp] theorem cfgSet_res1 (s : State) (c : CfgWord) : (s.cfgSet c).res1 = s.res1 := rfl
@[simp] theorem cfgSet_resM (s : State) (c : CfgWord) : (s.cfgSet c).resM = s.resM := rfl
@[simp] theorem cfgSet_time (s : State) (c : CfgWord) : (s.cfgSet c).time = s.time := rfl
@[simp] theorem cfgSet_alarm (s : State) (c : CfgWord) : (s.cfgSet c).alarm = s.alarm := rfl
@[simp] theorem cfgSet_mem (s : State) (c : CfgWord) : (s.cfgSet c).mem = s.mem := rfl
@[simp] theorem cfgSet_phase (s : State) (c : CfgWord) : (s.cfgSet c).phase = s.phase := rfl
@[simp] theorem cfgSet_opc (s : State) (c : CfgWord) : (s.cfgSet c).opc = s.opc := rfl
@[simp] theorem cfgSet_addr (s : State) (c : CfgWord) : (s.cfgSet c).addr = s.addr := rfl
@[simp] theorem cfgSet_len (s : State) (c : CfgWord) : (s.cfgSet c).len = s.len := rfl
@[simp] theorem cfgSet_k (s : State) (c : CfgWord) : (s.cfgSet c).k = s.k := rfl
@[simp] theorem cfgSet_post (s : State) (c : CfgWord) : (s.cfgSet c).post = s.post := rfl
@[simp] theorem cfgSet_savedCfg (s : State) (c : CfgWord) : (s.cfgSet c).savedCfg = s.savedCfg := rfl
@[simp] theorem cfgSet_txb (s : State) (c : CfgWord) : (s.cfgSet c).txb = s.txb := rfl
@[simp] theorem cfgSet_xReq (s : State) (c : CfgWord) : (s.cfgSet c).xReq = s.xReq := rfl
@[simp] theorem cfgSet_xTx (s : State) (c : CfgWord) : (s.cfgSet c).xTx = s.xTx := rfl
@[simp] theorem cfgSet_sel (s : State) (c : CfgWord) : (s.cfgSet c).sel = s.sel := rfl
@[simp] theorem cfgSet_cfgOut (s : State) (c : CfgWord) : (s.cfgSet c).cfgOut = c := rfl
@[simp] theorem cfgSet_cfgWe (s : State) (c : CfgWord) : (s.cfgSet c).cfgWe = true := rfl
@[simp] theorem cfgSet_hRdata (s : State) (c : CfgWord) : (s.cfgSet c).hRdata = s.hRdata := rfl
@[simp] theorem cfgSet_cfgIn (s : State) (c : CfgWord) : (s.cfgSet c).cfgIn = c := rfl
@[simp] theorem cfgSet_strap (s : State) (c : CfgWord) : (s.cfgSet c).strap = s.strap := rfl
@[simp] theorem cfgSet_rst (s : State) (c : CfgWord) : (s.cfgSet c).rst = s.rst := rfl
@[simp] theorem cfgSet_inputs (s : State) (c : CfgWord) : (s.cfgSet c).inputs = s.inputs := rfl
@[simp] theorem cfgSet_trace (s : State) (c : CfgWord) : (s.cfgSet c).trace = s.trace ++ [.cfgSet c] := rfl
@[simp] theorem cfgSet_draws (s : State) (c : CfgWord) : (s.cfgSet c).draws = s.draws := rfl
@[simp] theorem cfgSet_resets (s : State) (c : CfgWord) : (s.cfgSet c).resets = s.resets := rfl

/-! ### `cfgSave` -/

@[simp] theorem cfgSave_cmdA (s : State) : (s.cfgSave).cmdA = s.cmdA := rfl
@[simp] theorem cfgSave_cmdB (s : State) : (s.cfgSave).cmdB = s.cmdB := rfl
@[simp] theorem cfgSave_cmdC (s : State) : (s.cfgSave).cmdC = s.cmdC := rfl
@[simp] theorem cfgSave_status (s : State) : (s.cfgSave).status = s.status := rfl
@[simp] theorem cfgSave_mode12 (s : State) : (s.cfgSave).mode12 = s.mode12 := rfl
@[simp] theorem cfgSave_res0 (s : State) : (s.cfgSave).res0 = s.res0 := rfl
@[simp] theorem cfgSave_res1 (s : State) : (s.cfgSave).res1 = s.res1 := rfl
@[simp] theorem cfgSave_resM (s : State) : (s.cfgSave).resM = s.resM := rfl
@[simp] theorem cfgSave_time (s : State) : (s.cfgSave).time = s.time := rfl
@[simp] theorem cfgSave_alarm (s : State) : (s.cfgSave).alarm = s.alarm := rfl
@[simp] theorem cfgSave_mem (s : State) : (s.cfgSave).mem = s.mem := rfl
@[simp] theorem cfgSave_phase (s : State) : (s.cfgSave).phase = s.phase := rfl
@[simp] theorem cfgSave_opc (s : State) : (s.cfgSave).opc = s.opc := rfl
@[simp] theorem cfgSave_addr (s : State) : (s.cfgSave).addr = s.addr := rfl
@[simp] theorem cfgSave_len (s : State) : (s.cfgSave).len = s.len := rfl
@[simp] theorem cfgSave_k (s : State) : (s.cfgSave).k = s.k := rfl
@[simp] theorem cfgSave_post (s : State) : (s.cfgSave).post = s.post := rfl
@[simp] theorem cfgSave_savedCfg (s : State) : (s.cfgSave).savedCfg = s.cfgIn := rfl
@[simp] theorem cfgSave_txb (s : State) : (s.cfgSave).txb = s.txb := rfl
@[simp] theorem cfgSave_xReq (s : State) : (s.cfgSave).xReq = s.xReq := rfl
@[simp] theorem cfgSave_xTx (s : State) : (s.cfgSave).xTx = s.xTx := rfl
@[simp] theorem cfgSave_sel (s : State) : (s.cfgSave).sel = s.sel := rfl
@[simp] theorem cfgSave_cfgOut (s : State) : (s.cfgSave).cfgOut = s.cfgOut := rfl
@[simp] theorem cfgSave_cfgWe (s : State) : (s.cfgSave).cfgWe = s.cfgWe := rfl
@[simp] theorem cfgSave_hRdata (s : State) : (s.cfgSave).hRdata = s.hRdata := rfl
@[simp] theorem cfgSave_cfgIn (s : State) : (s.cfgSave).cfgIn = s.cfgIn := rfl
@[simp] theorem cfgSave_strap (s : State) : (s.cfgSave).strap = s.strap := rfl
@[simp] theorem cfgSave_rst (s : State) : (s.cfgSave).rst = s.rst := rfl
@[simp] theorem cfgSave_inputs (s : State) : (s.cfgSave).inputs = s.inputs := rfl
@[simp] theorem cfgSave_trace (s : State) : (s.cfgSave).trace = s.trace ++ [.cfgSave s.cfgIn] := rfl
@[simp] theorem cfgSave_draws (s : State) : (s.cfgSave).draws = s.draws := rfl
@[simp] theorem cfgSave_resets (s : State) : (s.cfgSave).resets = s.resets := rfl

/-! ### `driveSel` -/

@[simp] theorem driveSel_cmdA (s : State) (b : Bool) : (s.driveSel b).cmdA = s.cmdA := rfl
@[simp] theorem driveSel_cmdB (s : State) (b : Bool) : (s.driveSel b).cmdB = s.cmdB := rfl
@[simp] theorem driveSel_cmdC (s : State) (b : Bool) : (s.driveSel b).cmdC = s.cmdC := rfl
@[simp] theorem driveSel_status (s : State) (b : Bool) : (s.driveSel b).status = s.status := rfl
@[simp] theorem driveSel_mode12 (s : State) (b : Bool) : (s.driveSel b).mode12 = s.mode12 := rfl
@[simp] theorem driveSel_res0 (s : State) (b : Bool) : (s.driveSel b).res0 = s.res0 := rfl
@[simp] theorem driveSel_res1 (s : State) (b : Bool) : (s.driveSel b).res1 = s.res1 := rfl
@[simp] theorem driveSel_resM (s : State) (b : Bool) : (s.driveSel b).resM = s.resM := rfl
@[simp] theorem driveSel_time (s : State) (b : Bool) : (s.driveSel b).time = s.time := rfl
@[simp] theorem driveSel_alarm (s : State) (b : Bool) : (s.driveSel b).alarm = s.alarm := rfl
@[simp] theorem driveSel_mem (s : State) (b : Bool) : (s.driveSel b).mem = s.mem := rfl
@[simp] theorem driveSel_phase (s : State) (b : Bool) : (s.driveSel b).phase = s.phase := rfl
@[simp] theorem driveSel_opc (s : State) (b : Bool) : (s.driveSel b).opc = s.opc := rfl
@[simp] theorem driveSel_addr (s : State) (b : Bool) : (s.driveSel b).addr = s.addr := rfl
@[simp] theorem driveSel_len (s : State) (b : Bool) : (s.driveSel b).len = s.len := rfl
@[simp] theorem driveSel_k (s : State) (b : Bool) : (s.driveSel b).k = s.k := rfl
@[simp] theorem driveSel_post (s : State) (b : Bool) : (s.driveSel b).post = s.post := rfl
@[simp] theorem driveSel_savedCfg (s : State) (b : Bool) : (s.driveSel b).savedCfg = s.savedCfg := rfl
@[simp] theorem driveSel_txb (s : State) (b : Bool) : (s.driveSel b).txb = s.txb := rfl
@[simp] theorem driveSel_xReq (s : State) (b : Bool) : (s.driveSel b).xReq = s.xReq := rfl
@[simp] theorem driveSel_xTx (s : State) (b : Bool) : (s.driveSel b).xTx = s.xTx := rfl
@[simp] theorem driveSel_sel (s : State) (b : Bool) : (s.driveSel b).sel = selLevel b := rfl
@[simp] theorem driveSel_cfgOut (s : State) (b : Bool) : (s.driveSel b).cfgOut = s.cfgOut := rfl
@[simp] theorem driveSel_cfgWe (s : State) (b : Bool) : (s.driveSel b).cfgWe = s.cfgWe := rfl
@[simp] theorem driveSel_hRdata (s : State) (b : Bool) : (s.driveSel b).hRdata = s.hRdata := rfl
@[simp] theorem driveSel_cfgIn (s : State) (b : Bool) : (s.driveSel b).cfgIn = s.cfgIn := rfl
@[simp] theorem driveSel_strap (s : State) (b : Bool) : (s.driveSel b).strap = s.strap := rfl
@[simp] theorem driveSel_rst (s : State) (b : Bool) : (s.driveSel b).rst = s.rst := rfl
@[simp] theorem driveSel_inputs (s : State) (b : Bool) : (s.driveSel b).inputs = s.inputs := rfl
@[simp] theorem driveSel_trace (s : State) (b : Bool) : (s.driveSel b).trace = s.trace ++ [.sel b] := rfl
@[simp] theorem driveSel_draws (s : State) (b : Bool) : (s.driveSel b).draws = s.draws := rfl
@[simp] theorem driveSel_resets (s : State) (b : Bool) : (s.driveSel b).resets = s.resets := rfl

/-! ### `xferIssue` -/

@[simp] theorem xferIssue_cmdA (s : State) (v : Byte) : (s.xferIssue v).cmdA = s.cmdA := rfl
@[simp] theorem xferIssue_cmdB (s : State) (v : Byte) : (s.xferIssue v).cmdB = s.cmdB := rfl
@[simp] theorem xferIssue_cmdC (s : State) (v : Byte) : (s.xferIssue v).cmdC = s.cmdC := rfl
@[simp] theorem xferIssue_status (s : State) (v : Byte) : (s.xferIssue v).status = s.status := rfl
@[simp] theorem xferIssue_mode12 (s : State) (v : Byte) : (s.xferIssue v).mode12 = s.mode12 := rfl
@[simp] theorem xferIssue_res0 (s : State) (v : Byte) : (s.xferIssue v).res0 = s.res0 := rfl
@[simp] theorem xferIssue_res1 (s : State) (v : Byte) : (s.xferIssue v).res1 = s.res1 := rfl
@[simp] theorem xferIssue_resM (s : State) (v : Byte) : (s.xferIssue v).resM = s.resM := rfl
@[simp] theorem xferIssue_time (s : State) (v : Byte) : (s.xferIssue v).time = s.time := rfl
@[simp] theorem xferIssue_alarm (s : State) (v : Byte) : (s.xferIssue v).alarm = s.alarm := rfl
@[simp] theorem xferIssue_mem (s : State) (v : Byte) : (s.xferIssue v).mem = s.mem := rfl
@[simp] theorem xferIssue_phase (s : State) (v : Byte) : (s.xferIssue v).phase = s.phase := rfl
@[simp] theorem xferIssue_opc (s : State) (v : Byte) : (s.xferIssue v).opc = s.opc := rfl
@[simp] theorem xferIssue_addr (s : State) (v : Byte) : (s.xferIssue v).addr = s.addr := rfl
@[simp] theorem xferIssue_len (s : State) (v : Byte) : (s.xferIssue v).len = s.len := rfl
@[simp] theorem xferIssue_k (s : State) (v : Byte) : (s.xferIssue v).k = s.k := rfl
@[simp] theorem xferIssue_post (s : State) (v : Byte) : (s.xferIssue v).post = s.post := rfl
@[simp] theorem xferIssue_savedCfg (s : State) (v : Byte) : (s.xferIssue v).savedCfg = s.savedCfg := rfl
@[simp] theorem xferIssue_txb (s : State) (v : Byte) : (s.xferIssue v).txb = v := rfl
@[simp] theorem xferIssue_xReq (s : State) (v : Byte) : (s.xferIssue v).xReq = true := rfl
@[simp] theorem xferIssue_xTx (s : State) (v : Byte) : (s.xferIssue v).xTx = v := rfl
@[simp] theorem xferIssue_sel (s : State) (v : Byte) : (s.xferIssue v).sel = s.sel := rfl
@[simp] theorem xferIssue_cfgOut (s : State) (v : Byte) : (s.xferIssue v).cfgOut = s.cfgOut := rfl
@[simp] theorem xferIssue_cfgWe (s : State) (v : Byte) : (s.xferIssue v).cfgWe = s.cfgWe := rfl
@[simp] theorem xferIssue_hRdata (s : State) (v : Byte) : (s.xferIssue v).hRdata = s.hRdata := rfl
@[simp] theorem xferIssue_cfgIn (s : State) (v : Byte) : (s.xferIssue v).cfgIn = s.cfgIn := rfl
@[simp] theorem xferIssue_strap (s : State) (v : Byte) : (s.xferIssue v).strap = s.strap := rfl
@[simp] theorem xferIssue_rst (s : State) (v : Byte) : (s.xferIssue v).rst = s.rst := rfl
@[simp] theorem xferIssue_inputs (s : State) (v : Byte) : (s.xferIssue v).inputs = s.inputs := rfl
@[simp] theorem xferIssue_trace (s : State) (v : Byte) : (s.xferIssue v).trace = s.trace := rfl
@[simp] theorem xferIssue_draws (s : State) (v : Byte) : (s.xferIssue v).draws = s.draws := rfl
@[simp] theorem xferIssue_resets (s : State) (v : Byte) : (s.xferIssue v).resets = s.resets := rfl

/-! ### `xferDone` -/

@[simp] theorem xferDone_cmdA (s : State) (v : Byte) : (s.xferDone v).cmdA = s.cmdA := rfl
@[simp] theorem xferDone_cmdB (s : State) (v : Byte) : (s.xferDone v).cmdB = s.cmdB := rfl
@[simp] theorem xferDone_cmdC (s : State) (v : Byte) : (s.xferDone v).cmdC = s.cmdC := rfl
@[simp] theorem xferDone_status (s : State) (v : Byte) : (s.xferDone v).status = s.status := rfl
@[simp] theorem xferDone_mode12 (s : State) (v : Byte) : (s.xferDone v).mode12 = s.mode12 := rfl
@[simp] theorem xferDone_res0 (s : State) (v : Byte) : (s.xferDone v).res0 = s.res0 := rfl
@[simp] theorem xferDone_res1 (s : State) (v : Byte) : (s.xferDone v).res1 = s.res1 := rfl
@[simp] theorem xferDone_resM (s : State) (v : Byte) : (s.xferDone v).resM = s.resM := rfl
@[simp] theorem xferDone_time (s : State) (v : Byte) : (s.xferDone v).time = s.time := rfl
@[simp] theorem xferDone_alarm (s : State) (v : Byte) : (s.xferDone v).alarm = s.alarm := rfl
@[simp] theorem xferDone_mem (s : State) (v : Byte) : (s.xferDone v).mem = s.mem := rfl
@[simp] theorem xferDone_phase (s : State) (v : Byte) : (s.xferDone v).phase = s.phase := rfl
@[simp] theorem xferDone_opc (s : State) (v : Byte) : (s.xferDone v).opc = s.opc := rfl
@[simp] theorem xferDone_addr (s : State) (v : Byte) : (s.xferDone v).addr = s.addr := rfl
@[simp] theorem xferDone_len (s : State) (v : Byte) : (s.xferDone v).len = s.len := rfl
@[simp] theorem xferDone_k (s : State) (v : Byte) : (s.xferDone v).k = s.k := rfl
@[simp] theorem xferDone_post (s : State) (v : Byte) : (s.xferDone v).post = s.post := rfl
@[simp] theorem xferDone_savedCfg (s : State) (v : Byte) : (s.xferDone v).savedCfg = s.savedCfg := rfl
@[simp] theorem xferDone_txb (s : State) (v : Byte) : (s.xferDone v).txb = s.txb := rfl
@[simp] theorem xferDone_xReq (s : State) (v : Byte) : (s.xferDone v).xReq = false := rfl
@[simp] theorem xferDone_xTx (s : State) (v : Byte) : (s.xferDone v).xTx = s.xTx := rfl
@[simp] theorem xferDone_sel (s : State) (v : Byte) : (s.xferDone v).sel = s.sel := rfl
@[simp] theorem xferDone_cfgOut (s : State) (v : Byte) : (s.xferDone v).cfgOut = s.cfgOut := rfl
@[simp] theorem xferDone_cfgWe (s : State) (v : Byte) : (s.xferDone v).cfgWe = s.cfgWe := rfl
@[simp] theorem xferDone_hRdata (s : State) (v : Byte) : (s.xferDone v).hRdata = s.hRdata := rfl
@[simp] theorem xferDone_cfgIn (s : State) (v : Byte) : (s.xferDone v).cfgIn = s.cfgIn := rfl
@[simp] theorem xferDone_strap (s : State) (v : Byte) : (s.xferDone v).strap = s.strap := rfl
@[simp] theorem xferDone_rst (s : State) (v : Byte) : (s.xferDone v).rst = s.rst := rfl
@[simp] theorem xferDone_inputs (s : State) (v : Byte) : (s.xferDone v).inputs = s.inputs := rfl
@[simp] theorem xferDone_trace (s : State) (v : Byte) : (s.xferDone v).trace = s.trace ++ [.xfer s.txb v] := rfl
@[simp] theorem xferDone_draws (s : State) (v : Byte) : (s.xferDone v).draws = s.draws := rfl
@[simp] theorem xferDone_resets (s : State) (v : Byte) : (s.xferDone v).resets = s.resets := rfl

/-! ### `start` -/

@[simp] theorem start_cmdA (s : State) (d : Dir) (a n : Byte) (p : Post) : (s.start d a n p).cmdA = s.cmdA := rfl
@[simp] theorem start_cmdB (s : State) (d : Dir) (a n : Byte) (p : Post) : (s.start d a n p).cmdB = s.cmdB := rfl
@[simp] theorem start_cmdC (s : State) (d : Dir) (a n : Byte) (p : Post) : (s.start d a n p).cmdC = s.cmdC := rfl
@[simp] theorem start_status (s : State) (d : Dir) (a n : Byte) (p : Post) : (s.start d a n p).status = s.status.started := rfl
@[simp] theorem start_mode12 (s : State) (d : Dir) (a n : Byte) (p : Post) : (s.start d a n p).mode12 = s.mode12 := rfl
@[simp] theorem start_res0 (s : State) (d : Dir) (a n : Byte) (p : Post) : (s.start d a n p).res0 = s.res0 := rfl
@[simp] theorem start_res1 (s : State) (d : Dir) (a n : Byte) (p : Post) : (s.start d a n p).res1 = s.res1 := rfl
@[simp] theorem start_resM (s : State) (d : Dir) (a n : Byte) (p : Post) : (s.start d a n p).resM = s.resM := rfl
@[simp] theorem start_time (s : State) (d : Dir) (a n : Byte) (p : Post) : (s.start d a n p).time = s.time := rfl
@[simp] theorem start_alarm (s : State) (d : Dir) (a n : Byte) (p : Post) : (s.start d a n p).alarm = s.alarm := rfl
@[simp] theorem start_mem (s : State) (d : Dir) (a n : Byte) (p : Post) : (s.start d a n p).mem = s.mem := rfl
@[simp] theorem start_phase (s : State) (d : Dir) (a n : Byte) (p : Post) : (s.start d a n p).phase = .save := rfl
@[simp] theorem start_opc (s : State) (d : Dir) (a n : Byte) (p : Post) : (s.start d a n p).opc = d := rfl
@[simp] theorem start_addr (s : State) (d : Dir) (a n : Byte) (p : Post) : (s.start d a n p).addr = a := rfl
@[simp] theorem start_len (s : State) (d : Dir) (a n : Byte) (p : Post) : (s.start d a n p).len = n := rfl
@[simp] theorem start_k (s : State) (d : Dir) (a n : Byte) (p : Post) : (s.start d a n p).k = s.k := rfl
@[simp] theorem start_post (s : State) (d : Dir) (a n : Byte) (p : Post) : (s.start d a n p).post = p := rfl
@[simp] theorem start_savedCfg (s : State) (d : Dir) (a n : Byte) (p : Post) : (s.start d a n p).savedCfg = s.savedCfg := rfl
@[simp] theorem start_txb (s : State) (d : Dir) (a n : Byte) (p : Post) : (s.start d a n p).txb = s.txb := rfl
@[simp] theorem start_xReq (s : State) (d : Dir) (a n : Byte) (p : Post) : (s.start d a n p).xReq = s.xReq := rfl
@[simp] theorem start_xTx (s : State) (d : Dir) (a n : Byte) (p : Post) : (s.start d a n p).xTx = s.xTx := rfl
@[simp] theorem start_sel (s : State) (d : Dir) (a n : Byte) (p : Post) : (s.start d a n p).sel = s.sel := rfl
@[simp] theorem start_cfgOut (s : State) (d : Dir) (a n : Byte) (p : Post) : (s.start d a n p).cfgOut = s.cfgOut := rfl
@[simp] theorem start_cfgWe (s : State) (d : Dir) (a n : Byte) (p : Post) : (s.start d a n p).cfgWe = s.cfgWe := rfl
@[simp] theorem start_hRdata (s : State) (d : Dir) (a n : Byte) (p : Post) : (s.start d a n p).hRdata = s.hRdata := rfl
@[simp] theorem start_cfgIn (s : State) (d : Dir) (a n : Byte) (p : Post) : (s.start d a n p).cfgIn = s.cfgIn := rfl
@[simp] theorem start_strap (s : State) (d : Dir) (a n : Byte) (p : Post) : (s.start d a n p).strap = s.strap := rfl
@[simp] theorem start_rst (s : State) (d : Dir) (a n : Byte) (p : Post) : (s.start d a n p).rst = s.rst := rfl
@[simp] theorem start_inputs (s : State) (d : Dir) (a n : Byte) (p : Post) : (s.start d a n p).inputs = s.inputs := rfl
@[simp] theorem start_trace (s : State) (d : Dir) (a n : Byte) (p : Post) : (s.start d a n p).trace = s.trace := rfl
@[simp] theorem start_draws (s : State) (d : Dir) (a n : Byte) (p : Post) : (s.start d a n p).draws = s.draws := rfl
@[simp] theorem start_resets (s : State) (d : Dir) (a n : Byte) (p : Post) : (s.start d a n p).resets = s.resets := rfl

/-! ### `setBuf` -/

@[simp] theorem setBuf_cmdA (s : State) (j : Nat) (v : Byte) : (s.setBuf j v).cmdA = s.cmdA := rfl
@[simp] theorem setBuf_cmdB (s : State) (j : Nat) (v : Byte) : (s.setBuf j v).cmdB = s.cmdB := rfl
@[simp] theorem setBuf_cmdC (s : State) (j : Nat) (v : Byte) : (s.setBuf j v).cmdC = s.cmdC := rfl
@[simp] theorem setBuf_status (s : State) (j : Nat) (v : Byte) : (s.setBuf j v).status = s.status := rfl
@[simp] theorem setBuf_mode12 (s : State) (j : Nat) (v : Byte) : (s.setBuf j v).mode12 = s.mode12 := rfl
@[simp] theorem setBuf_res0 (s : State) (j : Nat) (v : Byte) : (s.setBuf j v).res0 = s.res0 := rfl
@[simp] theorem setBuf_res1 (s : State) (j : Nat) (v : Byte) : (s.setBuf j v).res1 = s.res1 := rfl
@[simp] theorem setBuf_resM (s : State) (j : Nat) (v : Byte) : (s.setBuf j v).resM = s.resM := rfl
@[simp] theorem setBuf_time (s : State) (j : Nat) (v : Byte) : (s.setBuf j v).time = s.time := rfl
@[simp] theorem setBuf_alarm (s : State) (j : Nat) (v : Byte) : (s.setBuf j v).alarm = s.alarm := rfl
@[simp] theorem setBuf_mem (s : State) (j : Nat) (v : Byte) : (s.setBuf j v).mem = Memory.insert s.mem (bufAddr j) v := rfl
@[simp] theorem setBuf_phase (s : State) (j : Nat) (v : Byte) : (s.setBuf j v).phase = s.phase := rfl
@[simp] theorem setBuf_opc (s : State) (j : Nat) (v : Byte) : (s.setBuf j v).opc = s.opc := rfl
@[simp] theorem setBuf_addr (s : State) (j : Nat) (v : Byte) : (s.setBuf j v).addr = s.addr := rfl
@[simp] theorem setBuf_len (s : State) (j : Nat) (v : Byte) : (s.setBuf j v).len = s.len := rfl
@[simp] theorem setBuf_k (s : State) (j : Nat) (v : Byte) : (s.setBuf j v).k = s.k := rfl
@[simp] theorem setBuf_post (s : State) (j : Nat) (v : Byte) : (s.setBuf j v).post = s.post := rfl
@[simp] theorem setBuf_savedCfg (s : State) (j : Nat) (v : Byte) : (s.setBuf j v).savedCfg = s.savedCfg := rfl
@[simp] theorem setBuf_txb (s : State) (j : Nat) (v : Byte) : (s.setBuf j v).txb = s.txb := rfl
@[simp] theorem setBuf_xReq (s : State) (j : Nat) (v : Byte) : (s.setBuf j v).xReq = s.xReq := rfl
@[simp] theorem setBuf_xTx (s : State) (j : Nat) (v : Byte) : (s.setBuf j v).xTx = s.xTx := rfl
@[simp] theorem setBuf_sel (s : State) (j : Nat) (v : Byte) : (s.setBuf j v).sel = s.sel := rfl
@[simp] theorem setBuf_cfgOut (s : State) (j : Nat) (v : Byte) : (s.setBuf j v).cfgOut = s.cfgOut := rfl
@[simp] theorem setBuf_cfgWe (s : State) (j : Nat) (v : Byte) : (s.setBuf j v).cfgWe = s.cfgWe := rfl
@[simp] theorem setBuf_hRdata (s : State) (j : Nat) (v : Byte) : (s.setBuf j v).hRdata = s.hRdata := rfl
@[simp] theorem setBuf_cfgIn (s : State) (j : Nat) (v : Byte) : (s.setBuf j v).cfgIn = s.cfgIn := rfl
@[simp] theorem setBuf_strap (s : State) (j : Nat) (v : Byte) : (s.setBuf j v).strap = s.strap := rfl
@[simp] theorem setBuf_rst (s : State) (j : Nat) (v : Byte) : (s.setBuf j v).rst = s.rst := rfl
@[simp] theorem setBuf_inputs (s : State) (j : Nat) (v : Byte) : (s.setBuf j v).inputs = s.inputs := rfl
@[simp] theorem setBuf_trace (s : State) (j : Nat) (v : Byte) : (s.setBuf j v).trace = s.trace := rfl
@[simp] theorem setBuf_draws (s : State) (j : Nat) (v : Byte) : (s.setBuf j v).draws = s.draws := rfl
@[simp] theorem setBuf_resets (s : State) (j : Nat) (v : Byte) : (s.setBuf j v).resets = s.resets := rfl

/-! ### `setBufs` -/

@[simp] theorem setBufs_cmdA (s : State) (vs : List Byte) : (s.setBufs vs).cmdA = s.cmdA := rfl
@[simp] theorem setBufs_cmdB (s : State) (vs : List Byte) : (s.setBufs vs).cmdB = s.cmdB := rfl
@[simp] theorem setBufs_cmdC (s : State) (vs : List Byte) : (s.setBufs vs).cmdC = s.cmdC := rfl
@[simp] theorem setBufs_status (s : State) (vs : List Byte) : (s.setBufs vs).status = s.status := rfl
@[simp] theorem setBufs_mode12 (s : State) (vs : List Byte) : (s.setBufs vs).mode12 = s.mode12 := rfl
@[simp] theorem setBufs_res0 (s : State) (vs : List Byte) : (s.setBufs vs).res0 = s.res0 := rfl
@[simp] theorem setBufs_res1 (s : State) (vs : List Byte) : (s.setBufs vs).res1 = s.res1 := rfl
@[simp] theorem setBufs_resM (s : State) (vs : List Byte) : (s.setBufs vs).resM = s.resM := rfl
@[simp] theorem setBufs_time (s : State) (vs : List Byte) : (s.setBufs vs).time = s.time := rfl
@[simp] theorem setBufs_alarm (s : State) (vs : List Byte) : (s.setBufs vs).alarm = s.alarm := rfl
@[simp] theorem setBufs_mem (s : State) (vs : List Byte) : (s.setBufs vs).mem = Memory.insertAll s.mem (bufAddr 0) vs := rfl
@[simp] theorem setBufs_phase (s : State) (vs : List Byte) : (s.setBufs vs).phase = s.phase := rfl
@[simp] theorem setBufs_opc (s : State) (vs : List Byte) : (s.setBufs vs).opc = s.opc := rfl
@[simp] theorem setBufs_addr (s : State) (vs : List Byte) : (s.setBufs vs).addr = s.addr := rfl
@[simp] theorem setBufs_len (s : State) (vs : List Byte) : (s.setBufs vs).len = s.len := rfl
@[simp] theorem setBufs_k (s : State) (vs : List Byte) : (s.setBufs vs).k = s.k := rfl
@[simp] theorem setBufs_post (s : State) (vs : List Byte) : (s.setBufs vs).post = s.post := rfl
@[simp] theorem setBufs_savedCfg (s : State) (vs : List Byte) : (s.setBufs vs).savedCfg = s.savedCfg := rfl
@[simp] theorem setBufs_txb (s : State) (vs : List Byte) : (s.setBufs vs).txb = s.txb := rfl
@[simp] theorem setBufs_xReq (s : State) (vs : List Byte) : (s.setBufs vs).xReq = s.xReq := rfl
@[simp] theorem setBufs_xTx (s : State) (vs : List Byte) : (s.setBufs vs).xTx = s.xTx := rfl
@[simp] theorem setBufs_sel (s : State) (vs : List Byte) : (s.setBufs vs).sel = s.sel := rfl
@[simp] theorem setBufs_cfgOut (s : State) (vs : List Byte) : (s.setBufs vs).cfgOut = s.cfgOut := rfl
@[simp] theorem setBufs_cfgWe (s : State) (vs : List Byte) : (s.setBufs vs).cfgWe = s.cfgWe := rfl
@[simp] theorem setBufs_hRdata (s : State) (vs : List Byte) : (s.setBufs vs).hRdata = s.hRdata := rfl
@[simp] theorem setBufs_cfgIn (s : State) (vs : List Byte) : (s.setBufs vs).cfgIn = s.cfgIn := rfl
@[simp] theorem setBufs_strap (s : State) (vs : List Byte) : (s.setBufs vs).strap = s.strap := rfl
@[simp] theorem setBufs_rst (s : State) (vs : List Byte) : (s.setBufs vs).rst = s.rst := rfl
@[simp] theorem setBufs_inputs (s : State) (vs : List Byte) : (s.setBufs vs).inputs = s.inputs := rfl
@[simp] theorem setBufs_trace (s : State) (vs : List Byte) : (s.setBufs vs).trace = s.trace := rfl
@[simp] theorem setBufs_draws (s : State) (vs : List Byte) : (s.setBufs vs).draws = s.draws := rfl
@[simp] theorem setBufs_resets (s : State) (vs : List Byte) : (s.setBufs vs).resets = s.resets := rfl

/-! ### `setRes0` -/

@[simp] theorem setRes0_cmdA (s : State) (v : Byte) : (s.setRes0 v).cmdA = s.cmdA := rfl
@[simp] theorem setRes0_cmdB (s : State) (v : Byte) : (s.setRes0 v).cmdB = s.cmdB := rfl
@[simp] theorem setRes0_cmdC (s : State) (v : Byte) : (s.setRes0 v).cmdC = s.cmdC := rfl
@[simp] theorem setRes0_status (s : State) (v : Byte) : (s.setRes0 v).status = s.status := rfl
@[simp] theorem setRes0_mode12 (s : State) (v : Byte) : (s.setRes0 v).mode12 = s.mode12 := rfl
@[simp] theorem setRes0_res0 (s : State) (v : Byte) : (s.setRes0 v).res0 = v := rfl
@[simp] theorem setRes0_res1 (s : State) (v : Byte) : (s.setRes0 v).res1 = s.res1 := rfl
@[simp] theorem setRes0_resM (s : State) (v : Byte) : (s.setRes0 v).resM = s.resM := rfl
@[simp] theorem setRes0_time (s : State) (v : Byte) : (s.setRes0 v).time = s.time := rfl
@[simp] theorem setRes0_alarm (s : State) (v : Byte) : (s.setRes0 v).alarm = s.alarm := rfl
@[simp] theorem setRes0_mem (s : State) (v : Byte) : (s.setRes0 v).mem = s.mem := rfl
@[simp] theorem setRes0_phase (s : State) (v : Byte) : (s.setRes0 v).phase = s.phase := rfl
@[simp] theorem setRes0_opc (s : State) (v : Byte) : (s.setRes0 v).opc = s.opc := rfl
@[simp] theorem setRes0_addr (s : State) (v : Byte) : (s.setRes0 v).addr = s.addr := rfl
@[simp] theorem setRes0_len (s : State) (v : Byte) : (s.setRes0 v).len = s.len := rfl
@[simp] theorem setRes0_k (s : State) (v : Byte) : (s.setRes0 v).k = s.k := rfl
@[simp] theorem setRes0_post (s : State) (v : Byte) : (s.setRes0 v).post = s.post := rfl
@[simp] theorem setRes0_savedCfg (s : State) (v : Byte) : (s.setRes0 v).savedCfg = s.savedCfg := rfl
@[simp] theorem setRes0_txb (s : State) (v : Byte) : (s.setRes0 v).txb = s.txb := rfl
@[simp] theorem setRes0_xReq (s : State) (v : Byte) : (s.setRes0 v).xReq = s.xReq := rfl
@[simp] theorem setRes0_xTx (s : State) (v : Byte) : (s.setRes0 v).xTx = s.xTx := rfl
@[simp] theorem setRes0_sel (s : State) (v : Byte) : (s.setRes0 v).sel = s.sel := rfl
@[simp] theorem setRes0_cfgOut (s : State) (v : Byte) : (s.setRes0 v).cfgOut = s.cfgOut := rfl
@[simp] theorem setRes0_cfgWe (s : State) (v : Byte) : (s.setRes0 v).cfgWe = s.cfgWe := rfl
@[simp] theorem setRes0_hRdata (s : State) (v : Byte) : (s.setRes0 v).hRdata = s.hRdata := rfl
@[simp] theorem setRes0_cfgIn (s : State) (v : Byte) : (s.setRes0 v).cfgIn = s.cfgIn := rfl
@[simp] theorem setRes0_strap (s : State) (v : Byte) : (s.setRes0 v).strap = s.strap := rfl
@[simp] theorem setRes0_rst (s : State) (v : Byte) : (s.setRes0 v).rst = s.rst := rfl
@[simp] theorem setRes0_inputs (s : State) (v : Byte) : (s.setRes0 v).inputs = s.inputs := rfl
@[simp] theorem setRes0_trace (s : State) (v : Byte) : (s.setRes0 v).trace = s.trace := rfl
@[simp] theorem setRes0_draws (s : State) (v : Byte) : (s.setRes0 v).draws = s.draws := rfl
@[simp] theorem setRes0_resets (s : State) (v : Byte) : (s.setRes0 v).resets = s.resets := rfl

/-! ### `setHour` -/

@[simp] theorem setHour_cmdA (s : State) (a b : Byte) (m : MerCode) : (s.setHour a b m).cmdA = s.cmdA := rfl
@[simp] theorem setHour_cmdB (s : State) (a b : Byte) (m : MerCode) : (s.setHour a b m).cmdB = s.cmdB := rfl
@[simp] theorem setHour_cmdC (s : State) (a b : Byte) (m : MerCode) : (s.setHour a b m).cmdC = s.cmdC := rfl
@[simp] theorem setHour_status (s : State) (a b : Byte) (m : MerCode) : (s.setHour a b m).status = s.status := rfl
@[simp] theorem setHour_mode12 (s : State) (a b : Byte) (m : MerCode) : (s.setHour a b m).mode12 = s.mode12 := rfl
@[simp] theorem setHour_res0 (s : State) (a b : Byte) (m : MerCode) : (s.setHour a b m).res0 = a := rfl
@[simp] theorem setHour_res1 (s : State) (a b : Byte) (m : MerCode) : (s.setHour a b m).res1 = b := rfl
@[simp] theorem setHour_resM (s : State) (a b : Byte) (m : MerCode) : (s.setHour a b m).resM = m := rfl
@[simp] theorem setHour_time (s : State) (a b : Byte) (m : MerCode) : (s.setHour a b m).time = s.time := rfl
@[simp] theorem setHour_alarm (s : State) (a b : Byte) (m : MerCode) : (s.setHour a b m).alarm = s.alarm := rfl
@[simp] theorem setHour_mem (s : State) (a b : Byte) (m : MerCode) : (s.setHour a b m).mem = s.mem := rfl
@[simp] theorem setHour_phase (s : State) (a b : Byte) (m : MerCode) : (s.setHour a b m).phase = s.phase := rfl
@[simp] theorem setHour_opc (s : State) (a b : Byte) (m : MerCode) : (s.setHour a b m).opc = s.opc := rfl
@[simp] theorem setHour_addr (s : State) (a b : Byte) (m : MerCode) : (s.setHour a b m).addr = s.addr := rfl
@[simp] theorem setHour_len (s : State) (a b : Byte) (m : MerCode) : (s.setHour a b m).len = s.len := rfl
@[simp] theorem setHour_k (s : State) (a b : Byte) (m : MerCode) : (s.setHour a b m).k = s.k := rfl
@[simp] theorem setHour_post (s : State) (a b : Byte) (m : MerCode) : (s.setHour a b m).post = s.post := rfl
@[simp] theorem setHour_savedCfg (s : State) (a b : Byte) (m : MerCode) : (s.setHour a b m).savedCfg = s.savedCfg := rfl
@[simp] theorem setHour_txb (s : State) (a b : Byte) (m : MerCode) : (s.setHour a b m).txb = s.txb := rfl
@[simp] theorem setHour_xReq (s : State) (a b : Byte) (m : MerCode) : (s.setHour a b m).xReq = s.xReq := rfl
@[simp] theorem setHour_xTx (s : State) (a b : Byte) (m : MerCode) : (s.setHour a b m).xTx = s.xTx := rfl
@[simp] theorem setHour_sel (s : State) (a b : Byte) (m : MerCode) : (s.setHour a b m).sel = s.sel := rfl
@[simp] theorem setHour_cfgOut (s : State) (a b : Byte) (m : MerCode) : (s.setHour a b m).cfgOut = s.cfgOut := rfl
@[simp] theorem setHour_cfgWe (s : State) (a b : Byte) (m : MerCode) : (s.setHour a b m).cfgWe = s.cfgWe := rfl
@[simp] theorem setHour_hRdata (s : State) (a b : Byte) (m : MerCode) : (s.setHour a b m).hRdata = s.hRdata := rfl
@[simp] theorem setHour_cfgIn (s : State) (a b : Byte) (m : MerCode) : (s.setHour a b m).cfgIn = s.cfgIn := rfl
@[simp] theorem setHour_strap (s : State) (a b : Byte) (m : MerCode) : (s.setHour a b m).strap = s.strap := rfl
@[simp] theorem setHour_rst (s : State) (a b : Byte) (m : MerCode) : (s.setHour a b m).rst = s.rst := rfl
@[simp] theorem setHour_inputs (s : State) (a b : Byte) (m : MerCode) : (s.setHour a b m).inputs = s.inputs := rfl
@[simp] theorem setHour_trace (s : State) (a b : Byte) (m : MerCode) : (s.setHour a b m).trace = s.trace := rfl
@[simp] theorem setHour_draws (s : State) (a b : Byte) (m : MerCode) : (s.setHour a b m).draws = s.draws := rfl
@[simp] theorem setHour_resets (s : State) (a b : Byte) (m : MerCode) : (s.setHour a b m).resets = s.resets := rfl

/-! ### `putRes0` -/

@[simp] theorem putRes0_cmdA (s : State) (o : Option Byte) : (s.putRes0 o).cmdA = s.cmdA := rfl
@[simp] theorem putRes0_cmdB (s : State) (o : Option Byte) : (s.putRes0 o).cmdB = s.cmdB := rfl
@[simp] theorem putRes0_cmdC (s : State) (o : Option Byte) : (s.putRes0 o).cmdC = s.cmdC := rfl
@[simp] theorem putRes0_status (s : State) (o : Option Byte) : (s.putRes0 o).status = s.status := rfl
@[simp] theorem putRes0_mode12 (s : State) (o : Option Byte) : (s.putRes0 o).mode12 = s.mode12 := rfl
@[simp] theorem putRes0_res0 (s : State) (o : Option Byte) : (s.putRes0 o).res0 = s.resolve 0 o := rfl
@[simp] theorem putRes0_res1 (s : State) (o : Option Byte) : (s.putRes0 o).res1 = s.res1 := rfl
@[simp] theorem putRes0_resM (s : State) (o : Option Byte) : (s.putRes0 o).resM = s.resM := rfl
@[simp] theorem putRes0_time (s : State) (o : Option Byte) : (s.putRes0 o).time = s.time := rfl
@[simp] theorem putRes0_alarm (s : State) (o : Option Byte) : (s.putRes0 o).alarm = s.alarm := rfl
@[simp] theorem putRes0_mem (s : State) (o : Option Byte) : (s.putRes0 o).mem = s.mem := rfl
@[simp] theorem putRes0_phase (s : State) (o : Option Byte) : (s.putRes0 o).phase = s.phase := rfl
@[simp] theorem putRes0_opc (s : State) (o : Option Byte) : (s.putRes0 o).opc = s.opc := rfl
@[simp] theorem putRes0_addr (s : State) (o : Option Byte) : (s.putRes0 o).addr = s.addr := rfl
@[simp] theorem putRes0_len (s : State) (o : Option Byte) : (s.putRes0 o).len = s.len := rfl
@[simp] theorem putRes0_k (s : State) (o : Option Byte) : (s.putRes0 o).k = s.k := rfl
@[simp] theorem putRes0_post (s : State) (o : Option Byte) : (s.putRes0 o).post = s.post := rfl
@[simp] theorem putRes0_savedCfg (s : State) (o : Option Byte) : (s.putRes0 o).savedCfg = s.savedCfg := rfl
@[simp] theorem putRes0_txb (s : State) (o : Option Byte) : (s.putRes0 o).txb = s.txb := rfl
@[simp] theorem putRes0_xReq (s : State) (o : Option Byte) : (s.putRes0 o).xReq = s.xReq := rfl
@[simp] theorem putRes0_xTx (s : State) (o : Option Byte) : (s.putRes0 o).xTx = s.xTx := rfl
@[simp] theorem putRes0_sel (s : State) (o : Option Byte) : (s.putRes0 o).sel = s.sel := rfl
@[simp] theorem putRes0_cfgOut (s : State) (o : Option Byte) : (s.putRes0 o).cfgOut = s.cfgOut := rfl
@[simp] theorem putRes0_cfgWe (s : State) (o : Option Byte) : (s.putRes0 o).cfgWe = s.cfgWe := rfl
@[simp] theorem putRes0_hRdata (s : State) (o : Option Byte) : (s.putRes0 o).hRdata = s.hRdata := rfl
@[simp] theorem putRes0_cfgIn (s : State) (o : Option Byte) : (s.putRes0 o).cfgIn = s.cfgIn := rfl
@[simp] theorem putRes0_strap (s : State) (o : Option Byte) : (s.putRes0 o).strap = s.strap := rfl
@[simp] theorem putRes0_rst (s : State) (o : Option Byte) : (s.putRes0 o).rst = s.rst := rfl
@[simp] theorem putRes0_inputs (s : State) (o : Option Byte) : (s.putRes0 o).inputs = s.inputs := rfl
@[simp] theorem putRes0_trace (s : State) (o : Option Byte) : (s.putRes0 o).trace = s.trace := rfl
@[simp] theorem putRes0_draws (s : State) (o : Option Byte) : (s.putRes0 o).draws = s.draws + 1 := rfl
@[simp] theorem putRes0_resets (s : State) (o : Option Byte) : (s.putRes0 o).resets = s.resets := rfl

/-! ### `putPacket` -/

@[simp] theorem putPacket_cmdA (s : State) (os : List (Option Byte)) : (s.putPacket os).cmdA = s.cmdA := rfl
@[simp] theorem putPacket_cmdB (s : State) (os : List (Option Byte)) : (s.putPacket os).cmdB = s.cmdB := rfl
@[simp] theorem putPacket_cmdC (s : State) (os : List (Option Byte)) : (s.putPacket os).cmdC = s.cmdC := rfl
@[simp] theorem putPacket_status (s : State) (os : List (Option Byte)) : (s.putPacket os).status = s.status := rfl
@[simp] theorem putPacket_mode12 (s : State) (os : List (Option Byte)) : (s.putPacket os).mode12 = s.mode12 := rfl
@[simp] theorem putPacket_res0 (s : State) (os : List (Option Byte)) : (s.putPacket os).res0 = s.res0 := rfl
@[simp] theorem putPacket_res1 (s : State) (os : List (Option Byte)) : (s.putPacket os).res1 = s.res1 := rfl
@[simp] theorem putPacket_resM (s : State) (os : List (Option Byte)) : (s.putPacket os).resM = s.resM := rfl
@[simp] theorem putPacket_time (s : State) (os : List (Option Byte)) : (s.putPacket os).time = s.time := rfl
@[simp] theorem putPacket_alarm (s : State) (os : List (Option Byte)) : (s.putPacket os).alarm = s.alarm := rfl
@[simp] theorem putPacket_mem (s : State) (os : List (Option Byte)) : (s.putPacket os).mem = Memory.insertAll s.mem (bufAddr 0) (s.resolveFrom 0 os) := rfl
@[simp] theorem putPacket_phase (s : State) (os : List (Option Byte)) : (s.putPacket os).phase = s.phase := rfl
@[simp] theorem putPacket_opc (s : State) (os : List (Option Byte)) : (s.putPacket os).opc = s.opc := rfl
@[simp] theorem putPacket_addr (s : State) (os : List (Option Byte)) : (s.putPacket os).addr = s.addr := rfl
@[simp] theorem putPacket_len (s : State) (os : List (Option Byte)) : (s.putPacket os).len = s.len := rfl
@[simp] theorem putPacket_k (s : State) (os : List (Option Byte)) : (s.putPacket os).k = s.k := rfl
@[simp] theorem putPacket_post (s : State) (os : List (Option Byte)) : (s.putPacket os).post = s.post := rfl
@[simp] theorem putPacket_savedCfg (s : State) (os : List (Option Byte)) : (s.putPacket os).savedCfg = s.savedCfg := rfl
@[simp] theorem putPacket_txb (s : State) (os : List (Option Byte)) : (s.putPacket os).txb = s.txb := rfl
@[simp] theorem putPacket_xReq (s : State) (os : List (Option Byte)) : (s.putPacket os).xReq = s.xReq := rfl
@[simp] theorem putPacket_xTx (s : State) (os : List (Option Byte)) : (s.putPacket os).xTx = s.xTx := rfl
@[simp] theorem putPacket_sel (s : State) (os : List (Option Byte)) : (s.putPacket os).sel = s.sel := rfl
@[simp] theorem putPacket_cfgOut (s : State) (os : List (Option Byte)) : (s.putPacket os).cfgOut = s.cfgOut := rfl
@[simp] theorem putPacket_cfgWe (s : State) (os : List (Option Byte)) : (s.putPacket os).cfgWe = s.cfgWe := rfl
@[simp] theorem putPacket_hRdata (s : State) (os : List (Option Byte)) : (s.putPacket os).hRdata = s.hRdata := rfl
@[simp] theorem putPacket_cfgIn (s : State) (os : List (Option Byte)) : (s.putPacket os).cfgIn = s.cfgIn := rfl
@[simp] theorem putPacket_strap (s : State) (os : List (Option Byte)) : (s.putPacket os).strap = s.strap := rfl
@[simp] theorem putPacket_rst (s : State) (os : List (Option Byte)) : (s.putPacket os).rst = s.rst := rfl
@[simp] theorem putPacket_inputs (s : State) (os : List (Option Byte)) : (s.putPacket os).inputs = s.inputs := rfl
@[simp] theorem putPacket_trace (s : State) (os : List (Option Byte)) : (s.putPacket os).trace = s.trace := rfl
@[simp] theorem putPacket_draws (s : State) (os : List (Option Byte)) : (s.putPacket os).draws = s.draws + os.length := rfl
@[simp] theorem putPacket_resets (s : State) (os : List (Option Byte)) : (s.putPacket os).resets = s.resets := rfl

/-! ### `decTime` -/

@[simp] theorem decTime_cmdA (s : State) : (s.decTime).cmdA = s.cmdA := rfl
@[simp] theorem decTime_cmdB (s : State) : (s.decTime).cmdB = s.cmdB := rfl
@[simp] theorem decTime_cmdC (s : State) : (s.decTime).cmdC = s.cmdC := rfl
@[simp] theorem decTime_status (s : State) : (s.decTime).status = s.status := rfl
@[simp] theorem decTime_mode12 (s : State) : (s.decTime).mode12 = s.mode12 := rfl
@[simp] theorem decTime_res0 (s : State) : (s.decTime).res0 = s.res0 := rfl
@[simp] theorem decTime_res1 (s : State) : (s.decTime).res1 = s.res1 := rfl
@[simp] theorem decTime_resM (s : State) : (s.decTime).resM = s.resM := rfl
@[simp] theorem decTime_time (s : State) : (s.decTime).time = tpktDec (s.buf 0) (s.buf 1) (s.buf 2) (s.buf 3) (s.buf 4) (s.buf 5) (s.buf 6) := rfl
@[simp] theorem decTime_alarm (s : State) : (s.decTime).alarm = s.alarm := rfl
@[simp] theorem decTime_mem (s : State) : (s.decTime).mem = s.mem := rfl
@[simp] theorem decTime_phase (s : State) : (s.decTime).phase = s.phase := rfl
@[simp] theorem decTime_opc (s : State) : (s.decTime).opc = s.opc := rfl
@[simp] theorem decTime_addr (s : State) : (s.decTime).addr = s.addr := rfl
@[simp] theorem decTime_len (s : State) : (s.decTime).len = s.len := rfl
@[simp] theorem decTime_k (s : State) : (s.decTime).k = s.k := rfl
@[simp] theorem decTime_post (s : State) : (s.decTime).post = s.post := rfl
@[simp] theorem decTime_savedCfg (s : State) : (s.decTime).savedCfg = s.savedCfg := rfl
@[simp] theorem decTime_txb (s : State) : (s.decTime).txb = s.txb := rfl
@[simp] theorem decTime_xReq (s : State) : (s.decTime).xReq = s.xReq := rfl
@[simp] theorem decTime_xTx (s : State) : (s.decTime).xTx = s.xTx := rfl
@[simp] theorem decTime_sel (s : State) : (s.decTime).sel = s.sel := rfl
@[simp] theorem decTime_cfgOut (s : State) : (s.decTime).cfgOut = s.cfgOut := rfl
@[simp] theorem decTime_cfgWe (s : State) : (s.decTime).cfgWe = s.cfgWe := rfl
@[simp] theorem decTime_hRdata (s : State) : (s.decTime).hRdata = s.hRdata := rfl
@[simp] theorem decTime_cfgIn (s : State) : (s.decTime).cfgIn = s.cfgIn := rfl
@[simp] theorem decTime_strap (s : State) : (s.decTime).strap = s.strap := rfl
@[simp] theorem decTime_rst (s : State) : (s.decTime).rst = s.rst := rfl
@[simp] theorem decTime_inputs (s : State) : (s.decTime).inputs = s.inputs := rfl
@[simp] theorem decTime_trace (s : State) : (s.decTime).trace = s.trace := rfl
@[simp] theorem decTime_draws (s : State) : (s.decTime).draws = s.draws := rfl
@[simp] theorem decTime_resets (s : State) : (s.decTime).resets = s.resets := rfl

/-! ### `decAlarm` -/

@[simp] theorem decAlarm_cmdA (s : State) : (s.decAlarm).cmdA = s.cmdA := rfl
@[simp] theorem decAlarm_cmdB (s : State) : (s.decAlarm).cmdB = s.cmdB := rfl
@[simp] theorem decAlarm_cmdC (s : State) : (s.decAlarm).cmdC = s.cmdC := rfl
@[simp] theorem decAlarm_status (s : State) : (s.decAlarm).status = s.status := rfl
@[simp] theorem decAlarm_mode12 (s : State) : (s.decAlarm).mode12 = s.mode12 := rfl
@[simp] theorem decAlarm_res0 (s : State) : (s.decAlarm).res0 = s.res0 := rfl
@[simp] theorem decAlarm_res1 (s : State) : (s.decAlarm).res1 = s.res1 := rfl
@[simp] theorem decAlarm_resM (s : State) : (s.decAlarm).resM = s.resM := rfl
@[simp] theorem decAlarm_time (s : State) : (s.decAlarm).time = s.time := rfl
@[simp] theorem decAlarm_alarm (s : State) : (s.decAlarm).alarm = apktDec (s.buf 0) (s.buf 1) (s.buf 2) (s.buf 3) := rfl
@[simp] theorem decAlarm_mem (s : State) : (s.decAlarm).mem = s.mem := rfl
@[simp] theorem decAlarm_phase (s : State) : (s.decAlarm).phase = s.phase := rfl
@[simp] theorem decAlarm_opc (s : State) : (s.decAlarm).opc = s.opc := rfl
@[simp] theorem decAlarm_addr (s : State) : (s.decAlarm).addr = s.addr := rfl
@[simp] theorem decAlarm_len (s : State) : (s.decAlarm).len = s.len := rfl
@[simp] theorem decAlarm_k (s : State) : (s.decAlarm).k = s.k := rfl
@[simp] theorem decAlarm_post (s : State) : (s.decAlarm).post = s.post := rfl
@[simp] theorem decAlarm_savedCfg (s : State) : (s.decAlarm).savedCfg = s.savedCfg := rfl
@[simp] theorem decAlarm_txb (s : State) : (s.decAlarm).txb = s.txb := rfl
@[simp] theorem decAlarm_xReq (s : State) : (s.decAlarm).xReq = s.xReq := rfl
@[simp] theorem decAlarm_xTx (s : State) : (s.decAlarm).xTx = s.xTx := rfl
@[simp] theorem decAlarm_sel (s : State) : (s.decAlarm).sel = s.sel := rfl
@[simp] theorem decAlarm_cfgOut (s : State) : (s.decAlarm).cfgOut = s.cfgOut := rfl
@[simp] theorem decAlarm_cfgWe (s : State) : (s.decAlarm).cfgWe = s.cfgWe := rfl
@[simp] theorem decAlarm_hRdata (s : State) : (s.decAlarm).hRdata = s.hRdata := rfl
@[simp] theorem decAlarm_cfgIn (s : State) : (s.decAlarm).cfgIn = s.cfgIn := rfl
@[simp] theorem decAlarm_strap (s : State) : (s.decAlarm).strap = s.strap := rfl
@[simp] theorem decAlarm_rst (s : State) : (s.decAlarm).rst = s.rst := rfl
@[simp] theorem decAlarm_inputs (s : State) : (s.decAlarm).inputs = s.inputs := rfl
@[simp] theorem decAlarm_trace (s : State) : (s.decAlarm).trace = s.trace := rfl
@[simp] theorem decAlarm_draws (s : State) : (s.decAlarm).draws = s.draws := rfl
@[simp] theorem decAlarm_resets (s : State) : (s.decAlarm).resets = s.resets := rfl

/-! ### `clearAlarm` -/

@[simp] theorem clearAlarm_cmdA (s : State) : (s.clearAlarm).cmdA = s.cmdA := rfl
@[simp] theorem clearAlarm_cmdB (s : State) : (s.clearAlarm).cmdB = s.cmdB := rfl
@[simp] theorem clearAlarm_cmdC (s : State) : (s.clearAlarm).cmdC = s.cmdC := rfl
@[simp] theorem clearAlarm_status (s : State) : (s.clearAlarm).status = s.status := rfl
@[simp] theorem clearAlarm_mode12 (s : State) : (s.clearAlarm).mode12 = s.mode12 := rfl
@[simp] theorem clearAlarm_res0 (s : State) : (s.clearAlarm).res0 = s.res0 := rfl
@[simp] theorem clearAlarm_res1 (s : State) : (s.clearAlarm).res1 = s.res1 := rfl
@[simp] theorem clearAlarm_resM (s : State) : (s.clearAlarm).resM = s.resM := rfl
@[simp] theorem clearAlarm_time (s : State) : (s.clearAlarm).time = s.time := rfl
@[simp] theorem clearAlarm_alarm (s : State) : (s.clearAlarm).alarm = ⟨0#8, 0#8, 0#8, 0#8, Mer.undef, 0#8⟩ := rfl
@[simp] theorem clearAlarm_mem (s : State) : (s.clearAlarm).mem = s.mem := rfl
@[simp] theorem clearAlarm_phase (s : State) : (s.clearAlarm).phase = s.phase := rfl
@[simp] theorem clearAlarm_opc (s : State) : (s.clearAlarm).opc = s.opc := rfl
@[simp] theorem clearAlarm_addr (s : State) : (s.clearAlarm).addr = s.addr := rfl
@[simp] theorem clearAlarm_len (s : State) : (s.clearAlarm).len = s.len := rfl
@[simp] theorem clearAlarm_k (s : State) : (s.clearAlarm).k = s.k := rfl
@[simp] theorem clearAlarm_post (s : State) : (s.clearAlarm).post = s.post := rfl
@[simp] theorem clearAlarm_savedCfg (s : State) : (s.clearAlarm).savedCfg = s.savedCfg := rfl
@[simp] theorem clearAlarm_txb (s : State) : (s.clearAlarm).txb = s.txb := rfl
@[simp] theorem clearAlarm_xReq (s : State) : (s.clearAlarm).xReq = s.xReq := rfl
@[simp] theorem clearAlarm_xTx (s : State) : (s.clearAlarm).xTx = s.xTx := rfl
@[simp] theorem clearAlarm_sel (s : State) : (s.clearAlarm).sel = s.sel := rfl
@[simp] theorem clearAlarm_cfgOut (s : State) : (s.clearAlarm).cfgOut = s.cfgOut := rfl
@[simp] theorem clearAlarm_cfgWe (s : State) : (s.clearAlarm).cfgWe = s.cfgWe := rfl
@[simp] theorem clearAlarm_hRdata (s : State) : (s.clearAlarm).hRdata = s.hRdata := rfl
@[simp] theorem clearAlarm_cfgIn (s : State) : (s.clearAlarm).cfgIn = s.cfgIn := rfl
@[simp] theorem clearAlarm_strap (s : State) : (s.clearAlarm).strap = s.strap := rfl
@[simp] theorem clearAlarm_rst (s : State) : (s.clearAlarm).rst = s.rst := rfl
@[simp] theorem clearAlarm_inputs (s : State) : (s.clearAlarm).inputs = s.inputs := rfl
@[simp] theorem clearAlarm_trace (s : State) : (s.clearAlarm).trace = s.trace := rfl
@[simp] theorem clearAlarm_draws (s : State) : (s.clearAlarm).draws = s.draws := rfl
@[simp] theorem clearAlarm_resets (s : State) : (s.clearAlarm).resets = s.resets := rfl

/-! ### `applyReset` -/

@[simp] theorem applyReset_cmdA (s : State) : s.applyReset.cmdA = State.reset.cmdA := rfl
@[simp] theorem applyReset_cmdB (s : State) : s.applyReset.cmdB = State.reset.cmdB := rfl
@[simp] theorem applyReset_cmdC (s : State) : s.applyReset.cmdC = State.reset.cmdC := rfl
@[simp] theorem applyReset_status (s : State) : s.applyReset.status = State.reset.status := rfl
@[simp] theorem applyReset_mode12 (s : State) : s.applyReset.mode12 = s.strap := rfl
@[simp] theorem applyReset_res0 (s : State) : s.applyReset.res0 = State.reset.res0 := rfl
@[simp] theorem applyReset_res1 (s : State) : s.applyReset.res1 = State.reset.res1 := rfl
@[simp] theorem applyReset_resM (s : State) : s.applyReset.resM = State.reset.resM := rfl
@[simp] theorem applyReset_time (s : State) : s.applyReset.time = State.reset.time := rfl
@[simp] theorem applyReset_alarm (s : State) : s.applyReset.alarm = State.reset.alarm := rfl
@[simp] theorem applyReset_mem (s : State) : s.applyReset.mem = State.reset.mem := rfl
@[simp] theorem applyReset_phase (s : State) : s.applyReset.phase = State.reset.phase := rfl
@[simp] theorem applyReset_opc (s : State) : s.applyReset.opc = State.reset.opc := rfl
@[simp] theorem applyReset_addr (s : State) : s.applyReset.addr = State.reset.addr := rfl
@[simp] theorem applyReset_len (s : State) : s.applyReset.len = State.reset.len := rfl
@[simp] theorem applyReset_k (s : State) : s.applyReset.k = State.reset.k := rfl
@[simp] theorem applyReset_post (s : State) : s.applyReset.post = State.reset.post := rfl
@[simp] theorem applyReset_savedCfg (s : State) : s.applyReset.savedCfg = State.reset.savedCfg := rfl
@[simp] theorem applyReset_txb (s : State) : s.applyReset.txb = State.reset.txb := rfl
@[simp] theorem applyReset_xReq (s : State) : s.applyReset.xReq = State.reset.xReq := rfl
@[simp] theorem applyReset_xTx (s : State) : s.applyReset.xTx = State.reset.xTx := rfl
@[simp] theorem applyReset_sel (s : State) : s.applyReset.sel = State.reset.sel := rfl
@[simp] theorem applyReset_cfgOut (s : State) : s.applyReset.cfgOut = State.reset.cfgOut := rfl
@[simp] theorem applyReset_cfgWe (s : State) : s.applyReset.cfgWe = State.reset.cfgWe := rfl
@[simp] theorem applyReset_hRdata (s : State) : s.applyReset.hRdata = State.reset.hRdata := rfl
@[simp] theorem applyReset_cfgIn (s : State) : s.applyReset.cfgIn = s.cfgIn := rfl
@[simp] theorem applyReset_strap (s : State) : s.applyReset.strap = s.strap := rfl
@[simp] theorem applyReset_rst (s : State) : s.applyReset.rst = s.rst := rfl
@[simp] theorem applyReset_inputs (s : State) : s.applyReset.inputs = s.inputs := rfl
@[simp] theorem applyReset_trace (s : State) : s.applyReset.trace = State.reset.trace := rfl
@[simp] theorem applyReset_draws (s : State) : s.applyReset.draws = s.draws := rfl
@[simp] theorem applyReset_resets (s : State) : s.applyReset.resets = s.resets + 1 := rfl

end State

/-! ### `STATUS` -/

@[simp] theorem accepted_eq (st : Status) : st.accepted = ⟨st.busy, false, .ok⟩ := rfl
@[simp] theorem completed_eq (c : ResultCode) : Status.completed c = ⟨false, true, c⟩ := rfl
@[simp] theorem started_eq (st : Status) : st.started = ⟨true, st.done, st.result⟩ := rfl

theorem byte_completed_ok : Status.byte ⟨false, true, .ok⟩ = 0x02#8 := by decide
theorem byte_completed_noopBadIdx : Status.byte ⟨false, true, .noopBadIdx⟩ = 0x06#8 := by decide
theorem byte_completed_illegalOp : Status.byte ⟨false, true, .illegalOp⟩ = 0x0A#8 := by decide
theorem byte_completed_lenRange : Status.byte ⟨false, true, .lenRange⟩ = 0x0E#8 := by decide
theorem byte_running : Status.byte ⟨true, false, .ok⟩ = 0x01#8 := by decide
theorem byte_reset : Status.byte ⟨false, false, .ok⟩ = 0x00#8 := by decide

end Machine
end Sys2Proof
end

