-- ==== Sys2Proof/Laws/Memory.lean ====
section
/-! SUPPORT. The laws of `BUF` as a memory: a read after a write gives the value written, a write leaves
every other byte alone, every operation keeps the canonical form. -/

namespace Sys2Proof
namespace Machine
namespace Memory

@[simp] theorem lookup_nil (a : Nat) : Memory.lookup [] a = none := rfl

theorem lookup_insert (m : Memory) (a b : Nat) (v : Byte) :
    (m.insert a v).lookup b = if b = a then some v else m.lookup b := by
  induction m with
  | nil => simp [Memory.insert, Memory.lookup]
  | cons c m ih =>
    obtain ⟨c, w⟩ := c
    simp only [Memory.insert]
    split
    · simp [Memory.lookup]
    · split
      · subst c; simp only [Memory.lookup]; split <;> simp_all
      · simp only [Memory.lookup, ih]
        split <;> split <;> simp_all

@[simp] theorem lookup_insert_self (m : Memory) (a : Nat) (v : Byte) :
    (m.insert a v).lookup a = some v := by simp [lookup_insert]

theorem lookup_insert_of_ne (m : Memory) {a b : Nat} (v : Byte) (h : b ≠ a) :
    (m.insert a v).lookup b = m.lookup b := by simp [lookup_insert, h]

/-- The bytes of `insertAll`: the stored ones at their places, every other as before. -/
theorem lookup_insertAll (vs : List Byte) (m : Memory) (a b : Nat) :
    (m.insertAll a vs).lookup b = if a ≤ b then (vs[b - a]?.or (m.lookup b)) else m.lookup b := by
  induction vs generalizing m a with
  | nil => simp [Memory.insertAll]
  | cons v vs ih =>
    simp only [Memory.insertAll, ih, lookup_insert]
    rcases Nat.lt_trichotomy a b with h | h | h
    · obtain ⟨d, rfl⟩ : ∃ d, b = a + 1 + d := ⟨b - (a + 1), by omega⟩
      have h1 : a + 1 + d - (a + 1) = d := by omega
      have h2 : a + 1 + d - a = d + 1 := by omega
      simp [h1, h2, show a ≤ a + 1 + d by omega, show a + 1 + d ≠ a by omega]
    · subst h; simp
    · simp [show ¬ a + 1 ≤ b by omega, show ¬ a ≤ b by omega, show b ≠ a by omega]

theorem wfFrom_mono {m : Memory} {l l' : Nat} (h : m.wfFrom l = true) (hl : l' ≤ l) :
    m.wfFrom l' = true := by
  cases m with
  | nil => rfl
  | cons c m =>
    simp only [Memory.wfFrom, Bool.and_eq_true, decide_eq_true_eq] at h ⊢
    exact ⟨⟨by omega, h.1.2⟩, h.2⟩

theorem wfFrom_insert (m : Memory) (l a : Nat) (v : Byte) (hm : m.wfFrom l = true) (hl : l ≤ a)
    (ha : a < Config.bufBase + Config.bufSize) : (m.insert a v).wfFrom l = true := by
  induction m generalizing l with
  | nil => simp [Memory.insert, Memory.wfFrom, hl, ha]
  | cons c m ih =>
    obtain ⟨c, w⟩ := c
    simp only [Memory.wfFrom, Bool.and_eq_true, decide_eq_true_eq] at hm
    simp only [Memory.insert]
    split
    · rename_i h
      simp only [Memory.wfFrom, Bool.and_eq_true, decide_eq_true_eq]
      exact ⟨⟨hl, ha⟩, ⟨by omega, hm.1.2⟩, hm.2⟩
    · split
      · rename_i h h'
        subst h'
        simp only [Memory.wfFrom, Bool.and_eq_true, decide_eq_true_eq]
        exact ⟨⟨hl, ha⟩, hm.2⟩
      · simp only [Memory.wfFrom, Bool.and_eq_true, decide_eq_true_eq]
        exact ⟨hm.1, ih _ hm.2 (by omega)⟩

/-- A store into `BUF` keeps the canonical form. -/
theorem wf_insert {m : Memory} (hm : m.wf = true) {k : Nat} (hk : k < Config.bufSize) (v : Byte) :
    (m.insert (bufAddr k) v).wf = true :=
  wfFrom_insert m _ _ v hm (Nat.le_add_right _ _) (Nat.add_lt_add_left hk _)

/-- A store of several bytes into `BUF` keeps the canonical form. -/
theorem wf_insertAll {vs : List Byte} {m : Memory} (hm : m.wf = true) {k : Nat}
    (hk : k + vs.length ≤ Config.bufSize) : (m.insertAll (bufAddr k) vs).wf = true := by
  induction vs generalizing m k with
  | nil => exact hm
  | cons v vs ih =>
    simp only [List.length_cons] at hk
    exact ih (wf_insert hm (by omega) v) (k := k + 1) (by omega)

theorem wf_nil : Memory.wf [] = true := rfl

end Memory

theorem bufAddr_inj {j k : Nat} : bufAddr j = bufAddr k ↔ j = k := by simp [bufAddr]

namespace State

theorem memByte_of_mem_eq {s t : State} (hm : t.mem = s.mem) (hr : t.resets = s.resets) (a : Nat) :
    t.memByte a = s.memByte a := by simp [memByte, hm, hr]

theorem buf_of_mem_eq {s t : State} (hm : t.mem = s.mem) (hr : t.resets = s.resets) (k : Nat) :
    t.buf k = s.buf k := memByte_of_mem_eq hm hr _

theorem memByte_setBuf (s : State) (k a : Nat) (v : Byte) :
    (s.setBuf k v).memByte a = if a = bufAddr k then v else s.memByte a := by
  simp only [memByte, setBuf_mem, setBuf_resets, Memory.lookup_insert]
  split <;> simp

theorem buf_setBuf (s : State) (k j : Nat) (v : Byte) :
    (s.setBuf k v).buf j = if j = k then v else s.buf j := by
  simp [buf, memByte_setBuf, bufAddr_inj]

theorem memByte_setBufs (s : State) (vs : List Byte) (a : Nat) :
    (s.setBufs vs).memByte a =
      if bufAddr 0 ≤ a then (vs[a - bufAddr 0]?.getD (s.memByte a)) else s.memByte a := by
  simp only [memByte, setBufs_mem, setBufs_resets, Memory.lookup_insertAll]
  split
  · cases vs[a - bufAddr 0]? <;> simp
  · rfl

theorem buf_setBufs (s : State) (vs : List Byte) (k : Nat) :
    (s.setBufs vs).buf k = vs[k]?.getD (s.buf k) := by
  have h : bufAddr k - bufAddr 0 = k := by simp [bufAddr]
  have h' : bufAddr 0 ≤ bufAddr k := by simp [bufAddr]
  simp [buf, memByte_setBufs, h, h']

theorem length_resolveFrom (s : State) (os : List (Option Byte)) (j : Nat) :
    (s.resolveFrom j os).length = os.length := by
  induction os generalizing j with
  | nil => rfl
  | cons o os ih => simp [resolveFrom, ih]

theorem getElem?_resolveFrom (s : State) (os : List (Option Byte)) (j k : Nat) :
    (s.resolveFrom j os)[k]? = os[k]?.map (s.resolve (j + k)) := by
  induction os generalizing j k with
  | nil => simp [resolveFrom]
  | cons o os ih =>
    cases k with
    | zero => simp [resolveFrom]
    | succ k => simp [resolveFrom, ih, Nat.add_assoc, Nat.add_comm 1 k]

/-- The bytes a packet command leaves in `BUF`. -/
theorem buf_putPacket (s : State) (os : List (Option Byte)) (k : Nat) :
    (s.putPacket os).buf k = (os[k]?.map (s.resolve k)).getD (s.buf k) := by
  have h : (s.putPacket os).buf k = (s.setBufs (s.resolveFrom 0 os)).buf k :=
    buf_of_mem_eq rfl rfl k
  rw [h, buf_setBufs, getElem?_resolveFrom, Nat.zero_add]

/-- A packet command leaves every byte past its packet alone. -/
theorem memByte_putPacket (s : State) (os : List (Option Byte)) (a : Nat)
    (h : ∀ k, k < os.length → a ≠ bufAddr k) : (s.putPacket os).memByte a = s.memByte a := by
  have e : (s.putPacket os).memByte a = (s.setBufs (s.resolveFrom 0 os)).memByte a :=
    memByte_of_mem_eq rfl rfl a
  rw [e, memByte_setBufs]
  split
  · rename_i hle
    have : os.length ≤ a - bufAddr 0 := by
      by_contra hc
      exact h (a - bufAddr 0) (by omega) (by simp only [bufAddr] at hle ⊢; omega)
    rw [List.getElem?_eq_none (by simpa [length_resolveFrom] using this)]
    rfl
  · rfl

theorem wf_putPacket (s : State) (os : List (Option Byte)) (hm : Memory.wf s.mem = true)
    (h : os.length ≤ Config.bufSize) : Memory.wf (s.putPacket os).mem = true := by
  have e : (s.putPacket os).mem = Memory.insertAll s.mem (bufAddr 0) (s.resolveFrom 0 os) := rfl
  rw [e]
  exact Memory.wf_insertAll hm (by simpa [length_resolveFrom] using h)

@[simp] theorem resolve_some (s : State) (j : Nat) (v : Byte) : s.resolve j (some v) = v := rfl

/-! ## Operations that leave `BUF` alone -/

@[simp] theorem memByte_dropStrobe (s : State) (a : Nat) : (s.dropStrobe).memByte a = s.memByte a := rfl
@[simp] theorem buf_dropStrobe (s : State) (k : Nat) : (s.dropStrobe).buf k = s.buf k := rfl
@[simp] theorem memByte_popInput (s : State) (a : Nat) : (s.popInput).memByte a = s.memByte a := rfl
@[simp] theorem buf_popInput (s : State) (k : Nat) : (s.popInput).buf k = s.buf k := rfl
@[simp] theorem memByte_accept (s : State) (a : Nat) : (s.accept).memByte a = s.memByte a := rfl
@[simp] theorem buf_accept (s : State) (k : Nat) : (s.accept).buf k = s.buf k := rfl
@[simp] theorem memByte_complete (s : State) (c : ResultCode) (a : Nat) :
    (s.complete c).memByte a = s.memByte a := rfl
@[simp] theorem buf_complete (s : State) (c : ResultCode) (k : Nat) : (s.complete c).buf k = s.buf k := rfl
@[simp] theorem memByte_goto (s : State) (p : Phase) (a : Nat) : (s.goto p).memByte a = s.memByte a := rfl
@[simp] theorem buf_goto (s : State) (p : Phase) (k : Nat) : (s.goto p).buf k = s.buf k := rfl
@[simp] theorem memByte_setK (s : State) (n : Byte) (a : Nat) : (s.setK n).memByte a = s.memByte a := rfl
@[simp] theorem buf_setK (s : State) (n : Byte) (k : Nat) : (s.setK n).buf k = s.buf k := rfl
@[simp] theorem memByte_log (s : State) (e : BusEvent) (a : Nat) : (s.log e).memByte a = s.memByte a := rfl
@[simp] theorem buf_log (s : State) (e : BusEvent) (k : Nat) : (s.log e).buf k = s.buf k := rfl
@[simp] theorem memByte_cfgSet (s : State) (c : CfgWord) (a : Nat) : (s.cfgSet c).memByte a = s.memByte a := rfl
@[simp] theorem buf_cfgSet (s : State) (c : CfgWord) (k : Nat) : (s.cfgSet c).buf k = s.buf k := rfl
@[simp] theorem memByte_cfgSave (s : State) (a : Nat) : (s.cfgSave).memByte a = s.memByte a := rfl
@[simp] theorem buf_cfgSave (s : State) (k : Nat) : (s.cfgSave).buf k = s.buf k := rfl
@[simp] theorem memByte_driveSel (s : State) (b : Bool) (a : Nat) :
    (s.driveSel b).memByte a = s.memByte a := rfl
@[simp] theorem buf_driveSel (s : State) (b : Bool) (k : Nat) : (s.driveSel b).buf k = s.buf k := rfl
@[simp] theorem memByte_xferIssue (s : State) (tx : Byte) (a : Nat) :
    (s.xferIssue tx).memByte a = s.memByte a := rfl
@[simp] theorem buf_xferIssue (s : State) (tx : Byte) (k : Nat) : (s.xferIssue tx).buf k = s.buf k := rfl
@[simp] theorem memByte_xferDone (s : State) (rx : Byte) (a : Nat) :
    (s.xferDone rx).memByte a = s.memByte a := rfl
@[simp] theorem buf_xferDone (s : State) (rx : Byte) (k : Nat) : (s.xferDone rx).buf k = s.buf k := rfl
@[simp] theorem memByte_start (s : State) (op : Dir) (a n : Byte) (post : Post) (x : Nat) :
    (s.start op a n post).memByte x = s.memByte x := rfl
@[simp] theorem buf_start (s : State) (op : Dir) (a n : Byte) (post : Post) (k : Nat) :
    (s.start op a n post).buf k = s.buf k := rfl
@[simp] theorem memByte_setRes0 (s : State) (v : Byte) (a : Nat) : (s.setRes0 v).memByte a = s.memByte a := rfl
@[simp] theorem buf_setRes0 (s : State) (v : Byte) (k : Nat) : (s.setRes0 v).buf k = s.buf k := rfl
@[simp] theorem memByte_setHour (s : State) (a b : Byte) (m : MerCode) (x : Nat) :
    (s.setHour a b m).memByte x = s.memByte x := rfl
@[simp] theorem buf_setHour (s : State) (a b : Byte) (m : MerCode) (k : Nat) :
    (s.setHour a b m).buf k = s.buf k := rfl
@[simp] theorem memByte_putRes0 (s : State) (o : Option Byte) (a : Nat) :
    (s.putRes0 o).memByte a = s.memByte a := rfl
@[simp] theorem buf_putRes0 (s : State) (o : Option Byte) (k : Nat) : (s.putRes0 o).buf k = s.buf k := rfl
@[simp] theorem memByte_decTime (s : State) (a : Nat) : (s.decTime).memByte a = s.memByte a := rfl
@[simp] theorem buf_decTime (s : State) (k : Nat) : (s.decTime).buf k = s.buf k := rfl
@[simp] theorem memByte_decAlarm (s : State) (a : Nat) : (s.decAlarm).memByte a = s.memByte a := rfl
@[simp] theorem buf_decAlarm (s : State) (k : Nat) : (s.decAlarm).buf k = s.buf k := rfl
@[simp] theorem memByte_clearAlarm (s : State) (a : Nat) : (s.clearAlarm).memByte a = s.memByte a := rfl
@[simp] theorem buf_clearAlarm (s : State) (k : Nat) : (s.clearAlarm).buf k = s.buf k := rfl

end State
end Machine
end Sys2Proof
end

