-- ==== Sys2Proof/Laws/Codec.lean ====
section
/-! SUPPORT. One lemma per codec function: what it gives, in the relations of Safety.lean. -/

namespace Sys2Proof
namespace Machine

open Safety

theorem isWild_iff (v : Byte) : isWild v = true ↔ 128 ≤ v.toNat := by
  simp [isWild, BitVec.msb_eq_decide]

theorem isWild_false_iff (v : Byte) : isWild v = false ↔ v.toNat < 128 := by
  simp [isWild, BitVec.msb_eq_decide]

theorem bcdEncCore_toNat : ∀ v : Byte, v.toNat < 100 →
    (((v / 10#8) <<< 4) ||| (v % 10#8)).toNat = bcdOf v.toNat := by decide

theorem bcdEncCore_lt {v : Byte} (h : v.toNat < 100) :
    ∃ b, bcdEncCore v = some b ∧ b.toNat = bcdOf v.toNat :=
  ⟨_, by simp [bcdEncCore, h], bcdEncCore_toNat v h⟩

theorem bcdDecCore_toNat : ∀ b : Byte, (bcdDecCore b).toNat = ofBcd b.toNat := by decide

theorem enc_wild {v : Byte} (h : 128 ≤ v.toNat) (m : Byte) : enc v m = some v := by
  simp [enc, (isWild_iff v).2 h]

theorem enc_lt {v : Byte} (h : v.toNat < 100) (m : Byte) :
    ∃ b, enc v m = some b ∧ b.toNat = bcdOf v.toNat &&& m.toNat := by
  obtain ⟨b, hb, hn⟩ := bcdEncCore_lt h
  exact ⟨b &&& m, by simp [enc, (isWild_false_iff v).2 (by omega), hb], by simp [hn]⟩

theorem enc_encodes (s : State) (j : Nat) (v m : Byte) : Encodes v m (s.resolve j (enc v m)) := by
  refine ⟨fun h => by simp [enc_wild h], fun h => ?_⟩
  obtain ⟨b, hb, hn⟩ := enc_lt h m
  simpa [hb] using hn

theorem dec_decodes (b m : Byte) : Decodes b m (dec b m) := by
  refine ⟨fun h => by simp [dec, (isWild_iff b).2 h], fun h => ?_⟩
  simp [dec, (isWild_false_iff b).2 h, bcdDecCore_toNat]

theorem enc8_encodes (s : State) (j : Nat) (v : Byte) : EncodesYear v (s.resolve j (enc8 v)) := by
  intro h
  obtain ⟨b, hb, hn⟩ := bcdEncCore_lt h
  simpa [enc8, hb] using hn

theorem dec8_decodes (b : Byte) : DecodesYear b (dec8 b) := bcdDecCore_toNat b

theorem hourByte12_toNat : ∀ b : Byte, ∀ mer : MerCode,
    ((b &&& 0x1F#8) ||| 0x40#8 ||| merBit mer).toNat =
      (b.toNat &&& 0x1F) + 0x40 + (if mer = Mer.pm then 0x20 else 0x00) := by decide

theorem hourEnc_encodes (s : State) (j : Nat) (mode12 : Bool) (hr24 hr12 : Byte) (mer : MerCode) :
    HourEncodes mode12 hr24 hr12 mer (s.resolve j (hourEnc mode12 hr24 hr12 mer)) := by
  refine ⟨fun hm => ⟨fun h => ?_, fun h => ?_⟩, fun hm => ⟨fun h => ?_, fun h => ?_⟩⟩ <;> subst hm
  · simp [hourEnc, hourEnc24, (isWild_iff _).2 h]
  · obtain ⟨b, hb, hn⟩ := bcdEncCore_lt h
    simp [hourEnc, hourEnc24, (isWild_false_iff hr24).2 (by omega), hb, hn]
  · simp [hourEnc, hourEnc12, (isWild_iff _).2 h]
  · obtain ⟨b, hb, hn⟩ := bcdEncCore_lt h
    have := hourByte12_toNat b mer
    simpa [hourEnc, hourEnc12, (isWild_false_iff hr12).2 (by omega), hb, hn] using this

theorem hourDec_shape24 : ∀ b : Byte, b.toNat < 64 →
    (hourDec b).hr24.toNat = ofBcd b.toNat ∧
    (ofBcd b.toNat = 0 → (hourDec b).hr12.toNat = 12 ∧ (hourDec b).mer = Mer.am) ∧
    (1 ≤ ofBcd b.toNat → ofBcd b.toNat ≤ 11 →
      (hourDec b).hr12.toNat = ofBcd b.toNat ∧ (hourDec b).mer = Mer.am) ∧
    (ofBcd b.toNat = 12 → (hourDec b).hr12.toNat = 12 ∧ (hourDec b).mer = Mer.pm) ∧
    (13 ≤ ofBcd b.toNat → ofBcd b.toNat ≤ 23 →
      (hourDec b).hr12.toNat = ofBcd b.toNat - 12 ∧ (hourDec b).mer = Mer.pm) := by decide

theorem hourDec_shape12 : ∀ b : Byte, 64 ≤ b.toNat → b.toNat < 128 →
    (hourDec b).hr12.toNat = ofBcd (b.toNat % 32) ∧
    (b.toNat / 32 % 2 = 1 →
      (hourDec b).mer = Mer.pm ∧
      (hourDec b).hr24.toNat =
        (if ofBcd (b.toNat % 32) = 12 then 12 else 12 + ofBcd (b.toNat % 32))) ∧
    (b.toNat / 32 % 2 = 0 →
      (hourDec b).mer = Mer.am ∧
      (hourDec b).hr24.toNat =
        (if ofBcd (b.toNat % 32) = 12 then 0 else ofBcd (b.toNat % 32))) := by decide

theorem hourDec_decodes (b : Byte) :
    HourDecodes b (hourDec b).hr24 (hourDec b).hr12 (hourDec b).mer := by
  refine ⟨fun h => ?_, fun h => ?_, fun _ h => ?_⟩
  · simp [hourDec, (isWild_iff b).2 h]
  · exact hourDec_shape24 b h
  · exact hourDec_shape12 b ‹_› h

theorem tpktDec_record (b : Nat → Byte) :
    TimeRecordOf b (tpktDec (b 0) (b 1) (b 2) (b 3) (b 4) (b 5) (b 6)) :=
  ⟨dec_decodes _ _, dec_decodes _ _, hourDec_decodes _, dec_decodes _ _, dec_decodes _ _,
    dec_decodes _ _, dec8_decodes _⟩

theorem apktDec_record (b : Nat → Byte) :
    AlarmRecordOf b (apktDec (b 0) (b 1) (b 2) (b 3)) :=
  ⟨dec_decodes _ _, dec_decodes _ _, hourDec_decodes _, dec_decodes _ _⟩

namespace State

/-- What `tpkt_enc()` leaves in `BUF[0..6]`. -/
theorem encTime_packet (s : State) : TimePacketOf s.mode12 s.time s.encTime.buf := by
  simp only [TimePacketOf, encTime, buf_putPacket, tpktEnc]
  exact ⟨enc_encodes .., enc_encodes .., hourEnc_encodes .., enc_encodes .., enc_encodes ..,
    enc_encodes .., enc8_encodes s 6 s.time.yr⟩

/-- What `apkt_enc()` leaves in `BUF[0..3]`. -/
theorem encAlarm_packet (s : State) : AlarmPacketOf s.mode12 s.alarm s.encAlarm.buf := by
  simp only [AlarmPacketOf, encAlarm, buf_putPacket, apktEnc]
  exact ⟨enc_encodes .., enc_encodes .., hourEnc_encodes .., enc_encodes ..⟩

theorem encTime_frame (s : State) : SameBufBut 7 s s.encTime :=
  fun a h => memByte_putPacket s _ a h

theorem encAlarm_frame (s : State) : SameBufBut 4 s s.encAlarm :=
  fun a h => memByte_putPacket s _ a h

end State
end Machine
end Sys2Proof
end

