-- ==== Sys2Proof/Laws/Exec.lean ====
section
/-! SUPPORT. What issuing a command can do, said once for all sixteen: it answers a next state, it leaves the
operand registers, the bus and the rest alone, and it either completes or starts the sequencer. -/

namespace Sys2Proof
namespace Machine

open Safety

/-- The parts of the state no command's issuing step touches. -/
structure IssueFrame (s t : State) : Prop where
  operands : SameOperands s t
  bus : SameBus s t
  rest : SameRest s t
  k : t.k = s.k
  savedCfg : t.savedCfg = s.savedCfg
  txb : t.txb = s.txb

/-- How an issuing step ends: complete, or with the sequencer started on a legal length. -/
inductive IssueEnd (s t : State) : Prop
  | completed (code : ResultCode) (h : Completed code t) (l : SameLatches s t)
  | started (op : Dir) (a n : Byte) (post : Post) (h : Started op a n post s t)
      (len : n.toNat ≤ Config.maxLen)
      (time : post = .tdec → op = .rd ∧ a = timeBase ∧ n = timeLen)
      (alarm : post = .adec → op = .rd ∧ (a = alarmBase 0#8 ∨ a = alarmBase 1#8) ∧ n = alarmLen)

theorem IssueFrame.of_accept_complete (s : State) (code : ResultCode) :
    IssueFrame s (s.accept.complete code) := by
  constructor <;> simp [SameOperands, SameBus, SameRest]

theorem started_of_start (s u : State) (op : Dir) (a n : Byte) (post : Post)
    (hk : u.k = s.k) (hc : u.savedCfg = s.savedCfg) (ht : u.txb = s.txb)
    (hs : u.status = s.status.accepted) : Started op a n post s (u.start op a n post) := by
  simp [Started, hk, hc, ht, hs]

theorem alarmIndexOk_iff (i : Byte) : alarmIndexOk i = true ↔ i = 0#8 ∨ i = 1#8 := by
  simp [alarmIndexOk]

/-- Every command answers a next state, with its frame, its end, and `BUF` still in canonical form. -/
theorem exec_spec (i : Instr) (s : State) :
    ∃ t, exec i s = .next t ∧ IssueFrame s t ∧ IssueEnd s t ∧
      (Memory.wf s.mem = true → Memory.wf t.mem = true) := by
  have codec : ∀ u : State, IssueFrame s u → SameLatches s u →
      (Memory.wf s.mem = true → Memory.wf u.mem = true) →
      IssueFrame s (u.complete .ok) ∧ IssueEnd s (u.complete .ok) ∧
        (Memory.wf s.mem = true → Memory.wf (u.complete .ok).mem = true) := by
    intro u hf hl hm
    exact ⟨⟨hf.operands, hf.bus, hf.rest, hf.k, hf.savedCfg, hf.txb⟩,
      .completed .ok ⟨rfl, rfl⟩ hl, hm⟩
  have frame : ∀ u : State, SameOperands s u → SameBus s u → SameRest s u → SameLatches s u →
      IssueFrame s u := fun u ho hb hr hl =>
    ⟨ho, hb, hr, hl.2.2.2.1, hl.2.2.2.2.2.1, hl.2.2.2.2.2.2⟩
  have bus : ∀ (u : State) (op : Dir) (a n : Byte) (post : Post), IssueFrame s u →
      u.status = s.status.accepted → n.toNat ≤ Config.maxLen →
      (post = .tdec → op = .rd ∧ a = timeBase ∧ n = timeLen) →
      (post = .adec → op = .rd ∧ (a = alarmBase 0#8 ∨ a = alarmBase 1#8) ∧ n = alarmLen) →
      IssueFrame s (u.start op a n post) ∧ IssueEnd s (u.start op a n post) := by
    intro u op a n post hf hs hn ht ha
    exact ⟨⟨hf.operands, hf.bus, hf.rest, hf.k, hf.savedCfg, hf.txb⟩,
      .started op a n post (started_of_start s u op a n post hf.k hf.savedCfg hf.txb hs) hn ht ha⟩
  have accept : IssueFrame s s.accept := by
    constructor <;> simp [SameOperands, SameBus, SameRest]
  have raise : ∀ (u : State) (code : ResultCode), IssueFrame s u → SameLatches s u →
      IssueFrame s (u.raiseResult code) ∧ IssueEnd s (u.raiseResult code) := by
    intro u code hf hl
    exact ⟨⟨hf.operands, hf.bus, hf.rest, hf.k, hf.savedCfg, hf.txb⟩,
      .completed code ⟨rfl, rfl⟩ hl⟩
  have packet : ∀ os, IssueFrame s (s.accept.putPacket os) ∧ SameLatches s (s.accept.putPacket os) := by
    intro os
    exact ⟨by constructor <;> simp [SameOperands, SameBus, SameRest], by simp [SameLatches]⟩
  have same : SameLatches s s := by simp [SameLatches]
  have here : IssueFrame s s := by constructor <;> simp [SameOperands, SameBus, SameRest]
  have burst : ∀ op, IssueFrame s (s.issueBurst op) ∧ IssueEnd s (s.issueBurst op) ∧
      (Memory.wf s.mem = true → Memory.wf (s.issueBurst op).mem = true) := by
    intro op
    unfold State.issueBurst
    split
    · exact ⟨(raise s _ here same).1, (raise s _ here same).2, id⟩
    · have := bus s.accept op s.opA s.opB .none accept rfl (by omega) (by simp) (by simp)
      exact ⟨this.1, this.2, id⟩
  cases i with
  | bcdEnc | bcd8Enc | hourEnc =>
    exact ⟨_, rfl, codec _ (frame _ (by simp [SameOperands]) (by simp [SameBus]) (by simp [SameRest])
      (by simp [SameLatches])) (by simp [SameLatches]) id⟩
  | bcdDec | bcd8Dec | hourDec | tpktDec | apktDec =>
    exact ⟨_, rfl, codec _ (frame _ (by simp [SameOperands]) (by simp [SameBus]) (by simp [SameRest])
      (by simp [SameLatches])) (by simp [SameLatches]) id⟩
  | tpktEnc =>
    exact ⟨_, rfl, codec _ (packet _).1 (packet _).2 fun h =>
      State.wf_putPacket _ _ h (by simp [tpktEnc, Config.bufSize])⟩
  | apktEnc =>
    exact ⟨_, rfl, codec _ (packet _).1 (packet _).2 fun h =>
      State.wf_putPacket _ _ h (by simp [apktEnc, Config.bufSize])⟩
  | burstRd => exact ⟨_, rfl, burst .rd⟩
  | burstWr => exact ⟨_, rfl, burst .wr⟩
  | setTime =>
    have := bus s.accept.encTime .wr timeBase timeLen .none (packet _).1 rfl (by decide) (by simp)
      (by simp)
    exact ⟨_, rfl, this.1, this.2, fun h =>
      State.wf_putPacket _ _ h (by simp [tpktEnc, Config.bufSize])⟩
  | getTime =>
    have := bus s.accept .rd timeBase timeLen .tdec accept rfl (by decide) (by simp) (by simp)
    exact ⟨_, rfl, this.1, this.2, id⟩
  | setAlarm =>
    simp only [exec, execSetAlarm]
    split
    · have := bus s.accept.encAlarm .wr (alarmBase s.opA) alarmLen .none (packet _).1 rfl (by decide)
        (by simp) (by simp)
      exact ⟨_, rfl, this.1, this.2, fun h =>
        State.wf_putPacket _ _ h (by simp [apktEnc, Config.bufSize])⟩
    · exact ⟨_, rfl, (raise s _ here same).1, (raise s _ here same).2, id⟩
  | getAlarm =>
    simp only [exec, execGetAlarm]
    split
    · rename_i h
      have := bus s.accept .rd (alarmBase s.opA) alarmLen .adec accept rfl (by decide) (by simp)
        (fun _ => ⟨rfl, ((alarmIndexOk_iff _).1 h).imp (by rintro h; rw [h]) (by rintro h; rw [h]), rfl⟩)
      exact ⟨_, rfl, this.1, this.2, id⟩
    · have := raise s.clearAlarm .noopBadIdx
        (by constructor <;> simp [SameOperands, SameBus, SameRest]) (by simp [SameLatches])
      exact ⟨_, rfl, this.1, this.2, id⟩

/-- The same for the issue of any opcode, `ILLEGAL_OP` among the ends. -/
theorem issue_spec (v : Byte) (s : State) :
    ∃ t, issue v s = .next t ∧ IssueFrame s t ∧ IssueEnd s t ∧
      (Memory.wf s.mem = true → Memory.wf t.mem = true) := by
  unfold issue
  split
  · exact exec_spec _ s
  · exact ⟨_, rfl, IssueFrame.of_accept_complete s _,
      .completed .illegalOp ⟨rfl, rfl⟩ (by simp [SameLatches, State.raiseResult]), id⟩

end Machine
end Sys2Proof
end

