-- ==== Sys2Proof/Laws/Step.lean ====
section
/-! SUPPORT. What one step can do, said once: a reset step, or a move; each move by its own lemma. -/

namespace Sys2Proof
namespace Machine

open Safety

/-! ## Host registers -/

@[simp] theorem hostReg_zero : hostReg 0x00#8 = .cmdOp := rfl

theorem hostReg_cmdOp_iff : ∀ a : Byte, hostReg a = .cmdOp ↔ a = 0x00#8 := by decide

/-- What a host write that is no command leaves alone. -/
structure WriteFrame (s t : State) : Prop where
  status : t.status = s.status
  results : SameResults s t
  phase : t.phase = s.phase
  latches : SameLatches s t
  bus : SameBus s t
  rest : SameRest s t
  draws : t.draws = s.draws

theorem writeReg_frame (s : State) (v : Byte) (r : HostReg) : WriteFrame s (s.writeReg v r) := by
  cases r <;>
    exact ⟨rfl, ⟨rfl, rfl, rfl⟩, rfl, ⟨rfl, rfl, rfl, rfl, rfl, rfl, rfl⟩,
      ⟨rfl, rfl, rfl, rfl, rfl, rfl, rfl⟩, ⟨rfl, rfl, rfl, rfl, rfl, rfl⟩, rfl⟩

theorem hostReg_buf : ∀ a : Byte, ∀ k, hostReg a = .buf k → bufAddr k = a.toNat ∧ k < Config.bufSize := by
  intro a k h
  unfold hostReg at h
  split at h
  · simp only [HostReg.buf.injEq] at h
    have := a.isLt
    simp only [bufAddr, Config.bufBase, Config.bufSize]
    omega
  · split at h <;> simp at h

theorem wf_writeReg (s : State) (v a : Byte) (h : Memory.wf s.mem = true) :
    Memory.wf (s.writeReg v (hostReg a)).mem = true := by
  cases hr : hostReg a with
  | buf k => exact Memory.wf_insert h (hostReg_buf a k hr).2 v
  | _ => exact h

/-! ## The pins -/

theorem setPins_eq (s : State) (i : Input) :
    s.setPins i = { s with cfgIn := (s.setPins i).cfgIn, strap := (s.setPins i).strap,
                           rst := (s.setPins i).rst } := by
  cases i <;> rfl

/-- A step in reset (R260). -/
theorem step_resetting {s : State} (h : resetting s = true) :
    step s = .next ((before s).setPins s.nextInput).applyReset := by
  have e : ((before s).setPins s.nextInput).rst = (s.popInput.setPins s.nextInput).rst := by
    unfold before; cases s.nextInput <;> rfl
  simp only [resetting, Bool.or_eq_true] at h
  unfold step act
  simp only [before] at e ⊢
  rw [if_pos]
  simpa [e] using h

/-- A step outside reset is its move. -/
theorem step_not_resetting {s : State} (h : resetting s = false) :
    step s = move s.nextInput ((before s).setPins s.nextInput) := by
  have e : ((before s).setPins s.nextInput).rst = (s.popInput.setPins s.nextInput).rst := by
    unfold before; cases s.nextInput <;> rfl
  simp only [resetting, Bool.or_eq_false_iff] at h
  unfold step act
  simp only [before] at e ⊢
  rw [if_neg]
  simp [e, h.1, h.2]

theorem rst_of_not_resetting {s : State} (h : resetting s = false) : s.rst = false := by
  simp only [resetting, Bool.or_eq_false_iff] at h
  exact h.1

theorem not_resetting_of {s : State} (h : s.rst = false) (hi : ∀ b, s.nextInput ≠ .rst b) :
    resetting s = false := by
  unfold resetting
  cases hn : s.nextInput with
  | rst b => exact absurd hn (hi b)
  | _ => simp [State.setPins, h]

theorem step_hostRead {s : State} {a : Byte} (h : s.rst = false) (hi : s.nextInput = .hostRead a) :
    step s = .next { before s with hRdata := s.hostByte a } := by
  rw [step_not_resetting (not_resetting_of h (by simp [hi])), hi]
  have : (before s).hostByte a = s.hostByte a := by
    simp only [State.hostByte]
    cases hostReg a <;> rfl
  simp [move, hostRead, State.setPins, this]

theorem step_hostWrite_busy {s : State} {a v : Byte} (h : s.rst = false) (hb : s.status.busy = true)
    (hi : s.nextInput = .hostWrite a v) : step s = .next (before s) := by
  rw [step_not_resetting (not_resetting_of h (by simp [hi])), hi]
  simp [move, hostWrite, State.setPins, before, hb]

theorem step_issue {s : State} {v : Byte} (h : Ready s) (hi : s.nextInput = .hostWrite 0x00#8 v) :
    step s = issue v (before s) := by
  rw [step_not_resetting (not_resetting_of h.1 (by simp [hi])), hi]
  simp [move, hostWrite, State.setPins, before, h.2]

theorem step_hostWrite {s : State} {a v : Byte} (h : Ready s) (ha : a ≠ 0x00#8)
    (hi : s.nextInput = .hostWrite a v) : step s = .next ((before s).writeReg v (hostReg a)) := by
  rw [step_not_resetting (not_resetting_of h.1 (by simp [hi])), hi]
  have : hostReg a ≠ .cmdOp := fun hc => ha ((hostReg_cmdOp_iff a).1 hc)
  have hb : ¬ (before s).status.busy = true := by simp [before, h.2]
  simp only [move, hostWrite, State.setPins, if_neg hb]

theorem step_sequencer {s : State} (h : s.rst = false) (hi : s.nextInput = .sequencer) :
    step s = (before s).sequencerStep := by
  rw [step_not_resetting (not_resetting_of h (by simp [hi])), hi]
  rfl

theorem step_transport {s : State} {rx : Byte} (h : s.rst = false) (hi : s.nextInput = .transport rx) :
    step s = (before s).transportStep rx := by
  rw [step_not_resetting (not_resetting_of h (by simp [hi])), hi]
  rfl

/-- What another bus user's move can be. -/
theorem busUserStep_eq (s : State) :
    s.busUserStep = if s.phase = .idle then .next s else .refused .busUserInTransaction := by
  unfold State.busUserStep
  cases s.phase <;> rfl

theorem step_busUser {s : State} {c : CfgWord} (h : s.rst = false) (hi : s.nextInput = .busUser c) :
    step s = if s.phase = .idle then .next { before s with cfgIn := c }
      else .refused .busUserInTransaction := by
  rw [step_not_resetting (not_resetting_of h (by simp [hi])), hi]
  exact busUserStep_eq _

theorem step_strap {s : State} {b : Bool} (h : s.rst = false) (hi : s.nextInput = .strap b) :
    step s = .next { before s with strap := b } := by
  rw [step_not_resetting (not_resetting_of h (by simp [hi])), hi]
  rfl

theorem step_rst_falls {s : State} {b : Bool} (h : resetting s = false) (hi : s.nextInput = .rst b) :
    step s = .next (before s) ∧ b = false := by
  have hb : b = false := by
    simp only [resetting, hi, State.setPins, Bool.or_eq_false_iff] at h
    exact h.2
  have hr := rst_of_not_resetting h
  refine ⟨?_, hb⟩
  rw [step_not_resetting h, hi, hb]
  have : (before s).rst = false := hr
  simp only [move, State.setPins]
  rw [← this]

/-- What a step outside reset can be, with the premises of each case. -/
inductive StepCase (s t : State) : Prop
  | read (a : Byte) (hi : s.nextInput = .hostRead a) (ht : t = { before s with hRdata := s.hostByte a })
  | busyWrite (a v : Byte) (hi : s.nextInput = .hostWrite a v) (hb : s.status.busy = true)
      (ht : t = before s)
  | issue (v : Byte) (hi : s.nextInput = .hostWrite 0x00#8 v) (hb : s.status.busy = false)
      (ht : Machine.issue v (before s) = .next t)
  | write (a v : Byte) (hi : s.nextInput = .hostWrite a v) (hb : s.status.busy = false)
      (ha : a ≠ 0x00#8) (ht : t = (before s).writeReg v (hostReg a))
  | sequencer (hi : s.nextInput = .sequencer) (ht : (before s).sequencerStep = .next t)
  | transport (rx : Byte) (hi : s.nextInput = .transport rx) (ht : (before s).transportStep rx = .next t)
  | busUser (c : CfgWord) (hi : s.nextInput = .busUser c) (hp : s.phase = .idle)
      (ht : t = { before s with cfgIn := c })
  | strap (b : Bool) (hi : s.nextInput = .strap b) (ht : t = { before s with strap := b })
  | rst (hi : s.nextInput = .rst false) (ht : t = before s)

/-- Inversion of a step outside reset. -/
theorem step_cases {s t : State} (h : resetting s = false) (hs : step s = .next t) : StepCase s t := by
  have hr := rst_of_not_resetting h
  cases hi : s.nextInput with
  | hostRead a =>
    rw [step_hostRead hr hi] at hs
    exact .read a hi (by injection hs with hs; exact hs.symm)
  | hostWrite a v =>
    cases hb : s.status.busy with
    | true =>
      rw [step_hostWrite_busy hr hb hi] at hs
      exact .busyWrite a v hi hb (by injection hs with hs; exact hs.symm)
    | false =>
      by_cases ha : a = 0x00#8
      · subst ha
        rw [step_issue ⟨hr, hb⟩ hi] at hs
        exact .issue v hi hb hs
      · rw [step_hostWrite ⟨hr, hb⟩ ha hi] at hs
        exact .write a v hi hb ha (by injection hs with hs; exact hs.symm)
  | sequencer => exact .sequencer hi (by rw [← step_sequencer hr hi]; exact hs)
  | transport rx => exact .transport rx hi (by rw [← step_transport hr hi]; exact hs)
  | busUser c =>
    rw [step_busUser hr hi] at hs
    split at hs
    · rename_i hp
      exact .busUser c hi hp (by injection hs with hs; exact hs.symm)
    · simp at hs
  | strap b =>
    rw [step_strap hr hi] at hs
    exact .strap b hi (by injection hs with hs; exact hs.symm)
  | rst b =>
    obtain ⟨e, rfl⟩ := step_rst_falls h hi
    rw [e] at hs
    exact .rst hi (by injection hs with hs; exact hs.symm)

/-- Inversion of the sequencer's turn. -/
theorem sequencerStep_cases {s t : State} (h : s.sequencerStep = .next t) :
    (s.phase = .idle ∧ t = s) ∨ (s.phase = .save ∧ t = s.stepSave) ∨
    (s.phase = .assert ∧ t = s.stepAssert) ∨ (s.phase = .addr ∧ t = s.stepAddr) ∨
    (waiting s.phase = true ∧ t = s) ∨
    (s.phase = .data ∧ s.k.toNat < Config.bufSize ∧ t = s.stepData) ∨
    (s.phase = .release ∧ t = s.stepRelease) ∨ (s.phase = .restore ∧ t = s.stepRestore) ∨
    (s.phase = .finish ∧ t = s.stepFinish) := by
  unfold State.sequencerStep at h
  cases hp : s.phase <;> simp only [hp] at h
  case data =>
    unfold State.withBufIndex State.bufIndexOk at h
    split at h
    · injection h with h
      rename_i hk
      simp [h.symm, of_decide_eq_true hk]
    · simp at h
  all_goals
    injection h with h
    simp [h.symm, waiting]

/-- Inversion of the transport's move. -/
theorem transportStep_cases {s t : State} {rx : Byte} (h : s.transportStep rx = .next t) :
    (s.phase = .addrWait ∧ t = s.doneAddr rx) ∨
    (s.phase = .dataWait ∧ s.k.toNat < Config.bufSize ∧ t = s.doneData rx) ∨
    (waiting s.phase = false ∧ t = s) := by
  unfold State.transportStep at h
  cases hp : s.phase <;> simp only [hp] at h
  case dataWait =>
    unfold State.withBufIndex State.bufIndexOk at h
    split at h
    · injection h with h
      rename_i hk
      simp [h.symm, of_decide_eq_true hk, waiting]
    · simp at h
  all_goals
    injection h with h
    simp [h.symm, waiting]

end Machine
end Sys2Proof
end

