-- ==== Sys2Proof/Laws/Engine.lean ====
section
/-! SUPPORT. Runs of several steps: how a run is cut into parts, and what the parts of a transaction do when
every transfer completes when first awaited. -/

namespace Sys2Proof
namespace Machine

open Safety

/-! ## Runs -/

theorem run_next {s u : State} (n : Nat) (h : step s = .next u) : core.run (n + 1) s = core.run n u := by
  have h' : core.step s = .next u := h
  simp only [Host.Core.run]
  rw [h']

theorem run_one {s u : State} (h : step s = .next u) : core.run 1 s = .next u := run_next 0 h

/-- A run of `j + n` steps is a run of `n` steps from where a run of `j` steps ended. -/
theorem run_add {s u : State} (j n : Nat) (h : core.run j s = .next u) :
    core.run (j + n) s = core.run n u := by
  induction j generalizing s with
  | zero => injection h with h; subst h; rw [Nat.zero_add]
  | succ j ih =>
    rw [Nat.succ_add]
    cases hs : step s with
    | next v =>
      rw [run_next _ hs] at h ⊢
      exact ih h
    | fault r =>
      have hs' : core.step s = .fault r := hs
      simp only [Host.Core.run] at h
      rw [hs'] at h
      simp at h
    | refused r =>
      have hs' : core.step s = .refused r := hs
      simp only [Host.Core.run] at h
      rw [hs'] at h
      simp at h

/-- Two runs, one after the other. -/
theorem run_trans {s u t : State} {j n : Nat} (h : core.run j s = .next u) (h' : core.run n u = .next t) :
    core.run (j + n) s = .next t := (run_add j n h).trans h'

/-! ## The next move -/

theorem nextInput_cons {s : State} {m : Input} {ms : List Input} (h : s.inputs = m :: ms) :
    s.nextInput = m := by simp [State.nextInput, h]

theorem before_inputs {s : State} {m : Input} {ms : List Input} (h : s.inputs = m :: ms) :
    (before s).inputs = ms := by simp [before, h]

/-! ## The parts of a transaction -/

/-- What no step of a transaction changes before FINISH, its data bytes apart. -/
structure EngineFrame (s t : State) : Prop where
  operands : SameOperands s t
  results : SameResults s t
  records : SameRecords s t
  status : t.status = s.status
  mode12 : t.mode12 = s.mode12
  opc : t.opc = s.opc
  addr : t.addr = s.addr
  len : t.len = s.len
  post : t.post = s.post
  hRdata : t.hRdata = s.hRdata
  strap : t.strap = s.strap
  rst : t.rst = s.rst
  resets : t.resets = s.resets
  draws : t.draws = s.draws

theorem EngineFrame.trans {s t u : State} (h : EngineFrame s t) (h' : EngineFrame t u) :
    EngineFrame s u where
  operands := ⟨h'.operands.1.trans h.operands.1, h'.operands.2.1.trans h.operands.2.1,
    h'.operands.2.2.trans h.operands.2.2⟩
  results := ⟨h'.results.1.trans h.results.1, h'.results.2.1.trans h.results.2.1,
    h'.results.2.2.trans h.results.2.2⟩
  records := ⟨h'.records.1.trans h.records.1, h'.records.2.trans h.records.2⟩
  status := h'.status.trans h.status
  mode12 := h'.mode12.trans h.mode12
  opc := h'.opc.trans h.opc
  addr := h'.addr.trans h.addr
  len := h'.len.trans h.len
  post := h'.post.trans h.post
  hRdata := h'.hRdata.trans h.hRdata
  strap := h'.strap.trans h.strap
  rst := h'.rst.trans h.rst
  resets := h'.resets.trans h.resets
  draws := h'.draws.trans h.draws

/-! ### The steps, one by one -/

section steps

variable {s : State} {ms : List Input} (hr : s.rst = false)
include hr

theorem step_save (hp : s.phase = .save) (hi : s.inputs = .sequencer :: ms) :
    ∃ u, step s = .next u ∧ EngineFrame s u ∧ u.mem = s.mem ∧ u.inputs = ms ∧ u.phase = .assert ∧
      u.savedCfg = s.cfgIn ∧ u.cfgIn = Config.engineCfg ∧ u.sel = s.sel ∧ u.xReq = s.xReq ∧
      u.trace = s.trace ++ [.cfgSave s.cfgIn, .cfgSet Config.engineCfg] := by
  refine ⟨(before s).stepSave, ?_, ?_, ?_⟩
  · rw [step_sequencer hr (nextInput_cons hi), State.sequencerStep, show (before s).phase = .save from hp]
  · constructor <;> simp [SameOperands, SameResults, SameRecords, before, State.stepSave]
  · simp [before, State.stepSave, hi]

theorem step_assert (hp : s.phase = .assert) (hi : s.inputs = .sequencer :: ms) :
    ∃ u, step s = .next u ∧ EngineFrame s u ∧ u.mem = s.mem ∧ u.inputs = ms ∧ u.phase = .addr ∧
      u.savedCfg = s.savedCfg ∧ u.cfgIn = s.cfgIn ∧ u.sel = State.selLevel true ∧ u.xReq = s.xReq ∧
      u.trace = s.trace ++ [.sel true] := by
  refine ⟨(before s).stepAssert, ?_, ?_, ?_⟩
  · rw [step_sequencer hr (nextInput_cons hi), State.sequencerStep, show (before s).phase = .assert from hp]
  · constructor <;> simp [SameOperands, SameResults, SameRecords, before, State.stepAssert]
  · simp [before, State.stepAssert, hi]

theorem step_addr (hp : s.phase = .addr) (hi : s.inputs = .sequencer :: ms) :
    ∃ u, step s = .next u ∧ EngineFrame s u ∧ u.mem = s.mem ∧ u.inputs = ms ∧ u.phase = .addrWait ∧
      u.savedCfg = s.savedCfg ∧ u.cfgIn = s.cfgIn ∧ u.sel = s.sel ∧ u.txb = s.abyte ∧
      u.trace = s.trace := by
  refine ⟨(before s).stepAddr, ?_, ?_, ?_⟩
  · rw [step_sequencer hr (nextInput_cons hi), State.sequencerStep, show (before s).phase = .addr from hp]
  · constructor <;> simp [SameOperands, SameResults, SameRecords, before, State.stepAddr]
  · simp [before, State.stepAddr, hi]
    rfl

theorem step_addrWait {rx : Byte} (hp : s.phase = .addrWait) (hi : s.inputs = .transport rx :: ms) :
    ∃ u, step s = .next u ∧ EngineFrame s u ∧ u.mem = s.mem ∧ u.inputs = ms ∧
      u.phase = (if s.len = 0#8 then .release else .data) ∧ u.k = 0#8 ∧ u.xReq = false ∧
      u.savedCfg = s.savedCfg ∧ u.cfgIn = s.cfgIn ∧ u.sel = s.sel ∧
      u.trace = s.trace ++ [.xfer s.txb rx] := by
  refine ⟨(before s).doneAddr rx, ?_, ?_, ?_⟩
  · rw [step_transport hr (nextInput_cons hi), State.transportStep,
      show (before s).phase = .addrWait from hp]
  · constructor <;> simp [SameOperands, SameResults, SameRecords, before, State.doneAddr]
  · simp [before, State.doneAddr, hi]
    rfl

theorem step_data (hp : s.phase = .data) (hk : s.k.toNat < 128) (hi : s.inputs = .sequencer :: ms) :
    ∃ u, step s = .next u ∧ EngineFrame s u ∧ u.mem = s.mem ∧ u.inputs = ms ∧ u.phase = .dataWait ∧
      u.k = s.k ∧ u.savedCfg = s.savedCfg ∧ u.cfgIn = s.cfgIn ∧ u.sel = s.sel ∧ u.txb = s.dataByte ∧
      u.trace = s.trace := by
  refine ⟨(before s).stepData, ?_, ?_, ?_⟩
  · have hk' : (before s).bufIndexOk = true := decide_eq_true hk
    rw [step_sequencer hr (nextInput_cons hi), State.sequencerStep, show (before s).phase = .data from hp]
    simp [State.withBufIndex, hk']
  · constructor <;> simp [SameOperands, SameResults, SameRecords, before, State.stepData]
  · simp [before, State.stepData, hi]
    rfl

theorem step_dataWait {rx : Byte} (hp : s.phase = .dataWait) (hk : s.k.toNat < 128)
    (hi : s.inputs = .transport rx :: ms) :
    ∃ u, step s = .next u ∧ EngineFrame s u ∧ u.mem = (s.storeAnswer rx).mem ∧ u.inputs = ms ∧
      u.phase = (if s.k.toNat + 1 = s.len.toNat then .release else .data) ∧
      u.k.toNat = s.k.toNat + 1 ∧ u.xReq = false ∧ u.savedCfg = s.savedCfg ∧ u.cfgIn = s.cfgIn ∧
      u.sel = s.sel ∧ u.trace = s.trace ++ [.xfer s.txb rx] := by
  have hn : (s.k + 1#8).toNat = s.k.toNat + 1 := by
    rw [BitVec.toNat_add, BitVec.toNat_ofNat]
    omega
  have hl : s.k + 1#8 = s.len ↔ s.k.toNat + 1 = s.len.toNat := by
    rw [← hn]
    exact ⟨fun h => by rw [h], BitVec.eq_of_toNat_eq⟩
  refine ⟨(before s).doneData rx, ?_, ?_, ?_⟩
  · have hk' : (before s).bufIndexOk = true := decide_eq_true hk
    rw [step_transport hr (nextInput_cons hi), State.transportStep,
      show (before s).phase = .dataWait from hp]
    simp [State.withBufIndex, hk']
  · unfold State.doneData State.storeAnswer
    constructor <;> cases (before s).opc <;> simp [SameOperands, SameResults, SameRecords, before]
  · unfold State.doneData State.storeAnswer
    rw [show (before s).opc = s.opc from rfl]
    cases s.opc <;> simp [before, hi, hn, hl]

theorem step_release (hp : s.phase = .release) (hi : s.inputs = .sequencer :: ms) :
    ∃ u, step s = .next u ∧ EngineFrame s u ∧ u.mem = s.mem ∧ u.inputs = ms ∧ u.phase = .restore ∧
      u.savedCfg = s.savedCfg ∧ u.cfgIn = s.cfgIn ∧ u.sel = State.selLevel false ∧ u.xReq = s.xReq ∧
      u.trace = s.trace ++ [.sel false] := by
  refine ⟨(before s).stepRelease, ?_, ?_, ?_⟩
  · rw [step_sequencer hr (nextInput_cons hi), State.sequencerStep,
      show (before s).phase = .release from hp]
  · constructor <;> simp [SameOperands, SameResults, SameRecords, before, State.stepRelease]
  · simp [before, State.stepRelease, hi]

theorem step_restore (hp : s.phase = .restore) (hi : s.inputs = .sequencer :: ms) :
    ∃ u, step s = .next u ∧ EngineFrame s u ∧ u.mem = s.mem ∧ u.inputs = ms ∧ u.phase = .finish ∧
      u.cfgIn = s.savedCfg ∧ u.sel = s.sel ∧ u.xReq = s.xReq ∧
      u.trace = s.trace ++ [.cfgSet s.savedCfg] := by
  refine ⟨(before s).stepRestore, ?_, ?_, ?_⟩
  · rw [step_sequencer hr (nextInput_cons hi), State.sequencerStep,
      show (before s).phase = .restore from hp]
  · constructor <;> simp [SameOperands, SameResults, SameRecords, before, State.stepRestore]
  · simp [before, State.stepRestore, hi]

theorem step_finish (hp : s.phase = .finish) (hi : s.inputs = .sequencer :: ms) :
    step s = .next (before s).stepFinish := by
  rw [step_sequencer hr (nextInput_cons hi), State.sequencerStep, show (before s).phase = .finish from hp]

end steps

/-! ### The parts -/

/-- SAVE, ASSERT, ADDR and ADDR_WAIT, with the address byte's transfer completed by `rx`. -/
theorem run_open {s : State} {rx : Byte} {rest : List Input} (hr : s.rst = false) (hp : s.phase = .save)
    (hi : s.inputs = .sequencer :: .sequencer :: .sequencer :: .transport rx :: rest) :
    ∃ t, core.run 4 s = .next t ∧ EngineFrame s t ∧ t.mem = s.mem ∧ t.inputs = rest ∧
      t.phase = (if s.len = 0#8 then .release else .data) ∧ t.k = 0#8 ∧ t.xReq = false ∧
      t.savedCfg = s.cfgIn ∧ t.cfgIn = Config.engineCfg ∧ t.sel = State.selLevel true ∧
      t.trace = s.trace ++ [.cfgSave s.cfgIn, .cfgSet Config.engineCfg, .sel true, .xfer s.abyte rx] := by
  obtain ⟨u, h1, f1, m1, i1, p1, s1, c1, l1, x1, t1⟩ := step_save hr hp hi
  obtain ⟨v, h2, f2, m2, i2, p2, s2, c2, l2, x2, t2⟩ := step_assert (f1.rst.trans hr) p1 i1
  have f2 := f1.trans f2
  obtain ⟨w, h3, f3, m3, i3, p3, s3, c3, l3, x3, t3⟩ := step_addr (f2.rst.trans hr) p2 i2
  have hb : v.abyte = s.abyte := by simp only [State.abyte, f2.opc, f2.addr]
  have f3 := f2.trans f3
  obtain ⟨t, h4, f4, m4, i4, p4, k4, x4, s4, c4, l4, t4⟩ := step_addrWait (f3.rst.trans hr) p3 i3
  refine ⟨t, run_trans (run_trans (run_one h1) (run_one h2)) (run_trans (run_one h3) (run_one h4)),
    f3.trans f4, m4.trans (m3.trans (m2.trans m1)), i4, f3.len ▸ p4, k4, x4,
    s4.trans (s3.trans (s2.trans s1)), c4.trans (c3.trans (c2.trans c1)), l4.trans (l3.trans l2), ?_⟩
  rw [t4, t3, t2, t1, x3, hb]
  simp

/-- One data phase, with its transfer completed by `rx`. -/
theorem run_data_one {s : State} {rx : Byte} {rest : List Input} (hr : s.rst = false) (hp : s.phase = .data)
    (hk : s.k.toNat < s.len.toNat) (hl : s.len.toNat ≤ 128)
    (hi : s.inputs = .sequencer :: .transport rx :: rest) :
    ∃ t, core.run 2 s = .next t ∧ EngineFrame s t ∧ t.mem = (s.storeAnswer rx).mem ∧ t.inputs = rest ∧
      t.phase = (if s.k.toNat + 1 = s.len.toNat then .release else .data) ∧
      t.k.toNat = s.k.toNat + 1 ∧ t.xReq = false ∧ t.savedCfg = s.savedCfg ∧ t.cfgIn = s.cfgIn ∧
      t.sel = s.sel ∧ t.trace = s.trace ++ [.xfer s.dataByte rx] := by
  obtain ⟨u, h1, f1, m1, i1, p1, k1, s1, c1, l1, x1, t1⟩ := step_data hr hp (by omega) hi
  obtain ⟨t, h2, f2, m2, i2, p2, k2, x2, s2, c2, l2, t2⟩ :=
    step_dataWait (f1.rst.trans hr) p1 (k1 ▸ (by omega)) i1
  refine ⟨t, run_trans (run_one h1) (run_one h2), f1.trans f2, ?_, i2, f1.len ▸ k1 ▸ p2, k1 ▸ k2, x2,
    s2.trans s1, c2.trans c1, l2.trans l1, by rw [t2, t1, x1]⟩
  rw [m2]
  simp only [State.storeAnswer, f1.opc]
  cases s.opc <;> simp [m1, k1]

/-- All data phases of a read from `K` on: the answers land in `BUF[K..]`. -/
theorem run_reads {rxs : List Byte} : ∀ {s : State} {rest : List Input}, s.rst = false → s.phase = .data →
    s.opc = .rd → rxs ≠ [] → s.k.toNat + rxs.length = s.len.toNat → s.len.toNat ≤ 128 →
    s.inputs = rxs.flatMap (fun rx => [.sequencer, .transport rx]) ++ rest →
    ∃ t, core.run (2 * rxs.length) s = .next t ∧ EngineFrame s t ∧ t.inputs = rest ∧
      t.phase = .release ∧ t.xReq = false ∧ t.savedCfg = s.savedCfg ∧ t.cfgIn = s.cfgIn ∧ t.sel = s.sel ∧
      t.trace = s.trace ++ readTransfers rxs ∧
      (∀ j, j < rxs.length → some (t.buf (s.k.toNat + j)) = rxs[j]?) ∧
      (∀ a, (∀ j, j < rxs.length → a ≠ bufAddr (s.k.toNat + j)) → t.memByte a = s.memByte a) := by
  induction rxs with
  | nil => intro s rest _ _ _ h; exact absurd rfl h
  | cons rx rxs ih =>
    intro s rest hr hp ho _ hk hl hi
    rw [List.length_cons] at hk
    obtain ⟨u, hu, ef, hm, hui, hup, huk, hux, hus, huc, hul, hut⟩ :=
      run_data_one hr hp (by omega) hl (by simpa using hi)
    have hmem : ∀ a, u.memByte a = if a = bufAddr s.k.toNat then rx else s.memByte a := by
      intro a
      rw [State.memByte_of_mem_eq (s := s.storeAnswer rx) hm (by rw [ef.resets]; simp [State.storeAnswer, ho])]
      simp [State.storeAnswer, ho, State.memByte_setBuf]
    have htr : u.trace = s.trace ++ readTransfers [rx] := by simp [hut, State.dataByte, ho, readTransfers]
    have hend := huk
    by_cases hn : rxs = []
    · subst hn
      refine ⟨u, hu, ef, by simpa using hui, ?_, hux, hus, huc, hul, htr, ?_, ?_⟩
      · rw [hup, if_pos (by simpa using hk)]
      · intro j hj
        have : j = 0 := by simpa using hj
        subst this
        simp [State.buf, hmem]
      · intro a ha
        rw [hmem, if_neg (by simpa using ha 0 (by simp))]
    · have hlen : rxs.length ≠ 0 := by simpa using hn
      obtain ⟨t, ht, ef', hti, htp, htx, hts, htc, htl, htt, hb, ho'⟩ :=
        ih (ef.rst.trans hr) (by rw [hup, if_neg (by omega)]) (ef.opc.trans ho) hn
          (by rw [ef.len, huk]; omega) (by rw [ef.len]; exact hl) hui
      refine ⟨t, ?_, ef.trans ef', hti, htp, htx, hts.trans hus, htc.trans huc, htl.trans hul, ?_, ?_, ?_⟩
      · rw [show 2 * (rx :: rxs).length = 2 + 2 * rxs.length by simp only [List.length_cons]; omega]
        exact run_trans hu ht
      · rw [htt, htr]
        simp [readTransfers]
      · intro j hj
        cases j with
        | zero =>
          have : t.memByte (bufAddr s.k.toNat) = u.memByte (bufAddr s.k.toNat) :=
            ho' _ fun j _ => by rw [huk]; simp only [bufAddr]; omega
          simp [State.buf, this, hmem]
        | succ j =>
          have := hb j (by simpa using hj)
          rw [huk] at this
          rw [show s.k.toNat + (j + 1) = s.k.toNat + 1 + j by omega]
          simpa using this
      · intro a ha
        rw [ho' a, hmem, if_neg (by simpa using ha 0 (by simp))]
        intro j hj
        rw [huk, show s.k.toNat + 1 + j = s.k.toNat + (j + 1) by omega]
        exact ha (j + 1) (by simpa using hj)

/-- All data phases of a write from `K` on: `BUF[K..]` is sent in order and `BUF` stays. -/
theorem run_writes {rxs : List Byte} : ∀ {s : State} {rest : List Input}, s.rst = false → s.phase = .data →
    s.opc = .wr → rxs ≠ [] → s.k.toNat + rxs.length = s.len.toNat → s.len.toNat ≤ 128 →
    s.inputs = rxs.flatMap (fun rx => [.sequencer, .transport rx]) ++ rest →
    ∃ t, core.run (2 * rxs.length) s = .next t ∧ EngineFrame s t ∧ t.inputs = rest ∧
      t.phase = .release ∧ t.xReq = false ∧ t.savedCfg = s.savedCfg ∧ t.cfgIn = s.cfgIn ∧ t.sel = s.sel ∧
      t.trace = s.trace ++ rxs.mapIdx (fun j rx => .xfer (s.buf (s.k.toNat + j)) rx) ∧ t.mem = s.mem := by
  induction rxs with
  | nil => intro s rest _ _ _ h; exact absurd rfl h
  | cons rx rxs ih =>
    intro s rest hr hp ho _ hk hl hi
    rw [List.length_cons] at hk
    obtain ⟨u, hu, ef, hm, hui, hup, huk, hux, hus, huc, hul, hut⟩ :=
      run_data_one hr hp (by omega) hl (by simpa using hi)
    have hm : u.mem = s.mem := by rw [hm]; simp [State.storeAnswer, ho]
    have hbuf : ∀ j, u.buf j = s.buf j := fun j => State.buf_of_mem_eq hm ef.resets j
    by_cases hn : rxs = []
    · subst hn
      refine ⟨u, hu, ef, by simpa using hui, ?_, hux, hus, huc, hul, ?_, hm⟩
      · rw [hup, if_pos (by simpa using hk)]
      · simp [hut, State.dataByte, ho]
    · have hlen : rxs.length ≠ 0 := by simpa using hn
      obtain ⟨t, ht, ef', hti, htp, htx, hts, htc, htl, htt, hm'⟩ :=
        ih (ef.rst.trans hr) (by rw [hup, if_neg (by omega)]) (ef.opc.trans ho) hn
          (by rw [ef.len, huk]; omega) (by rw [ef.len]; exact hl) hui
      refine ⟨t, ?_, ef.trans ef', hti, htp, htx, hts.trans hus, htc.trans huc, htl.trans hul, ?_,
        hm'.trans hm⟩
      · rw [show 2 * (rx :: rxs).length = 2 + 2 * rxs.length by simp only [List.length_cons]; omega]
        exact run_trans hu ht
      · rw [htt, hut]
        simp only [List.mapIdx_cons, hbuf, huk, State.dataByte, ho, Nat.add_zero, List.append_assoc,
          List.singleton_append]
        congr 3
        funext j rx
        rw [show s.k.toNat + 1 + j = s.k.toNat + (j + 1) by omega]

/-- RELEASE, RESTORE and FINISH. -/
theorem run_close {s : State} {rest : List Input} (hr : s.rst = false) (hp : s.phase = .release)
    (hi : s.inputs = .sequencer :: .sequencer :: .sequencer :: rest) :
    ∃ u, core.run 3 s = .next (before u).stepFinish ∧ EngineFrame s u ∧ u.mem = s.mem ∧
      u.inputs = .sequencer :: rest ∧ u.xReq = s.xReq ∧ u.cfgIn = s.savedCfg ∧
      u.sel = State.selLevel false ∧ u.trace = s.trace ++ [.sel false, .cfgSet s.savedCfg] := by
  obtain ⟨u, h1, f1, m1, i1, p1, s1, c1, l1, x1, t1⟩ := step_release hr hp hi
  obtain ⟨v, h2, f2, m2, i2, p2, c2, l2, x2, t2⟩ := step_restore (f1.rst.trans hr) p1 i1
  have f2 := f1.trans f2
  refine ⟨v, run_trans (run_trans (run_one h1) (run_one h2)) (run_one (step_finish (f2.rst.trans hr) p2 i2)),
    f2, m2.trans m1, i2, x2.trans x1, c2.trans s1, l2.trans l1, ?_⟩
  rw [t2, t1, s1]
  simp

/-! ### The whole transaction, up to FINISH -/

theorem transactionMoves_append (rxa : Byte) (rxs : List Byte) (rest : List Input) :
    transactionMoves rxa rxs ++ rest =
      .sequencer :: .sequencer :: .sequencer :: .transport rxa ::
        (rxs.flatMap (fun rx => [.sequencer, .transport rx]) ++
          (.sequencer :: .sequencer :: .sequencer :: rest)) := by
  simp [transactionMoves]

/-- The state FINISH is taken from, against the state SAVE was taken from. -/
structure AtFinish (s u : State) (rest : List Input) : Prop where
  frame : EngineFrame s u
  inputs : u.inputs = .sequencer :: rest
  xReq : u.xReq = false
  cfgIn : u.cfgIn = s.cfgIn
  sel : u.sel = State.selLevel false

theorem EngineFrame.refl (s : State) : EngineFrame s s := by
  constructor <;> simp [SameOperands, SameResults, SameRecords]

theorem len_eq_zero {s : State} (h : s.len.toNat = 0) : s.len = 0#8 := BitVec.eq_of_toNat_eq (by simpa using h)

/-- A read's transaction from SAVE to FINISH. -/
theorem run_read {s : State} {rxa : Byte} {rxs : List Byte} {rest : List Input} (hr : s.rst = false)
    (hp : s.phase = .save) (ho : s.opc = .rd) (hl : s.len.toNat = rxs.length) (hm : rxs.length ≤ 128)
    (hi : s.inputs = transactionMoves rxa rxs ++ rest) :
    ∃ u, core.run (2 * rxs.length + 7) s = .next (before u).stepFinish ∧ AtFinish s u rest ∧
      u.trace = s.trace ++ frameEvents s.cfgIn (.xfer s.addr rxa :: readTransfers rxs) ∧
      (∀ k, k < rxs.length → some (u.buf k) = rxs[k]?) ∧ SameBufBut rxs.length s u := by
  rw [transactionMoves_append] at hi
  obtain ⟨v, h1, f1, m1, i1, p1, k1, x1, s1, c1, l1, t1⟩ := run_open hr hp hi
  have hab : s.abyte = s.addr := by simp [State.abyte, ho]
  have data : ∃ w, core.run (2 * rxs.length) v = .next w ∧ EngineFrame v w ∧
      w.inputs = .sequencer :: .sequencer :: .sequencer :: rest ∧ w.phase = .release ∧ w.xReq = false ∧
      w.savedCfg = v.savedCfg ∧ w.trace = v.trace ++ readTransfers rxs ∧
      (∀ j, j < rxs.length → some (w.buf j) = rxs[j]?) ∧
      (∀ a, (∀ j, j < rxs.length → a ≠ bufAddr j) → w.memByte a = v.memByte a) := by
    by_cases hn : rxs = []
    · subst hn
      exact ⟨v, rfl, EngineFrame.refl v, by simpa using i1, by rw [p1, if_pos (len_eq_zero hl)], x1, rfl,
        by simp [readTransfers], by simp, by simp⟩
    · have h0 : rxs.length ≠ 0 := by simpa using hn
      have hz : s.len ≠ 0#8 := fun h => h0 (by rw [← hl, h]; rfl)
      obtain ⟨w, a1, a2, a3, a4, a5, a6, _, _, a9, a10, a11⟩ :=
        run_reads (f1.rst.trans hr) (by rw [p1, if_neg hz]) (f1.opc.trans ho) hn
          (by rw [k1, f1.len, hl]; simp) (by rw [f1.len]; omega) i1
      rw [k1] at a10 a11
      exact ⟨w, a1, a2, a3, a4, a5, a6, a9, by simpa using a10, by simpa using a11⟩
  obtain ⟨w, a1, a2, a3, a4, a5, a6, a7, a8, a9⟩ := data
  have f2 := f1.trans a2
  obtain ⟨u, b1, b2, b3, b4, b5, b6, b7, b8⟩ := run_close (f2.rst.trans hr) a4 a3
  refine ⟨u, ?_, ⟨f2.trans b2, b4, b5.trans a5, b6.trans (a6.trans s1), b7⟩, ?_, ?_, ?_⟩
  · rw [show 2 * rxs.length + 7 = 4 + 2 * rxs.length + 3 by omega]
    exact run_trans (run_trans h1 a1) b1
  · rw [b8, a7, t1, a6, s1, hab]
    simp [frameEvents]
  · intro k hk
    rw [State.buf_of_mem_eq b3 b2.resets]
    exact a8 k hk
  · intro a ha
    rw [State.memByte_of_mem_eq b3 b2.resets, a9 a ha, State.memByte_of_mem_eq m1 f1.resets]

/-- A write's transaction from SAVE to FINISH. -/
theorem run_write {s : State} {rxa : Byte} {rxs : List Byte} {rest : List Input} (hr : s.rst = false)
    (hp : s.phase = .save) (ho : s.opc = .wr) (hl : s.len.toNat = rxs.length) (hm : rxs.length ≤ 128)
    (hi : s.inputs = transactionMoves rxa rxs ++ rest) :
    ∃ u, core.run (2 * rxs.length + 7) s = .next (before u).stepFinish ∧ AtFinish s u rest ∧
      u.trace = s.trace ++
        frameEvents s.cfgIn (.xfer (s.addr ||| 0x80#8) rxa :: writeTransfers s.buf rxs) ∧
      u.mem = s.mem := by
  rw [transactionMoves_append] at hi
  obtain ⟨v, h1, f1, m1, i1, p1, k1, x1, s1, c1, l1, t1⟩ := run_open hr hp hi
  have hab : s.abyte = s.addr ||| 0x80#8 := by simp [State.abyte, ho]
  have data : ∃ w, core.run (2 * rxs.length) v = .next w ∧ EngineFrame v w ∧
      w.inputs = .sequencer :: .sequencer :: .sequencer :: rest ∧ w.phase = .release ∧ w.xReq = false ∧
      w.savedCfg = v.savedCfg ∧ w.trace = v.trace ++ writeTransfers s.buf rxs ∧ w.mem = v.mem := by
    by_cases hn : rxs = []
    · subst hn
      exact ⟨v, rfl, EngineFrame.refl v, by simpa using i1, by rw [p1, if_pos (len_eq_zero hl)], x1, rfl,
        by simp [writeTransfers], rfl⟩
    · have h0 : rxs.length ≠ 0 := by simpa using hn
      have hz : s.len ≠ 0#8 := fun h => h0 (by rw [← hl, h]; rfl)
      obtain ⟨w, a1, a2, a3, a4, a5, a6, _, _, a9, a10⟩ :=
        run_writes (f1.rst.trans hr) (by rw [p1, if_neg hz]) (f1.opc.trans ho) hn
          (by rw [k1, f1.len, hl]; simp) (by rw [f1.len]; omega) i1
      refine ⟨w, a1, a2, a3, a4, a5, a6, ?_, a10⟩
      rw [a9, k1]
      simp [writeTransfers, State.buf_of_mem_eq m1 f1.resets]
  obtain ⟨w, a1, a2, a3, a4, a5, a6, a7, a8⟩ := data
  have f2 := f1.trans a2
  obtain ⟨u, b1, b2, b3, b4, b5, b6, b7, b8⟩ := run_close (f2.rst.trans hr) a4 a3
  refine ⟨u, ?_, ⟨f2.trans b2, b4, b5.trans a5, b6.trans (a6.trans s1), b7⟩, ?_, b3.trans (a8.trans m1)⟩
  · rw [show 2 * rxs.length + 7 = 4 + 2 * rxs.length + 3 by omega]
    exact run_trans (run_trans h1 a1) b1
  · rw [b8, a7, t1, a6, s1, hab]
    simp [frameEvents]

end Machine
end Sys2Proof
end

