-- ==== Sys2Proof/Laws/PerInstr.lean ====
section
/-! SUPPORT. What holds of every command as syntax, said per command: it is well formed and its opcode decodes
back to it. -/

namespace Sys2Proof
namespace Laws
namespace RoundTrip

/-- A command is well formed and its opcode reads back as it (R93, R96). -/
def Statement (i : Instr) : Prop := i.wf = true ∧ decode (encode i) = .ok i

theorem bcdEnc : Statement .bcdEnc := ⟨rfl, rfl⟩
theorem bcdDec : Statement .bcdDec := ⟨rfl, rfl⟩
theorem bcd8Enc : Statement .bcd8Enc := ⟨rfl, rfl⟩
theorem bcd8Dec : Statement .bcd8Dec := ⟨rfl, rfl⟩
theorem hourEnc : Statement .hourEnc := ⟨rfl, rfl⟩
theorem hourDec : Statement .hourDec := ⟨rfl, rfl⟩
theorem tpktEnc : Statement .tpktEnc := ⟨rfl, rfl⟩
theorem tpktDec : Statement .tpktDec := ⟨rfl, rfl⟩
theorem apktEnc : Statement .apktEnc := ⟨rfl, rfl⟩
theorem apktDec : Statement .apktDec := ⟨rfl, rfl⟩
theorem burstRd : Statement .burstRd := ⟨rfl, rfl⟩
theorem burstWr : Statement .burstWr := ⟨rfl, rfl⟩
theorem setTime : Statement .setTime := ⟨rfl, rfl⟩
theorem getTime : Statement .getTime := ⟨rfl, rfl⟩
theorem setAlarm : Statement .setAlarm := ⟨rfl, rfl⟩
theorem getAlarm : Statement .getAlarm := ⟨rfl, rfl⟩

end RoundTrip
end Laws
end Sys2Proof
end

