-- ==== Sys2Proof/Tests/Slice0.lean ====
section
/-! SUPPORT. Small tests, each about one step or one decoding, with the expected values of
spec/95_test_vectors.md and spec/30_encoding.md; and a witness of the hypotheses of every statement that has
some. -/

namespace Sys2Proof
namespace Tests

open Machine Safety

/-! ## Helpers -/

/-- An outcome is a next state of which `p` holds. -/
def goes (o : Host.Outcome State Fault Refusal) (p : State → Bool) : Bool :=
  match o with
  | .next t => p t
  | .fault _ => false
  | .refused _ => false

theorem goes_spec {o : Host.Outcome State Fault Refusal} {p : State → Bool} (h : goes o p = true) :
    ∃ t, o = .next t ∧ p t = true := by
  cases o with
  | next t => exact ⟨t, rfl, h⟩
  | fault f => simp [goes] at h
  | refused r => simp [goes] at h

/-- An idle block with the operands `a`, `b`, `c` and the hour mode `m`. -/
def idle (m : Bool) (a b c : Byte) : State := { State.reset with cmdA := a, cmdB := b, cmdC := c, mode12 := m }

/-- The same with a time record. -/
def withTime (m : Bool) (r : TimeRecord) : State := { State.reset with mode12 := m, time := r }

/-- The same with an alarm record and an alarm index. -/
def withAlarm (m : Bool) (i : Byte) (r : AlarmRecord) : State :=
  { State.reset with mode12 := m, cmdA := i, alarm := r }

/-- An idle block with the bytes `vs` in `BUF[0..]`. -/
def withBuf (vs : List Byte) : State := State.reset.setBufs vs

/-- The state with the moves `ms` to come. -/
def onMoves (s : State) (ms : List Input) : State := { s with inputs := ms }

/-- The first `n` bytes of `BUF`. -/
def bufs (s : State) (n : Nat) : List Byte := (List.range n).map s.buf

/-- A block in phase `p` of a transaction, with the latches `op`, `a`, `n`, `k` and the work `post`. -/
def running (p : Phase) (op : Dir) (a n k : Byte) (post : Post) : State :=
  { State.reset with
    status := ⟨true, false, .ok⟩, phase := p, opc := op, addr := a, len := n, k := k, post := post,
    txb := 0x0F#8, xTx := 0x0F#8, xReq := waiting p, sel := State.selLevel (selAsserted p),
    cfgOut := Config.engineCfg, cfgIn := Config.engineCfg }

/-! ## Well-formedness: one refused term per check -/

theorem test_wf_number_too_big : Written.wf ⟨.bcd8Enc, [.num 256]⟩ = false := by decide
theorem test_wf_number_fits : Written.wf ⟨.bcd8Enc, [.num 255]⟩ = true := by decide
theorem test_wf_meridiem_name_out_of_place : Written.wf ⟨.hourEnc, [.pm, .num 2, .num 2]⟩ = false := by decide
theorem test_wf_meridiem_name_in_place : Written.wf ⟨.hourEnc, [.num 14, .num 2, .pm]⟩ = true := by decide
theorem test_wf_operand_missing : Written.wf ⟨.burstRd, [.num 15]⟩ = false := by decide
theorem test_wf_operand_too_many : Written.wf ⟨.tpktEnc, [.num 0]⟩ = false := by decide
theorem test_wf_lines_refused :
    [Line.cmd ⟨.setAlarm, []⟩, .rd1 256, .wr1 256, .wrb 256 0, .wrb 0 256, .hw 256 0, .hw 0 256,
      .hr 256].all (fun l => !l.wf) = true := by decide
theorem test_wf_lines_accepted :
    [Line.cmd ⟨.setAlarm, [.num 1]⟩, .rd1 0x0F, .wr1 0x7F, .wrb 0x11 0xA1, .hw 0x80 0x55, .hr 4,
      .wait].all Line.wf = true := by decide

/-! ## Decoding: the words of R93, bit by bit -/

theorem test_decode_bcd : decode 0b00000001#8 = .ok .bcdEnc ∧ decode 0b00000010#8 = .ok .bcdDec ∧
    decode 0b00000011#8 = .ok .bcd8Enc ∧ decode 0b00000100#8 = .ok .bcd8Dec := ⟨rfl, rfl, rfl, rfl⟩
theorem test_decode_hour : decode 0b00000101#8 = .ok .hourEnc ∧ decode 0b00000110#8 = .ok .hourDec :=
  ⟨rfl, rfl⟩
theorem test_decode_packet : decode 0b00001000#8 = .ok .tpktEnc ∧ decode 0b00001001#8 = .ok .tpktDec ∧
    decode 0b00001010#8 = .ok .apktEnc ∧ decode 0b00001011#8 = .ok .apktDec := ⟨rfl, rfl, rfl, rfl⟩
theorem test_decode_burst : decode 0b00010000#8 = .ok .burstRd ∧ decode 0b00010001#8 = .ok .burstWr :=
  ⟨rfl, rfl⟩
theorem test_decode_marshal : decode 0b00011000#8 = .ok .setTime ∧ decode 0b00011001#8 = .ok .getTime ∧
    decode 0b00011010#8 = .ok .setAlarm ∧ decode 0b00011011#8 = .ok .getAlarm := ⟨rfl, rfl, rfl, rfl⟩

/-- No two rows of the opcode map meet (R93). -/
theorem test_opcode_rows_distinct :
    opcodeTable.Pairwise (fun r r' => (r.pattern == r'.pattern) = false) := by decide

set_option maxRecDepth 4000 in
/-- 240 of the 256 bytes are illegal (R94). -/
theorem test_illegal_count :
    ((List.range 256).filter fun n => decodeTableWord 8 n == none).length = 240 := by decide

/-- A wider word is no command. -/
theorem test_decodeTableWord_wide : decodeTableWord 16 0x0101 = none ∧ decodeTableWord 8 0x19 = some .getTime := by
  decide

/-! ## Assembly (R98, R99; the encodings of spec/95_test_vectors.md section 3) -/

theorem test_assemble_hourEnc :
    assemble ⟨.hourEnc, [.num 14, .num 2, .pm]⟩ = [(1#8, 14#8), (2#8, 2#8), (3#8, 2#8), (0#8, 5#8)] := by
  decide
theorem test_assemble_wrb :
    (Line.wrb 0x11 0xA1).writes = [(0x80#8, 0xA1#8), (1#8, 0x11#8), (2#8, 1#8), (0#8, 0x11#8)] := by decide

/-! ## The commands, on the vectors of spec/95_test_vectors.md sections 1 and 2 -/

/-- Section 2.1, `BCD_ENC`. -/
theorem test_bcdEnc :
    [(59#8, 0x7F#8, 0x59#8), (79#8, 0x7F#8, 0x79#8), (85#8, 0x7F#8, 0x05#8), (99#8, 0xFF#8, 0x99#8),
      (12#8, 0x07#8, 0x02#8), (0xC3#8, 0x3F#8, 0xC3#8), (0xFF#8, 0x00#8, 0xFF#8)].all
      (fun (a, b, r) => goes (exec .bcdEnc (idle false a b 0#8)) fun t =>
        t.res0 == r && t.status.byte == 0x02#8) = true := by decide

/-- Section 2.1, `BCD_ENC` of 100: the command runs and completes `OK`; nothing is said of `RES0`. -/
theorem test_bcdEnc_unspec :
    goes (exec .bcdEnc (idle false 100#8 0x7F#8 0#8)) (fun t => t.status.byte == 0x02#8) = true := by decide

/-- Section 2.1, `BCD_DEC`. -/
theorem test_bcdDec :
    [(0x59#8, 0x7F#8, 59#8), (0x1A#8, 0xFF#8, 20#8), (0x3F#8, 0x3F#8, 45#8), (0x4F#8, 0x3F#8, 15#8),
      (0x7B#8, 0x07#8, 3#8), (0xFF#8, 0x07#8, 0xFF#8), (0x80#8, 0x00#8, 0x80#8)].all
      (fun (a, b, r) => goes (exec .bcdDec (idle false a b 0#8)) fun t =>
        t.res0 == r && t.status.byte == 0x02#8) = true := by decide

/-- Section 2.1, `BCD8_ENC`. -/
theorem test_bcd8Enc :
    [(0#8, 0x00#8), (24#8, 0x24#8), (80#8, 0x80#8), (99#8, 0x99#8)].all
      (fun (a, r) => goes (exec .bcd8Enc (idle false a 0#8 0#8)) fun t => t.res0 == r) = true := by decide

/-- Section 2.1, `BCD8_DEC`. -/
theorem test_bcd8Dec :
    [(0x24#8, 24#8), (0x80#8, 80#8), (0x99#8, 99#8), (0xA0#8, 100#8), (0xFF#8, 165#8)].all
      (fun (a, r) => goes (exec .bcd8Dec (idle false a 0#8 0#8)) fun t => t.res0 == r) = true := by decide

/-- Section 2.2, `HOUR_ENC` with `MODE12` = 0. -/
theorem test_hourEnc24 :
    [(0#8, 0x80#8, 2#8, 0x00#8), (13#8, 0x80#8, 2#8, 0x13#8), (23#8, 0#8, 0#8, 0x23#8),
      (45#8, 0#8, 0#8, 0x05#8), (99#8, 0#8, 0#8, 0x19#8), (0xC5#8, 0#8, 0#8, 0xC5#8)].all
      (fun (a, b, c, r) => goes (exec .hourEnc (idle false a b c)) fun t => t.res0 == r) = true := by decide

/-- Section 2.2, `HOUR_ENC` with `MODE12` = 1. -/
theorem test_hourEnc12 :
    [(0x80#8, 12#8, 1#8, 0x52#8), (0x80#8, 12#8, 2#8, 0x72#8), (0#8, 9#8, 0#8, 0x49#8),
      (0#8, 5#8, 3#8, 0x45#8), (0#8, 0#8, 2#8, 0x60#8), (0#8, 13#8, 1#8, 0x53#8),
      (0#8, 25#8, 2#8, 0x65#8), (3#8, 0x80#8, 2#8, 0x80#8), (0#8, 0x9F#8, 1#8, 0x9F#8)].all
      (fun (a, b, c, r) => goes (exec .hourEnc (idle true a b c)) fun t => t.res0 == r) = true := by decide

/-- W1 and section 2.2, `HOUR_DEC` of the 24-hour shape and of a wildcard. -/
theorem test_hourDec24 :
    [(0x00#8, 0#8, 12#8, 1#2), (0x11#8, 11#8, 11#8, 1#2), (0x12#8, 12#8, 12#8, 2#2),
      (0x13#8, 13#8, 1#8, 2#2), (0x23#8, 23#8, 11#8, 2#2), (0x1A#8, 20#8, 8#8, 2#2),
      (0xC5#8, 0xC5#8, 0xC5#8, 0#2)].all
      (fun (a, x, y, m) => goes (exec .hourDec (idle true a 0#8 0#8)) fun t =>
        t.res0 == x && t.res1 == y && t.resM == m) = true := by decide

/-- W2 and section 2.2, `HOUR_DEC` of the 12-hour shape. -/
theorem test_hourDec12 :
    [(0x72#8, 12#8, 12#8, 2#2), (0x65#8, 17#8, 5#8, 2#2), (0x52#8, 0#8, 12#8, 1#2),
      (0x49#8, 9#8, 9#8, 1#2), (0x40#8, 0#8, 0#8, 1#2), (0x60#8, 12#8, 0#8, 2#2),
      (0x53#8, 13#8, 13#8, 1#2), (0x7F#8, 37#8, 25#8, 2#2)].all
      (fun (a, x, y, m) => goes (exec .hourDec (idle false a 0#8 0#8)) fun t =>
        t.res0 == x && t.res1 == y && t.resM == m) = true := by decide

/-- Section 2.4, `TPKT_ENC` in 24-hour mode. -/
theorem test_tpktEnc24 :
    goes (exec .tpktEnc (withTime false ⟨45#8, 30#8, 14#8, 0x55#8, 3#2, 3#8, 25#8, 12#8, 24#8⟩)) (fun t =>
      bufs t 7 == [0x45#8, 0x30#8, 0x14#8, 0x03#8, 0x25#8, 0x12#8, 0x24#8] &&
        t.status.byte == 0x02#8) = true := by decide

/-- Section 2.4, `TPKT_ENC` in 12-hour mode. -/
theorem test_tpktEnc12 :
    goes (exec .tpktEnc (withTime true ⟨0#8, 59#8, 0x55#8, 11#8, 2#2, 7#8, 31#8, 12#8, 99#8⟩)) (fun t =>
      bufs t 7 == [0x00#8, 0x59#8, 0x71#8, 0x07#8, 0x31#8, 0x12#8, 0x99#8]) = true := by decide

/-- Section 2.4, `TPKT_DEC`. -/
theorem test_tpktDec :
    goes (exec .tpktDec (withBuf [0x30#8, 0x15#8, 0x71#8, 0x05#8, 0x31#8, 0x12#8, 0x99#8])) (fun t =>
      t.time == ⟨30#8, 15#8, 23#8, 11#8, 2#2, 5#8, 31#8, 12#8, 99#8⟩) = true := by decide

/-- Section 2.4, `TPKT_DEC` strips reserved bits; a year byte 0x80 is 80. -/
theorem test_tpktDec_reserved_bits :
    goes (exec .tpktDec (withBuf [0x00#8, 0x00#8, 0x00#8, 0x7B#8, 0x65#8, 0x52#8, 0x80#8])) (fun t =>
      t.time == ⟨0#8, 0#8, 0#8, 12#8, 1#2, 3#8, 25#8, 12#8, 80#8⟩) = true := by decide

/-- Section 2.4, `APKT_ENC`. -/
theorem test_apktEnc :
    goes (exec .apktEnc (withAlarm true 0#8 ⟨0x80#8, 30#8, 0x55#8, 7#8, 2#2, 0x80#8⟩)) (fun t =>
      bufs t 4 == [0x80#8, 0x30#8, 0x67#8, 0x80#8]) = true := by decide

/-- Section 2.4, `APKT_ENC` of dow 0x85. -/
theorem test_apktEnc_wild_dow :
    goes (exec .apktEnc (withAlarm false 0#8 ⟨0#8, 0#8, 0#8, 0#8, 0#2, 0x85#8⟩)) (fun t =>
      bufs t 4 == [0x00#8, 0x00#8, 0x00#8, 0x85#8]) = true := by decide

/-- Section 2.4, `APKT_DEC`. -/
theorem test_apktDec :
    goes (exec .apktDec (withBuf [0x80#8, 0x30#8, 0x67#8, 0x80#8])) (fun t =>
      t.alarm == ⟨0x80#8, 30#8, 19#8, 7#8, 2#2, 0x80#8⟩) = true := by decide

/-- W15, `APKT_DEC` of an all-wildcard packet. -/
theorem test_apktDec_all_wild :
    goes (exec .apktDec (withBuf [0x80#8, 0x80#8, 0x80#8, 0x80#8])) (fun t =>
      t.alarm == ⟨0x80#8, 0x80#8, 0x80#8, 0x80#8, 0#2, 0x80#8⟩) = true := by decide

/-- Section 2.5, a burst of 128 starts and one of 129 does not. -/
theorem test_burstRd :
    goes (exec .burstRd (idle false 0x20#8 128#8 0#8)) (fun t =>
      t.status.byte == 0x01#8 && t.phase == .save && t.opc == .rd && t.addr == 0x20#8 && t.len == 128#8) &&
    goes (exec .burstRd (idle false 0x20#8 129#8 0#8)) (fun t =>
      t.status.byte == 0x0E#8 && t.phase == .idle) = true := by decide

/-- Section 2.5, a burst write of 255 is out of range. -/
theorem test_burstWr :
    goes (exec .burstWr (idle false 0x20#8 0#8 0#8)) (fun t =>
      t.status.byte == 0x01#8 && t.phase == .save && t.opc == .wr) &&
    goes (exec .burstWr (idle false 0x20#8 255#8 0#8)) (fun t => t.status.byte == 0x0E#8) = true := by decide

/-- Section 2.6, `SET_TIME`: the packet and the start of the write of 7 bytes at 0x00. -/
theorem test_setTime :
    goes (exec .setTime (withTime false ⟨0#8, 59#8, 23#8, 0#8, 0#2, 7#8, 31#8, 12#8, 99#8⟩)) (fun t =>
      bufs t 7 == [0x00#8, 0x59#8, 0x23#8, 0x07#8, 0x31#8, 0x12#8, 0x99#8] && t.status.byte == 0x01#8 &&
        t.opc == .wr && t.addr == 0x00#8 && t.len == 7#8 && t.post == .none) = true := by decide

/-- Section 2.6, `GET_TIME`. -/
theorem test_getTime :
    goes (exec .getTime State.reset) (fun t =>
      t.opc == .rd && t.addr == 0x00#8 && t.len == 7#8 && t.post == .tdec) = true := by decide

/-- Section 2.6, `SET_ALARM 1`. -/
theorem test_setAlarm :
    goes (exec .setAlarm (withAlarm true 1#8 ⟨0x80#8, 30#8, 0x55#8, 7#8, 2#2, 0x80#8⟩)) (fun t =>
      bufs t 4 == [0x80#8, 0x30#8, 0x67#8, 0x80#8] && t.opc == .wr && t.addr == 0x0B#8 &&
        t.len == 4#8) = true := by decide

/-- W18, `SET_ALARM 2`. -/
theorem test_setAlarm_bad_index :
    goes (exec .setAlarm (withAlarm true 2#8 ⟨1#8, 2#8, 3#8, 4#8, 1#2, 5#8⟩)) (fun t =>
      t.status.byte == 0x06#8 && t.alarm == ⟨1#8, 2#8, 3#8, 4#8, 1#2, 5#8⟩ && t.mem == []) = true := by decide

/-- Section 2.6, `GET_ALARM 0`. -/
theorem test_getAlarm :
    goes (exec .getAlarm (withAlarm true 0#8 ⟨1#8, 2#8, 3#8, 4#8, 1#2, 5#8⟩)) (fun t =>
      t.opc == .rd && t.addr == 0x07#8 && t.len == 4#8 && t.post == .adec) = true := by decide

/-- W13, `GET_ALARM 255`. -/
theorem test_getAlarm_bad_index :
    goes (exec .getAlarm (withAlarm true 255#8 ⟨1#8, 2#8, 3#8, 4#8, 1#2, 5#8⟩)) (fun t =>
      t.status.byte == 0x06#8 && t.alarm == ⟨0#8, 0#8, 0#8, 0#8, 0#2, 0#8⟩) = true := by decide

/-! ## The host port, the moves and reset -/

/-- Section 2.7: an illegal opcode is reported before an illegal length. -/
theorem test_illegal_before_length :
    goes (step (onMoves (idle false 0#8 200#8 0#8) [.hostWrite 0x00#8 0x12#8])) (fun t =>
      t.status.byte == 0x0A#8) = true := by decide

/-- R33, R34: `T_MER` stores two bits; a reserved address stores nothing. -/
theorem test_host_writes :
    goes (step (onMoves State.reset [.hostWrite 0x14#8 0xFF#8])) (fun t => t.hostByte 0x14#8 == 0x03#8) &&
    goes (step (onMoves State.reset [.hostWrite 0x7F#8 0xFF#8])) (fun t => t.hostByte 0x7F#8 == 0x00#8) &&
    goes (step (onMoves State.reset [.hostWrite 0xFF#8 0x12#8])) (fun t => t.buf 127 == 0x12#8) = true := by
  decide

/-- R182: the strobe of SAVE falls in the next step. -/
theorem test_strobe_falls :
    goes (step (running .save .rd 0#8 7#8 0#8 .none)) (fun t =>
      t.cfgWe && goes (step t) fun u => !u.cfgWe) = true := by decide

/-- Section 2.8: reset in DATA_WAIT. -/
theorem test_reset_in_transaction :
    goes (step (onMoves (running .dataWait .rd 0#8 7#8 3#8 .tdec) [.rst true])) (fun t =>
      t.status.byte == 0x00#8 && t.phase == .idle && !t.xReq) = true := by decide

/-- Every command runs as the first one after reset. -/
theorem test_first_command :
    opcodeTable.all (fun r => goes (step (State.reset.withFetchWord 8 r.pattern.toNat)) fun t =>
      decide (t.status.result = .ok ∨ t.status.result = .noopBadIdx)) = true := by decide

/-- The memory right after reset is in canonical form; a store keeps it and can be read back. -/
theorem test_memory_wf :
    Memory.wf State.reset.mem = true ∧ Memory.wf ((withBuf [1#8, 2#8]).setBuf 127 3#8).mem = true ∧
      ((withBuf [1#8, 2#8]).setBuf 127 3#8).mem = [(0x80, 1#8), (0x81, 2#8), (0xFF, 3#8)] := by decide

/-- A data phase past the end of `BUF` stops. -/
theorem test_index_fault :
    step (running .data .wr 0#8 255#8 128#8 .none) = .fault (.bufIndexOutOfRange 128) := rfl

/-! ## Witnesses: the hypotheses of every statement, together, on a concrete state -/

/-- An idle block whose next move is the host's write of `v` to `CMD_OP`. -/
def issuing (v : Byte) : State := onMoves State.reset [.hostWrite 0x00#8 v]

theorem witness_AssembledCommandsReadBack :
    ∀ w ∈ [Written.mk .hourEnc [.num 255, .num 0, .pm], ⟨.bcdEnc, [.num 85, .num 0x7F]⟩, ⟨.tpktEnc, []⟩],
      w.wf = true := by decide

theorem witness_IllegalOpcodeCompletesAtOnce :
    ∀ v ∈ [0x00#8, 0x07#8, 0x0C#8, 0x0F#8, 0x12#8, 0x17#8, 0x1C#8, 0xFF#8],
      Ready (issuing v) ∧ (issuing v).nextInput = .hostWrite 0x00#8 v ∧
        (v.toNat = 0x00 ∨ v.toNat = 0x07 ∨ (0x0C ≤ v.toNat ∧ v.toNat ≤ 0x0F) ∨
          (0x12 ≤ v.toNat ∧ v.toNat ≤ 0x17) ∨ 0x1C ≤ v.toNat) := by
  intro v hv
  exact ⟨⟨rfl, rfl⟩, rfl, by revert v; decide⟩

theorem witness_StepRunsTheDecodedCommand :
    Ready (issuing 0x19#8) ∧ (issuing 0x19#8).inputs = .hostWrite 0x00#8 0x19#8 :: [] ∧
      decode 0x19#8 = .ok .getTime := ⟨⟨rfl, rfl⟩, rfl, rfl⟩

theorem witness_MaskedBcdRoundTrip :
    ∀ p ∈ [(79#8, 0x7F#8), (39#8, 0x3F#8), (19#8, 0x1F#8), (7#8, 0x07#8), (99#8, 0x00#8)],
      p.1.toNat < 100 ∧ p.2.toNat < 128 ∧ ∃ t u, exec .bcdEnc (idle false p.1 p.2 0#8) = .next t ∧
        exec .bcdDec { t with cmdA := t.res0 } = .next u := by
  intro p hp
  have h : p.1.toNat < 100 ∧ p.2.toNat < 128 := by
    simp only [List.mem_cons, List.mem_nil_iff, or_false] at hp
    rcases hp with rfl | rfl | rfl | rfl | rfl <;> decide
  exact ⟨h.1, h.2, _, _, rfl, rfl⟩

theorem witness_YearRoundTrip :
    (99#8 : Byte).toNat < 100 ∧ ∃ t u, exec .bcd8Enc (idle false 99#8 0#8 0#8) = .next t ∧
      exec .bcd8Dec { t with cmdA := t.res0 } = .next u := ⟨by decide, _, _, rfl, rfl⟩

/-- Each clause, at the ends of its range. -/
theorem witness_HourRoundTrip :
    (∀ s : State, ∃ t u, exec .hourEnc s = .next t ∧ exec .hourDec { t with cmdA := t.res0 } = .next u) ∧
    (idle false 23#8 0#8 0#8).cmdA.toNat ≤ 23 ∧ 1 ≤ (idle true 0#8 1#8 2#8).cmdB.toNat ∧
    (idle true 0#8 12#8 0#8).cmdB.toNat ≤ 12 ∧ 128 ≤ (idle false 128#8 0#8 0#8).cmdA.toNat ∧
    128 ≤ (idle true 0#8 255#8 0#8).cmdB.toNat :=
  ⟨fun _ => ⟨_, _, rfl, rfl⟩, by decide⟩

theorem witness_HourCrossRoundTrip :
    (idle false 23#8 0#8 0#8).mode12 = false ∧ (idle false 23#8 0#8 0#8).cmdA.toNat ≤ 23 ∧
    ∃ t u v w, exec .hourEnc (idle false 23#8 0#8 0#8) = .next t ∧
      exec .hourDec { t with cmdA := t.res0 } = .next u ∧
      exec .hourEnc { u with mode12 := true, cmdB := u.res1, cmdC := merByte u.resM } = .next v ∧
      exec .hourDec { v with cmdA := v.res0 } = .next w :=
  ⟨rfl, by decide, _, _, _, _, rfl, rfl, rfl, rfl⟩

/-- A record at the upper ends of its source ranges. -/
def lastRecord : TimeRecord := ⟨59#8, 59#8, 23#8, 12#8, Mer.pm, 7#8, 31#8, 12#8, 99#8⟩

theorem witness_TimeRecordRoundTrip : ∀ m : Bool,
    let s := withTime m lastRecord
    s.time.sec.toNat ≤ 59 ∧ s.time.min.toNat ≤ 59 ∧ 1 ≤ s.time.dow.toNat ∧ s.time.dow.toNat ≤ 7 ∧
    1 ≤ s.time.dom.toNat ∧ s.time.dom.toNat ≤ 31 ∧ 1 ≤ s.time.mon.toNat ∧ s.time.mon.toNat ≤ 12 ∧
    s.time.yr.toNat ≤ 99 ∧ (s.mode12 = false → s.time.hr24.toNat ≤ 23) ∧
    (s.mode12 = true → 1 ≤ s.time.hr12.toNat ∧ s.time.hr12.toNat ≤ 12 ∧
      (s.time.mer = Mer.am ∨ s.time.mer = Mer.pm)) ∧
    ∃ t u, exec .tpktEnc s = .next t ∧ exec .tpktDec t = .next u := by
  intro m
  have h : lastRecord.sec.toNat ≤ 59 ∧ lastRecord.min.toNat ≤ 59 ∧ 1 ≤ lastRecord.dow.toNat ∧
      lastRecord.dow.toNat ≤ 7 ∧ 1 ≤ lastRecord.dom.toNat ∧ lastRecord.dom.toNat ≤ 31 ∧
      1 ≤ lastRecord.mon.toNat ∧ lastRecord.mon.toNat ≤ 12 ∧ lastRecord.yr.toNat ≤ 99 := by decide
  obtain ⟨h1, h2, h3, h4, h5, h6, h7, h8, h9⟩ := h
  exact ⟨h1, h2, h3, h4, h5, h6, h7, h8, h9,
    fun _ => by show (23#8 : Byte).toNat ≤ 23; decide,
    fun _ => ⟨by show 1 ≤ (12#8 : Byte).toNat; decide, by show (12#8 : Byte).toNat ≤ 12; decide, .inr rfl⟩,
    _, _, rfl, rfl⟩

/-- A record of wildcards, at the lower and the upper end of their range. -/
theorem witness_WildcardFieldsSurvive : ∀ w ∈ [128#8, 255#8], 128 ≤ (w : Byte).toNat ∧
    (∃ t u, exec .tpktEnc (withTime true ⟨w, w, w, w, 0#2, w, w, w, 0#8⟩) = .next t ∧
      exec .tpktDec t = .next u) ∧
    (∃ t u, exec .apktEnc (withAlarm false 0#8 ⟨w, w, w, w, 0#2, w⟩) = .next t ∧
      exec .apktDec t = .next u) := by
  intro w hw
  exact ⟨by revert w; decide, ⟨_, _, rfl, rfl⟩, _, _, rfl, rfl⟩

/-- A 24-hour block, and a 12-hour one with a wildcard: other values in the fields that are not read. -/
theorem witness_UnusedHourFieldsIgnored :
    (SameUsedHour false 5#8 1#8 1#2 5#8 2#8 2#2 ∧ SameUsedHour true 5#8 128#8 1#2 6#8 128#8 2#2 ∧
      SameUsedHour true 5#8 127#8 1#2 6#8 127#8 1#2) ∧
    (∀ (m : Bool) (a b c : Byte) (i : Instr), i = .hourEnc ∨ i = .tpktEnc ∨ i = .setTime ∨ i = .apktEnc ∨
      i = .setAlarm → ∃ t, exec i (idle m a b c) = .next t) := by
  refine ⟨by simp [SameUsedHour], ?_⟩
  intro m a b c i _
  obtain ⟨t, h, -⟩ := exec_spec i (idle m a b c)
  exact ⟨t, h⟩

theorem witness_BurstOfLegalLengthStarts :
    (idle false 0x20#8 128#8 0#8).cmdB.toNat ≤ 128 ∧ (idle false 0x20#8 0#8 0#8).cmdB.toNat ≤ 128 := by decide

theorem witness_BurstLengthAbove128Rejected : ∀ i ∈ [Instr.burstRd, .burstWr],
    128 < (idle false 0x20#8 129#8 0#8).cmdB.toNat ∧
      ∃ t, exec i (idle false 0x20#8 129#8 0#8) = .next t ∧ (t.status.result == .lenRange) = true := by
  intro i hi
  exact ⟨by decide, goes_spec (by revert i; decide)⟩

theorem witness_AlarmIndexes :
    ((idle false 0#8 0#8 0#8).cmdA = 0#8 ∨ (idle false 0#8 0#8 0#8).cmdA = 1#8) ∧
    ((idle false 1#8 0#8 0#8).cmdA = 0#8 ∨ (idle false 1#8 0#8 0#8).cmdA = 1#8) ∧
    ((idle false 2#8 0#8 0#8).cmdA ≠ 0#8 ∧ (idle false 2#8 0#8 0#8).cmdA ≠ 1#8) ∧
    ((idle false 255#8 0#8 0#8).cmdA ≠ 0#8 ∧ (idle false 255#8 0#8 0#8).cmdA ≠ 1#8) := by decide

/-! ### The sequencer -/

/-- The sequencer's turn in each framing phase goes on, outside reset; so does the turn of another phase. -/
theorem witness_FrameSaveAssertReleaseRestore :
    ∀ p ∈ [Phase.save, .assert, .release, .restore, .addr], ∃ t,
      resetting (running p .rd 0#8 7#8 0#8 .none) = false ∧
      (running p .rd 0#8 7#8 0#8 .none).nextInput = .sequencer ∧
      (running p .rd 0#8 7#8 0#8 .none).phase = p ∧ step (running p .rd 0#8 7#8 0#8 .none) = .next t := by
  intro p hp
  obtain ⟨t, ht, _⟩ := goes_spec (o := step (running p .rd 0#8 7#8 0#8 .none)) (p := fun _ => true)
    (by revert p; decide)
  exact ⟨t, rfl, rfl, rfl, ht⟩

/-- The address phase, for a length of 0 and of 128. -/
theorem witness_AddressPhaseSendsAddressByte : ∀ n ∈ [0#8, 128#8],
    (∃ t, step (running .addr .wr 0x0F#8 n 0#8 .none) = .next t) ∧
    (∃ t, step (onMoves (running .addrWait .wr 0x0F#8 n 0#8 .none) [.transport 0xAA#8]) = .next t) ∧
    resetting (running .addr .wr 0x0F#8 n 0#8 .none) = false ∧
    resetting (onMoves (running .addrWait .wr 0x0F#8 n 0#8 .none) [.transport 0xAA#8]) = false := by
  intro n _
  exact ⟨⟨_, rfl⟩, ⟨_, rfl⟩, rfl, rfl⟩

/-- A data phase of a read, at the first and at the last index of the longest burst. -/
theorem witness_ReadDataPhaseStoresAnswer : ∀ k ∈ [0#8, 127#8], ∀ p ∈ [Phase.data, .dataWait],
    resetting (running p .rd 0x20#8 128#8 k .none) = false ∧ (running p .rd 0x20#8 128#8 k .none).opc = .rd ∧
    (running p .rd 0x20#8 128#8 k .none).k.toNat < (running p .rd 0x20#8 128#8 k .none).len.toNat ∧
    (running p .rd 0x20#8 128#8 k .none).len.toNat ≤ 128 := by
  intro k hk p _
  have h : ∀ k ∈ [0#8, 127#8], (k : Byte).toNat < (128#8 : Byte).toNat := by decide
  exact ⟨rfl, rfl, h k hk, by show (128#8 : Byte).toNat ≤ 128; decide⟩

/-- A data phase of a write, likewise. -/
theorem witness_WriteDataPhaseSendsBuffer : ∀ k ∈ [0#8, 127#8], ∀ p ∈ [Phase.data, .dataWait],
    resetting (running p .wr 0x20#8 128#8 k .none) = false ∧ (running p .wr 0x20#8 128#8 k .none).opc = .wr ∧
    (running p .wr 0x20#8 128#8 k .none).k.toNat < (running p .wr 0x20#8 128#8 k .none).len.toNat ∧
    (running p .wr 0x20#8 128#8 k .none).len.toNat ≤ 128 := by
  intro k hk p _
  have h : ∀ k ∈ [0#8, 127#8], (k : Byte).toNat < (128#8 : Byte).toNat := by decide
  exact ⟨rfl, rfl, h k hk, by show (128#8 : Byte).toNat ≤ 128; decide⟩

theorem witness_FinishDoesPostAndCompletes : ∀ q : Post,
    resetting (running .finish .rd 0#8 7#8 7#8 q) = false ∧
    (running .finish .rd 0#8 7#8 7#8 q).nextInput = .sequencer ∧
    (running .finish .rd 0#8 7#8 7#8 q).phase = .finish ∧ (running .finish .rd 0#8 7#8 7#8 q).post = q :=
  fun _ => ⟨rfl, rfl, rfl, rfl⟩

/-- The moves of a burst of no byte, of two and of 128. -/
theorem witness_BurstTransactions : ∀ rxs ∈ [[], [0x11#8, 0x22#8], List.replicate 128 0xAA#8],
    ∀ op ∈ [0x10#8, 0x11#8],
    let s : State := onMoves (idle false 0x20#8 (BitVec.ofNat 8 rxs.length) 0#8)
      (.hostWrite 0x00#8 op :: transactionMoves 0xFF#8 rxs ++ [])
    Ready s ∧ s.inputs = .hostWrite 0x00#8 op :: transactionMoves 0xFF#8 rxs ++ [] ∧
      s.cmdB.toNat = rxs.length ∧ rxs.length ≤ 128 := by
  intro rxs h op _
  have hl : rxs.length = 0 ∨ rxs.length = 2 ∨ rxs.length = 128 := by
    simp only [List.mem_cons, List.mem_nil_iff, or_false] at h
    rcases h with h | h | h <;> simp [h]
  refine ⟨⟨rfl, rfl⟩, rfl, ?_, by omega⟩
  show (BitVec.ofNat 8 rxs.length).toNat = rxs.length
  rw [BitVec.toNat_ofNat]
  omega

theorem witness_TimeTransactions : ∀ op ∈ [0x18#8, 0x19#8],
    let rxs : List Byte := [0x30#8, 0x15#8, 0x71#8, 0x05#8, 0x31#8, 0x12#8, 0x99#8]
    let s : State := onMoves State.reset (.hostWrite 0x00#8 op :: transactionMoves 0#8 rxs ++ [])
    Ready s ∧ s.inputs = .hostWrite 0x00#8 op :: transactionMoves 0#8 rxs ++ [] ∧ rxs.length = 7 :=
  fun _ _ => ⟨⟨rfl, rfl⟩, rfl, rfl⟩

theorem witness_AlarmTransactions : ∀ op ∈ [0x1A#8, 0x1B#8], ∀ i ∈ [0#8, 1#8],
    let rxs : List Byte := [0x00#8, 0x15#8, 0x52#8, 0x02#8]
    let s : State := onMoves (idle false i 0#8 0#8) (.hostWrite 0x00#8 op :: transactionMoves 0#8 rxs ++ [])
    Ready s ∧ s.inputs = .hostWrite 0x00#8 op :: transactionMoves 0#8 rxs ++ [] ∧ rxs.length = 4 ∧
      (s.cmdA = 0#8 ∨ s.cmdA = 1#8) := by
  intro op _ i hi
  exact ⟨⟨rfl, rfl⟩, rfl, rfl, by simpa [onMoves, idle] using hi⟩

/-! ### The host port and reset -/

/-- A block that waits for the answer to the address byte of a burst read. -/
def waitingBlock (ms : List Input) : State := onMoves (running .addrWait .rd 0x0F#8 1#8 0#8 .none) ms

theorem witness_BusyIgnoresHostWrites :
    (waitingBlock [.hostWrite 0x80#8 0x55#8]).rst = false ∧
    (waitingBlock [.hostWrite 0x80#8 0x55#8]).status.busy = true ∧
    (waitingBlock [.hostWrite 0x80#8 0x55#8]).nextInput = .hostWrite 0x80#8 0x55#8 ∧
    (waitingBlock [.hostRead 0x80#8]).nextInput = .hostRead 0x80#8 := ⟨rfl, rfl, rfl, rfl⟩

/-- A read of each address. -/
theorem witness_HostReadsHaveNoSideEffect (a : Byte) :
    (onMoves State.reset [.hostRead a]).rst = false ∧
      (onMoves State.reset [.hostRead a]).nextInput = .hostRead a := ⟨rfl, rfl⟩

/-- A write to an address the host may write, to a meridiem register, to a read-only and to a reserved one. -/
theorem witness_HostWriteStoresInOneRegister : ∀ a ∈ [0x01#8, 0xFF#8, 0x14#8, 0x24#8, 0x04#8, 0x7F#8],
    Ready (onMoves State.reset [.hostWrite a 0xFF#8]) ∧
    (onMoves State.reset [.hostWrite a 0xFF#8]).nextInput = .hostWrite a 0xFF#8 ∧ a ≠ 0x00#8 := by
  intro a ha
  exact ⟨⟨rfl, rfl⟩, rfl, by revert a; decide⟩

/-- In reset, and in the steps in which `rst` rises and falls. -/
theorem witness_ResetWinsOverEveryMove :
    resetting (waitingBlock [.rst true]) = true ∧
    resetting { waitingBlock [.transport 0#8] with rst := true } = true ∧
    resetting { waitingBlock [.rst false] with rst := true } = true := ⟨rfl, rfl, rfl⟩

theorem witness_ResetAbandonsTransaction :
    (waitingBlock [.rst true]).phase ≠ .idle ∧ (waitingBlock [.rst true]).inputs = .rst true :: [] :=
  ⟨by decide, rfl⟩

theorem witness_ModeChangesOnlyInReset :
    (resetting (waitingBlock [.strap true]) = false ∧ ∃ t, step (waitingBlock [.strap true]) = .next t) ∧
    (resetting (waitingBlock [.rst true]) = true ∧ ∃ t, step (waitingBlock [.rst true]) = .next t) :=
  ⟨⟨rfl, _, rfl⟩, rfl, _, rfl⟩

/-! ### The whole machine -/

/-- The invariant holds of a block that waits for the transport. -/
theorem witness_Inv (ms : List Input) : Inv (waitingBlock ms) :=
  ⟨rfl, rfl, fun _ => ⟨rfl, rfl⟩, rfl, rfl, fun _ => rfl, fun _ => by show (1#8 : Byte).toNat ≤ 128; decide,
    fun h => Bool.noConfusion h, fun _ h => Post.noConfusion h, fun _ h => Post.noConfusion h, fun _ => rfl,
    fun _ => rfl, fun h => Bool.noConfusion h, fun h => Bool.noConfusion h⟩

/-- The next move is one R13 allows, and one it forbids. -/
theorem witness_EveryStepGoesOnAndKeepsInvariant :
    (Inv (waitingBlock [.strap true]) ∧ busDuty (waitingBlock [.strap true])) ∧
    (Inv (waitingBlock [.busUser 0#_]) ∧ ¬ busDuty (waitingBlock [.busUser 0#_])) :=
  ⟨⟨witness_Inv _, fun _ h => Input.noConfusion h⟩, witness_Inv _, fun h => Phase.noConfusion (h _ rfl)⟩

theorem witness_UnansweredTransferHangs :
    let ms : List Input := [.sequencer, .hostWrite 0x80#8 0x55#8, .hostRead 0x04#8, .strap true]
    Inv (waitingBlock (ms ++ [.transport 0#8])) ∧ (waitingBlock (ms ++ [.transport 0#8])).rst = false ∧
    waiting (waitingBlock (ms ++ [.transport 0#8])).phase = true ∧
    (waitingBlock (ms ++ [.transport 0#8])).inputs = ms ++ [.transport 0#8] ∧
    (∀ m ∈ ms, ∀ rx, m ≠ .transport rx) ∧ (∀ m ∈ ms, ∀ b, m ≠ .rst b) ∧ (∀ m ∈ ms, ∀ c, m ≠ .busUser c) := by
  refine ⟨witness_Inv _, rfl, rfl, rfl, ?_, ?_, ?_⟩ <;> simp

/-- Every command answers a next state, some complete and some started. -/
theorem witness_CommandCompletesOrStarts :
    (∃ t, exec .bcdEnc State.reset = .next t) ∧ (∃ t, exec .getTime State.reset = .next t) :=
  ⟨⟨_, rfl⟩, _, rfl⟩

/-- Host writes that change each operand register. -/
theorem witness_OperandRegistersKept :
    (∃ t, step (onMoves State.reset [.hostWrite 0x01#8 5#8]) = .next t ∧ t.cmdA ≠ State.reset.cmdA) ∧
    (∃ t, step (onMoves State.reset [.hostWrite 0x02#8 5#8]) = .next t ∧ t.cmdB ≠ State.reset.cmdB) ∧
    (∃ t, step (onMoves State.reset [.hostWrite 0x03#8 5#8]) = .next t ∧ t.cmdC ≠ State.reset.cmdC) ∧
    resetting (onMoves State.reset [.hostWrite 0x01#8 5#8]) = false :=
  ⟨⟨_, rfl, by decide⟩, ⟨_, rfl, by decide⟩, ⟨_, rfl, by decide⟩, rfl⟩

/-- Commands that change each result register. -/
theorem witness_ResultRegistersKept :
    (∃ t, step (onMoves (idle false 59#8 0x7F#8 0#8) [.hostWrite 0x00#8 0x01#8]) = .next t ∧
      (t.res0 != 0#8) = true) ∧
    (∃ t, step (onMoves (idle false 0x13#8 0#8 0#8) [.hostWrite 0x00#8 0x06#8]) = .next t ∧
      (t.res1 != 0#8 && t.resM != 0#2) = true) ∧
    resetting (onMoves (idle false 59#8 0x7F#8 0#8) [.hostWrite 0x00#8 0x01#8]) = false :=
  ⟨goes_spec (by decide), goes_spec (by decide), rfl⟩

/-- Each of the steps that change a record. -/
theorem witness_RecordsChangeOnlyByTheirWriters :
    (∃ t, step (onMoves State.reset [.hostWrite 0x10#8 5#8]) = .next t ∧ (t.time.sec == 5#8) = true) ∧
    (∃ t, step (onMoves State.reset [.hostWrite 0x25#8 5#8]) = .next t ∧ (t.alarm.dow == 5#8) = true) ∧
    (∃ t, step (onMoves (withBuf [0x05#8]) [.hostWrite 0x00#8 0x09#8]) = .next t ∧
      (t.time.sec == 5#8) = true) ∧
    (∃ t, step (onMoves (withBuf [0x05#8]) [.hostWrite 0x00#8 0x0B#8]) = .next t ∧
      (t.alarm.sec == 5#8) = true) ∧
    (∃ t, step (onMoves (withAlarm false 2#8 ⟨5#8, 0#8, 0#8, 0#8, 0#2, 0#8⟩) [.hostWrite 0x00#8 0x1B#8]) =
      .next t ∧ (t.alarm.sec == 0#8) = true) ∧
    (∃ t, step ((running .finish .rd 0#8 7#8 7#8 .tdec).setBuf 0 0x05#8) = .next t ∧
      (t.time.sec == 5#8) = true) ∧
    (∃ t, step ((running .finish .rd 7#8 4#8 4#8 .adec).setBuf 0 0x05#8) = .next t ∧
      (t.alarm.sec == 5#8) = true) :=
  ⟨goes_spec (by decide), goes_spec (by decide), goes_spec (by decide), goes_spec (by decide),
    goes_spec (by decide), goes_spec (by decide), goes_spec (by decide)⟩

theorem witness_StatusChangesOnlyAtIssueAndFinish :
    (∃ t, step (issuing 0x00#8) = .next t ∧ (t.status != State.reset.status) = true) ∧
    (∃ t, step (running .finish .rd 0#8 7#8 7#8 .none) = .next t ∧ (t.status.byte == 0x02#8) = true) ∧
    resetting (issuing 0x00#8) = false :=
  ⟨goes_spec (by decide), goes_spec (by decide), rfl⟩

theorem witness_LineAndEventSteps :
    (∃ t, step (running .assert .rd 0#8 7#8 0#8 .none) = .next t) ∧
    (∃ t, step (running .release .rd 0#8 7#8 7#8 .none) = .next t) ∧
    (∃ t, step (waitingBlock [.transport 0xAA#8]) = .next t) ∧
    resetting (running .assert .rd 0#8 7#8 0#8 .none) = false ∧
    resetting (waitingBlock [.transport 0xAA#8]) = false :=
  ⟨⟨_, rfl⟩, ⟨_, rfl⟩, ⟨_, rfl⟩, rfl, rfl⟩

theorem witness_StrayPinMovesChangeOnlyTheirPin :
    State.reset.rst = false ∧ waiting State.reset.phase = false ∧
    (onMoves State.reset [.transport 0xAA#8]).nextInput = .transport 0xAA#8 ∧
    (onMoves State.reset [.busUser 0#_]).nextInput = .busUser 0#_ ∧ State.reset.phase = .idle ∧
    ((waitingBlock [.busUser 0#_]).nextInput = .busUser 0#_ ∧ (waitingBlock [.busUser 0#_]).phase ≠ .idle) ∧
    (onMoves State.reset [.strap true]).nextInput = .strap true :=
  ⟨rfl, rfl, rfl, rfl, rfl, ⟨rfl, fun h => Phase.noConfusion h⟩, rfl⟩

/-- Two states that differ in an unwritten register of R20 and in one of R35, and a strict step that reads
only written ones. -/
theorem witness_StrictRunsIgnoreUnwrittenRegisters :
    Agree [.host 0x01] (onMoves (idle false 0x24#8 1#8 0#8) [.hostWrite 0x00#8 0x04#8])
      { onMoves (idle false 0x24#8 2#8 0#8) [.hostWrite 0x00#8 0x04#8] with k := 9#8 } ∧
    ∃ t, Tracked.step ⟨onMoves (idle false 0x24#8 1#8 0#8) [.hostWrite 0x00#8 0x04#8], [.host 0x01]⟩ =
      .next t := by
  refine ⟨⟨rfl, rfl, rfl, rfl, rfl, rfl, rfl, rfl, rfl, rfl, rfl, rfl, ?_⟩, _, rfl⟩
  intro r hr
  obtain rfl := List.mem_singleton.1 hr
  intro b hb
  obtain rfl : b = 0x01#8 := BitVec.eq_of_toNat_eq hb
  rfl

/-- A state in which the latches are written and the strict machine goes on, one in which it stops. -/
theorem witness_LatchesAreWrittenBeforeTheyAreRead :
    (Tracked.LatchesWritten ⟨running .addr .rd 0#8 7#8 0#8 .none, .savedCfg :: startLatches⟩ ∧
      ∃ t, Tracked.step ⟨running .addr .rd 0#8 7#8 0#8 .none, .savedCfg :: startLatches⟩ = .next t) ∧
    Tracked.LatchesWritten ⟨onMoves State.reset [.hostRead 0x06#8], []⟩ ∧
    Tracked.step ⟨onMoves State.reset [.hostRead 0x06#8], []⟩ = .fault (.unspecRead (.host 0x06)) := by
  refine ⟨⟨⟨fun _ r h => List.mem_cons_of_mem _ h, fun _ => by simp, ?_, ?_⟩, _, rfl⟩,
    ⟨fun h => absurd rfl h, ?_, ?_, ?_⟩, rfl⟩ <;> intro h <;> cases h

/-- The strict machine stops on a latch not written since reset too (R40, R35). -/
theorem test_strict_fault_latch :
    Tracked.step ⟨running .restore .rd 0#8 7#8 7#8 .none, []⟩ = .fault (.unspecRead .savedCfg) := rfl

end Tests
end Sys2Proof
end

section
/-! The invariant of the machine is kept by every step R13 allows, and another bus user's move in a
transaction is the only thing the machine stops at (R13, R269, U10). A step outside reset either leaves the
block alone but for a register, a pin or the read port; or ends in `IDLE`; or starts a transaction; or moves a
transaction on by one line of R184. There is one rule for each of the four. -/

namespace Sys2Proof
namespace Safety

open Machine

/-! ### The clauses that follow `PHASE` -/

/-- The clauses of `Inv` that change from line to line of R184; the others hold of the command as a whole. -/
structure PortsFollowPhase (s : State) : Prop where
  sel_level : s.sel = State.selLevel (selAsserted s.phase)
  req_iff : s.xReq = waiting s.phase
  tx_stable : s.xReq = true → s.xTx = s.txb
  k_lt : inData s.phase = true → s.k.toNat < s.len.toNat
  cfg_frame : inFrame s.phase = true → s.cfgOut = Config.engineCfg
  cfg_held : inFrame s.phase = true → s.cfgIn = Config.engineCfg
  strobe : s.cfgWe = true → s.phase = .assert ∨ s.phase = .finish

section rules

variable {s t : State}

/-! ### The four rules -/

/-- What the invariant asks of a block in `IDLE`. -/
theorem Inv.of_idle (hp : s.phase = .idle) (hm : Memory.wf s.mem = true) (hb : s.status.busy = false)
    (hs : s.sel = State.selLevel false) (hx : s.xReq = false) (hw : s.cfgWe = false) : Inv s := by
  constructor <;> simp [hp, hm, hb, hs, hx, hw, selAsserted, waiting, inData, inFrame]

/-- A step that leaves `STATUS`, the sequencer and the bus alone; the strobe has fallen (R36). -/
theorem Inv.of_sameLines (h : Inv s) (hm : Memory.wf t.mem = true) (status : t.status = s.status)
    (phase : t.phase = s.phase) (latches : SameLatches s t) (lines : SameLines s t) (rst : t.rst = s.rst)
    (hw : t.cfgWe = false) : Inv t := by
  obtain ⟨opc, addr, len, k, post, -, txb⟩ := latches
  obtain ⟨xReq, xTx, sel, cfgOut, cfgIn, -⟩ := lines
  apply Inv.mk hm <;> simp only [status, phase, opc, addr, len, k, post, txb, xReq, xTx, sel, cfgOut, cfgIn,
    hw, rst]
  exacts [h.busy_iff, h.running, h.sel_level, h.req_iff, h.tx_stable, h.len_le, h.k_lt, h.post_time,
    h.post_alarm, h.cfg_frame, h.cfg_held, Bool.noConfusion, h.rst_idle]

/-- A step of a running transaction, by what it does to the ports. -/
theorem Inv.advance (h : Inv s) (hp : s.phase ≠ .idle) (ht : t.phase ≠ .idle) (f : EngineFrame s t)
    (hm : Memory.wf t.mem = true) (ports : PortsFollowPhase t) : Inv t where
  mem_wf := hm
  busy_iff := by simp [f.status, h.busy_iff, hp, ht]
  running _ := f.status ▸ h.running hp
  sel_level := ports.sel_level
  req_iff := ports.req_iff
  tx_stable := ports.tx_stable
  len_le _ := f.len ▸ h.len_le hp
  k_lt := ports.k_lt
  post_time _ := by simpa only [f.post, f.opc, f.addr, f.len] using h.post_time hp
  post_alarm _ := by simpa only [f.post, f.opc, f.addr, f.len] using h.post_alarm hp
  cfg_frame := ports.cfg_frame
  cfg_held := ports.cfg_held
  strobe := ports.strobe
  rst_idle hr := absurd (h.rst_idle (f.rst ▸ hr)) hp

/-- Outside the select frame, with no transfer awaited, `sel` is idle and nothing is requested. -/
theorem Inv.lines_at_rest (h : Inv s) (hs : selAsserted s.phase = false) (hw : waiting s.phase = false) :
    s.sel = State.selLevel false ∧ s.xReq = false :=
  ⟨hs ▸ h.sel_level, hw ▸ h.req_iff⟩

/-- The issue of a command in `IDLE` (R90): it completes, or it starts a transaction on a legal length. -/
theorem Inv.of_issue (h : Inv s) (hp : s.phase = .idle) (hr : s.rst = false) (hw : s.cfgWe = false)
    (f : IssueFrame s t) (e : IssueEnd s t) (hm : Memory.wf t.mem = true) : Inv t := by
  obtain ⟨xReq, xTx, sel, cfgOut, cfgWe, cfgIn, -⟩ := f.bus
  obtain ⟨-, -, -, rst, -, -⟩ := f.rest
  obtain ⟨hs, hx⟩ := h.lines_at_rest (by rw [hp]; rfl) (by rw [hp]; rfl)
  cases e with
  | completed code hc _ =>
    exact .of_idle hc.2 hm (by rw [hc.1]; rfl) (sel.trans hs) (xReq.trans hx) (cfgWe.trans hw)
  | started op a n post hst len time alarm =>
    obtain ⟨opc, addr, len', post', status, phase, -, -, -⟩ := hst
    constructor <;> simp [hm, status, phase, opc, addr, len', post', xReq, sel, cfgWe, rst, hs, hx, hw, hr,
      selAsserted, waiting, inData, inFrame]
    exacts [len, time, alarm]

/-! ### What a line of R184 leaves alone -/

/-- FINISH apart, a line of the sequencer's turn leaves `BUF` and the command's own registers alone. -/
theorem sequencerStep_frame (ht : s.sequencerStep = .next t) (hf : s.phase ≠ .finish) :
    EngineFrame s t ∧ t.mem = s.mem := by
  rcases sequencerStep_cases ht with ⟨-, rfl⟩ | ⟨-, rfl⟩ | ⟨-, rfl⟩ | ⟨-, rfl⟩ | ⟨-, rfl⟩ | ⟨-, -, rfl⟩ |
    ⟨-, rfl⟩ | ⟨-, rfl⟩ | ⟨hp, -⟩
  pick_goal 9
  · exact absurd hp hf
  all_goals
    constructor
    · constructor <;> simp [SameOperands, SameResults, SameRecords, State.stepSave, State.stepAssert,
        State.stepAddr, State.stepData, State.stepRelease, State.stepRestore]
    · simp [State.stepSave, State.stepAssert, State.stepAddr, State.stepData, State.stepRelease,
        State.stepRestore]

theorem doneAddr_frame (s : State) (rx : Byte) : EngineFrame s (s.doneAddr rx) := by
  constructor <;> simp [SameOperands, SameResults, SameRecords, State.doneAddr]

theorem doneData_frame (s : State) (rx : Byte) : EngineFrame s (s.doneData rx) := by
  unfold State.doneData State.storeAnswer
  cases s.opc <;> constructor <;> simp [SameOperands, SameResults, SameRecords]

/-- An answer is stored inside `BUF`. -/
theorem wf_storeAnswer (hm : Memory.wf s.mem = true) (hk : s.k.toNat < Config.bufSize) (rx : Byte) :
    Memory.wf (s.storeAnswer rx).mem = true := by
  unfold State.storeAnswer
  split
  · exact Memory.wf_insert hm hk rx
  · exact hm

/-- Storing an answer touches `BUF` only. -/
theorem storeAnswer_eq (s : State) (rx : Byte) :
    s.storeAnswer rx = { s with mem := (s.storeAnswer rx).mem } := by
  unfold State.storeAnswer
  split <;> rfl

/-- The work of FINISH touches the records only. -/
theorem runPost_eq (s : State) :
    s.runPost = { s with time := s.runPost.time, alarm := s.runPost.alarm } := by
  unfold State.runPost
  split <;> rfl

/-! ### The ports after each line of R184

The strobe `cfg_we` of the step before has fallen where a line begins (R36). -/

/-- The engine's configuration is in force while the frame is open (R186, R192). -/
theorem Inv.cfg_of_inFrame (h : Inv s) (hf : inFrame s.phase = true) :
    s.cfgOut = Config.engineCfg ∧ s.cfgIn = Config.engineCfg :=
  ⟨h.cfg_frame hf, h.cfg_held hf⟩

theorem Inv.ports_stepSave (h : Inv s) (hp : s.phase = .save) : PortsFollowPhase s.stepSave := by
  constructor <;> simp [State.stepSave, h.sel_level, h.req_iff, hp, selAsserted, waiting, inData]

theorem Inv.ports_stepAssert (h : Inv s) (hp : s.phase = .assert) (hw : s.cfgWe = false) :
    PortsFollowPhase s.stepAssert := by
  obtain ⟨out, held⟩ := h.cfg_of_inFrame (by rw [hp]; rfl)
  constructor <;> simp [State.stepAssert, h.req_iff, hp, hw, out, held, selAsserted, waiting, inData]

theorem Inv.ports_stepAddr (h : Inv s) (hp : s.phase = .addr) (hw : s.cfgWe = false) :
    PortsFollowPhase s.stepAddr := by
  obtain ⟨out, held⟩ := h.cfg_of_inFrame (by rw [hp]; rfl)
  constructor <;> simp [State.stepAddr, h.sel_level, hp, hw, out, held, selAsserted, waiting, inData]

/-- A data phase of a legal length has `K` = 0 at its start. -/
theorem Inv.ports_doneAddr (h : Inv s) (hp : s.phase = .addrWait) (hw : s.cfgWe = false) (rx : Byte) :
    PortsFollowPhase (s.doneAddr rx) := by
  obtain ⟨out, held⟩ := h.cfg_of_inFrame (by rw [hp]; rfl)
  by_cases hl : s.len = 0#8
  · constructor <;> simp [State.doneAddr, h.sel_level, hl, hp, hw, out, held, selAsserted, waiting, inData]
  · have hpos : 0 < s.len.toNat := Nat.pos_of_ne_zero fun h0 => hl (len_eq_zero h0)
    constructor <;> simp [State.doneAddr, h.sel_level, hl, hpos, hp, hw, out, held, selAsserted, waiting]

theorem Inv.ports_stepData (h : Inv s) (hp : s.phase = .data) (hw : s.cfgWe = false) :
    PortsFollowPhase s.stepData := by
  obtain ⟨out, held⟩ := h.cfg_of_inFrame (by rw [hp]; rfl)
  have hk := h.k_lt (by rw [hp]; rfl)
  constructor <;> simp [State.stepData, h.sel_level, hk, hp, hw, out, held, selAsserted, waiting]

/-- Another data phase follows only while `K` + 1 is below `LEN`. -/
theorem Inv.ports_doneData (h : Inv s) (hp : s.phase = .dataWait) (hw : s.cfgWe = false) (rx : Byte) :
    PortsFollowPhase (s.doneData rx) := by
  obtain ⟨out, held⟩ := h.cfg_of_inFrame (by rw [hp]; rfl)
  have hk := h.k_lt (by rw [hp]; rfl)
  unfold State.doneData
  rw [storeAnswer_eq]
  by_cases hl : s.k + 1#8 = s.len
  · constructor <;> simp [h.sel_level, hl, hp, hw, out, held, selAsserted, waiting, inData]
  · have hlt : (s.k + 1#8).toNat < s.len.toNat := by bv_omega
    constructor <;> simp [h.sel_level, hl, hp, hw, out, held, selAsserted, waiting]
    simpa using fun _ => hlt

theorem Inv.ports_stepRelease (h : Inv s) (hp : s.phase = .release) (hw : s.cfgWe = false) :
    PortsFollowPhase s.stepRelease := by
  obtain ⟨out, held⟩ := h.cfg_of_inFrame (by rw [hp]; rfl)
  constructor <;> simp [State.stepRelease, h.req_iff, hp, hw, out, held, selAsserted, waiting, inData]

theorem Inv.ports_stepRestore (h : Inv s) (hp : s.phase = .restore) : PortsFollowPhase s.stepRestore := by
  constructor <;> simp [State.stepRestore, h.sel_level, h.req_iff, hp, selAsserted, waiting, inData, inFrame]

/-! ### The moves -/

/-- Taking the move off the list and letting the strobe fall keeps the invariant. -/
theorem Inv.at_before (h : Inv s) : Inv (before s) :=
  h.of_sameLines h.mem_wf rfl rfl (by simp [SameLatches, before]) (by simp [SameLines, before]) rfl rfl

/-- FINISH ends the command with the ports as RESTORE left them (R193). -/
theorem Inv.of_stepFinish (h : Inv s) (hp : s.phase = .finish) (hw : s.cfgWe = false) : Inv s.stepFinish := by
  obtain ⟨hs, hx⟩ := h.lines_at_rest (by rw [hp]; rfl) (by rw [hp]; rfl)
  unfold State.stepFinish
  rw [runPost_eq]
  exact .of_idle rfl h.mem_wf rfl hs hx hw

/-- In the data phases `BUF[K]` exists, so no data phase faults. -/
theorem Inv.k_lt_bufSize (h : Inv s) (hd : inData s.phase = true) : s.k.toNat < Config.bufSize :=
  (h.k_lt hd).trans_le (h.len_le fun hp => by rw [hp] at hd; exact Bool.noConfusion hd)

theorem withBufIndex_of_lt (hk : s.k.toNat < Config.bufSize) (t : State) : s.withBufIndex t = .next t :=
  if_pos (decide_eq_true hk)

/-- The sequencer's turn answers in every phase. -/
theorem Inv.sequencerStep_answers (h : Inv s) : ∃ t, s.sequencerStep = .next t := by
  unfold State.sequencerStep
  cases hp : s.phase with
  | data => exact ⟨_, withBufIndex_of_lt (h.k_lt_bufSize (by rw [hp]; rfl)) _⟩
  | _ => exact ⟨_, rfl⟩

theorem Inv.of_sequencerStep (h : Inv s) (hw : s.cfgWe = false) (ht : s.sequencerStep = .next t) : Inv t := by
  by_cases hf : s.phase = .finish
  · have : t = s.stepFinish := by simpa [State.sequencerStep, hf] using ht.symm
    exact this ▸ h.of_stepFinish hf hw
  obtain ⟨frame, mem⟩ := sequencerStep_frame ht hf
  have hm : Memory.wf t.mem = true := mem ▸ h.mem_wf
  rcases sequencerStep_cases ht with ⟨-, rfl⟩ | ⟨hp, rfl⟩ | ⟨hp, rfl⟩ | ⟨hp, rfl⟩ | ⟨-, rfl⟩ | ⟨hp, -, rfl⟩ |
    ⟨hp, rfl⟩ | ⟨hp, rfl⟩ | ⟨hp, -⟩
  · exact h
  · exact h.advance (by simp [hp]) Phase.noConfusion frame hm (h.ports_stepSave hp)
  · exact h.advance (by simp [hp]) Phase.noConfusion frame hm (h.ports_stepAssert hp hw)
  · exact h.advance (by simp [hp]) Phase.noConfusion frame hm (h.ports_stepAddr hp hw)
  · exact h
  · exact h.advance (by simp [hp]) Phase.noConfusion frame hm (h.ports_stepData hp hw)
  · exact h.advance (by simp [hp]) Phase.noConfusion frame hm (h.ports_stepRelease hp hw)
  · exact h.advance (by simp [hp]) Phase.noConfusion frame hm (h.ports_stepRestore hp)
  · exact absurd hp hf

/-- The transport's completion answers in every phase. -/
theorem Inv.transportStep_answers (h : Inv s) (rx : Byte) : ∃ t, s.transportStep rx = .next t := by
  unfold State.transportStep
  cases hp : s.phase with
  | dataWait => exact ⟨_, withBufIndex_of_lt (h.k_lt_bufSize (by rw [hp]; rfl)) _⟩
  | _ => exact ⟨_, rfl⟩

theorem Inv.of_transportStep {rx : Byte} (h : Inv s) (hw : s.cfgWe = false)
    (ht : s.transportStep rx = .next t) : Inv t := by
  rcases transportStep_cases ht with ⟨hp, rfl⟩ | ⟨hp, hk, rfl⟩ | ⟨-, rfl⟩
  · exact h.advance (by simp [hp]) (by simp only [State.doneAddr, State.goto_phase]; split <;> simp)
      (doneAddr_frame s rx) (by simpa [State.doneAddr] using h.mem_wf) (h.ports_doneAddr hp hw rx)
  · exact h.advance (by simp [hp]) (by simp only [State.doneData, State.goto_phase]; split <;> simp)
      (doneData_frame s rx)
      (by simpa [State.doneData] using wf_storeAnswer h.mem_wf hk rx) (h.ports_doneData hp hw rx)
  · exact h

/-- `BUSY` = 0 is `IDLE` (R25). -/
theorem Inv.idle_of_not_busy (h : Inv s) (hb : s.status.busy = false) : s.phase = .idle := by
  simpa [hb] using h.busy_iff

/-- A reset step leaves the reset state, whatever stood before (R260). -/
theorem inv_applyReset (s : State) : Inv s.applyReset :=
  .of_idle rfl rfl rfl rfl rfl rfl

/-- Every case of a step outside reset keeps the invariant. -/
theorem Inv.of_stepCase (h : Inv s) (hr : s.rst = false) (c : StepCase s t) : Inv t := by
  have hb := h.at_before
  cases c with
  | read _ _ ht | strap _ _ ht =>
    subst ht
    exact h.of_sameLines h.mem_wf rfl rfl (by simp [SameLatches, before]) (by simp [SameLines, before]) rfl rfl
  | busyWrite _ _ _ _ ht | rst _ ht => exact ht ▸ hb
  | issue v _ hbusy ht =>
    obtain ⟨t', ht', frame, fin, mem⟩ := issue_spec v (before s)
    obtain rfl : t' = t := by simpa [ht'] using ht
    exact hb.of_issue (h.idle_of_not_busy hbusy) hr rfl frame fin (mem hb.mem_wf)
  | write a v _ _ _ ht =>
    subst ht
    have f := writeReg_frame (before s) v (hostReg a)
    obtain ⟨xReq, xTx, sel, cfgOut, cfgWe, cfgIn, trace⟩ := f.bus
    obtain ⟨-, -, -, rst, -, -⟩ := f.rest
    exact hb.of_sameLines (wf_writeReg _ v a hb.mem_wf) f.status f.phase f.latches
      ⟨xReq, xTx, sel, cfgOut, cfgIn, trace⟩ rst cfgWe
  | sequencer _ ht => exact hb.of_sequencerStep rfl ht
  | transport rx _ ht => exact hb.of_transportStep rfl ht
  | busUser c _ hp ht =>
    subst ht
    obtain ⟨hs, hx⟩ := h.lines_at_rest (by rw [hp]; rfl) (by rw [hp]; rfl)
    exact .of_idle hp h.mem_wf (by simp [before, h.busy_iff, hp]) hs hx rfl

/-- A step outside reset answers, whatever move R13 allows comes next. -/
theorem Inv.step_answers (h : Inv s) (hn : resetting s = false) (hd : busDuty s) : ∃ t, step s = .next t := by
  have hr := rst_of_not_resetting hn
  cases hi : s.nextInput with
  | hostRead a => exact ⟨_, step_hostRead hr hi⟩
  | hostWrite a v =>
    cases hb : s.status.busy with
    | true => exact ⟨_, step_hostWrite_busy hr hb hi⟩
    | false =>
      by_cases ha : a = 0x00#8
      · subst ha
        obtain ⟨t, ht, -⟩ := issue_spec v (before s)
        exact ⟨t, (step_issue ⟨hr, hb⟩ hi).trans ht⟩
      · exact ⟨_, step_hostWrite ⟨hr, hb⟩ ha hi⟩
  | sequencer => exact (step_sequencer hr hi).symm ▸ h.at_before.sequencerStep_answers
  | transport rx => exact (step_transport hr hi).symm ▸ h.at_before.transportStep_answers rx
  | busUser c => exact ⟨_, (step_busUser hr hi).trans (if_pos (hd c hi))⟩
  | strap b => exact ⟨_, step_strap hr hi⟩
  | rst b => exact ⟨_, (step_rst_falls hn hi).1⟩

/-- A move R13 forbids is another bus user's in a transaction, and is refused (U10). -/
theorem Inv.step_refused (h : Inv s) (hd : ¬ busDuty s) : step s = .refused .busUserInTransaction := by
  simp only [busDuty, not_forall] at hd
  obtain ⟨c, hi, hp⟩ := hd
  have hr : s.rst = false := Bool.eq_false_iff.2 fun hr => hp (h.rst_idle hr)
  exact (step_busUser hr hi).trans (if_neg hp)

end rules

/-- Settles O49: a reset step leaves the reset state; a step outside reset answers and is one of the cases of
`StepCase`, each of which keeps the invariant; the move R13 forbids is refused. -/
theorem everyStepGoesOnAndKeepsInvariant : Obligations.EveryStepGoesOnAndKeepsInvariant := by
  intro s h
  refine ⟨fun hd => ?_, h.step_refused⟩
  cases hn : resetting s with
  | true => exact ⟨_, step_resetting hn, inv_applyReset _⟩
  | false =>
    obtain ⟨t, ht⟩ := h.step_answers hn hd
    exact ⟨t, ht, h.of_stepCase (rst_of_not_resetting hn) (step_cases hn ht)⟩

end Safety
end Sys2Proof
end

section
/-! The host port (R20 to R33, R38, R39, R41): which register a host address names, what a register reads as after
a write, and the moves that touch one register or one pin. -/

namespace Sys2Proof
namespace Safety

open Machine

/-! ### The address map -/

/-- The host address of a register (R20); a reserved address names no register, and 0x09 stands for all of them. -/
def regAddr : HostReg → Nat
  | .cmdOp => 0x00
  | .cmdA => 0x01
  | .cmdB => 0x02
  | .cmdC => 0x03
  | .status => 0x04
  | .cfg => 0x05
  | .res0 => 0x06
  | .res1 => 0x07
  | .resM => 0x08
  | .tSec => 0x10
  | .tMin => 0x11
  | .tHr24 => 0x12
  | .tHr12 => 0x13
  | .tMer => 0x14
  | .tDow => 0x15
  | .tDom => 0x16
  | .tMon => 0x17
  | .tYr => 0x18
  | .aSec => 0x20
  | .aMin => 0x21
  | .aHr24 => 0x22
  | .aHr12 => 0x23
  | .aMer => 0x24
  | .aDow => 0x25
  | .buf k => bufAddr k
  | .reserved => 0x09

theorem toNat_eq_regAddr : ∀ a : Byte, hostReg a ≠ .reserved → a.toNat = regAddr (hostReg a) := by decide

/-- A register sits at its own address. -/
theorem toNat_of_hostReg {a : Byte} {x : HostReg} (h : hostReg a = x) (hx : x ≠ .reserved) :
    a.toNat = regAddr x := by
  subst h
  exact toNat_eq_regAddr a hx

/-- No two addresses name one register (R41). -/
theorem hostReg_inj {a b : Byte} (h : hostReg b = hostReg a) (ha : hostReg a ≠ .reserved) : b = a :=
  BitVec.eq_of_toNat_eq ((toNat_of_hostReg h ha).trans (toNat_of_hostReg rfl ha).symm)

theorem hostReg_of_bufBase_le {a : Byte} (h : 0x80 ≤ a.toNat) : hostReg a = .buf (a.toNat - 0x80) := if_pos h

theorem hostReg_reserved : ∀ a : Byte,
    (0x09 ≤ a.toNat ∧ a.toNat ≤ 0x0F) ∨ (0x19 ≤ a.toNat ∧ a.toNat ≤ 0x1F) ∨
    (0x26 ≤ a.toNat ∧ a.toNat ≤ 0x7F) → hostReg a = .reserved := by decide

/-! ### What a register reads as -/

theorem status_byte_toNat (st : Status) : st.byte.toNat =
    (if st.busy then 1 else 0) + (if st.done then 2 else 0) + 4 * resultCode st.result := by
  obtain ⟨busy, done, result⟩ := st
  cases busy <;> cases done <;> cases result <;> rfl

theorem cfgByte_toNat (m : Bool) : (cfgByte m).toNat = if m then 1 else 0 := by
  cases m <;> rfl

theorem merByte_toNat : ∀ m : MerCode, (merByte m).toNat = m.toNat := by decide

/-- A meridiem register keeps bits 1:0 of the byte written (R34). -/
theorem merByte_merOfByte : ∀ v : Byte, merByte (merOfByte v) = v &&& 0x03#8 := by decide

/-- The registers a host write leaves as they are (R20, R33); `CMD_OP` stores nothing (R21). -/
def readOnly : HostReg → Bool
  | .cmdOp => true
  | .status => true
  | .cfg => true
  | .res0 => true
  | .res1 => true
  | .resM => true
  | .reserved => true
  | _ => false

/-- What a register reads as after a host write of `v` to it (R20, R33, R34). -/
def afterWrite (s : State) (v : Byte) (x : HostReg) : Byte :=
  if readOnly x then s.readReg x
  else if x = .tMer ∨ x = .aMer then merByte (merOfByte v)
  else v

/-- A write shows in the register written and in no other. -/
theorem readReg_writeReg (s : State) (v : Byte) (x y : HostReg) :
    (s.writeReg v x).readReg y = if y = x then afterWrite s v x else s.readReg y := by
  cases x with
  | buf k =>
    cases y with
    | buf j => simpa [State.writeReg, State.readReg, afterWrite, readOnly] using State.buf_setBuf s k j v
    | _ => rfl
  | _ => cases y <;> rfl

theorem readOnly_hostReg : ∀ a : Byte, readOnly (hostReg a) = !hostWritable a.toNat := by decide

theorem hostReg_meridiem_iff : ∀ a : Byte,
    (hostReg a = .tMer ∨ hostReg a = .aMer) ↔ (a = 0x14#8 ∨ a = 0x24#8) := by decide

/-- The same by host address (R20, R34). -/
theorem afterWrite_hostReg (s : State) (v a : Byte) :
    afterWrite s v (hostReg a) = if hostWritable a.toNat = false then s.hostByte a
      else if a = 0x14#8 ∨ a = 0x24#8 then v &&& 0x03#8 else v := by
  simp only [afterWrite, readOnly_hostReg, hostReg_meridiem_iff, merByte_merOfByte, Bool.not_eq_true']
  rfl

/-- A host write reaches no other address (R41): of two addresses of one register, both are reserved. -/
theorem hostByte_writeReg_of_ne (s : State) (v : Byte) {a b : Byte} (h : b ≠ a) :
    (s.writeReg v (hostReg a)).hostByte b = s.hostByte b := by
  rw [State.hostByte, readReg_writeReg]
  split
  · rename_i hx
    have ha : hostReg a = .reserved := by_contra fun ha => h (hostReg_inj hx ha)
    rw [State.hostByte, hx, ha]
    rfl
  · rfl

/-! ### The moves -/

/-- Settles O42: each row of the map is the register's own field; the reserved addresses by `hostReg_reserved`, the
read by `step_hostRead`. -/
theorem hostReadsHaveNoSideEffect : Obligations.HostReadsHaveNoSideEffect := by
  refine ⟨fun s => ⟨?_, ?_, ?_, fun a ha => ?_⟩, fun s a ha => ?_, fun s a hr hi => step_hostRead hr hi⟩
  · exact ⟨rfl, rfl, rfl, rfl, status_byte_toNat _, cfgByte_toNat _, rfl, rfl, merByte_toNat _⟩
  · exact ⟨rfl, rfl, rfl, rfl, merByte_toNat _, rfl, rfl, rfl, rfl⟩
  · exact ⟨rfl, rfl, rfl, rfl, merByte_toNat _, rfl⟩
  · rw [State.hostByte, hostReg_of_bufBase_le ha]
    rfl
  · rw [State.hostByte, hostReg_reserved a ha]
    rfl

/-- Settles O43: the write is `writeReg` of the register addressed; the rest is its frame. -/
theorem hostWriteStoresInOneRegister : Obligations.HostWriteStoresInOneRegister := by
  intro s a v hs hi ha
  have f := writeReg_frame (before s) v (hostReg a)
  obtain ⟨xReq, xTx, sel, cfgOut, -, cfgIn, trace⟩ := f.bus
  refine ⟨_, step_hostWrite hs ha hi, ?_, fun b hb => hostByte_writeReg_of_ne (before s) v hb, f.phase, f.latches,
    ⟨xReq, xTx, sel, cfgOut, cfgIn, trace⟩, f.rest⟩
  calc ((before s).writeReg v (hostReg a)).hostByte a
      _ = afterWrite (before s) v (hostReg a) := by rw [State.hostByte, readReg_writeReg, if_pos rfl]
      _ = _ := afterWrite_hostReg (before s) v a

/-- Settles O41: a busy block takes the move off the list, and a read shows the register. -/
theorem busyIgnoresHostWrites : Obligations.BusyIgnoresHostWrites := fun _ hr hb =>
  ⟨fun _ _ hi => step_hostWrite_busy hr hb hi, fun _ hi => ⟨_, step_hostRead hr hi, rfl⟩⟩

/-- `x_done` outside a wait phase (R36). -/
theorem transportStep_of_not_waiting {s : State} (rx : Byte) (hw : waiting s.phase = false) :
    s.transportStep rx = .next s := by
  unfold State.transportStep
  cases hp : s.phase with
  | addrWait | dataWait => simp [hp, waiting] at hw
  | _ => rfl

/-- Settles O58: each clause is its move's own lemma. -/
theorem strayPinMovesChangeOnlyTheirPin : Obligations.StrayPinMovesChangeOnlyTheirPin := fun _ hr =>
  ⟨fun rx hi hw => (step_transport hr hi).trans (transportStep_of_not_waiting rx hw),
    fun _ hi =>
      ⟨fun hp => (step_busUser hr hi).trans (if_pos hp), fun hp => (step_busUser hr hi).trans (if_neg hp)⟩,
    fun _ hi => step_strap hr hi⟩

end Safety
end Sys2Proof
end

section
/-! Which steps write `STATUS`, the operand and result registers and the records (R22 to R31, R213, R215, R238):
the issue of a command, a host write and FINISH, and no other step outside reset. -/

namespace Sys2Proof
namespace Safety

open Machine

section writers

variable {s t : State}

/-! ### What a command writes -/

/-- The result registers and the records a command can change in its issuing step, with the commands that do. -/
structure CommandTargets (i : Instr) (s t : State) : Prop where
  res0 : t.res0 ≠ s.res0 → i ∈ [.bcdEnc, .bcdDec, .bcd8Enc, .bcd8Dec, .hourEnc, .hourDec]
  hour : t.res1 ≠ s.res1 ∨ t.resM ≠ s.resM → i = .hourDec
  time : t.time ≠ s.time → i = .tpktDec
  alarm : t.alarm ≠ s.alarm → i = .apktDec ∨ i = .getAlarm ∧ s.cmdA ≠ 0#8 ∧ s.cmdA ≠ 1#8

theorem CommandTargets.of_same (i : Instr) (results : SameResults s t) (records : SameRecords s t) :
    CommandTargets i s t := by
  obtain ⟨res0, res1, resM⟩ := results
  obtain ⟨time, alarm⟩ := records
  constructor <;> simp [res0, res1, resM, time, alarm]

theorem exec_targets {i : Instr} (h : exec i s = .next t) : CommandTargets i s t := by
  cases i with
  | bcdEnc | bcdDec | bcd8Enc | bcd8Dec | hourEnc | hourDec | tpktDec | apktDec =>
    injection h with h
    subst h
    constructor <;> simp
  | tpktEnc | apktEnc | setTime | getTime =>
    injection h with h
    subst h
    exact .of_same _ ⟨rfl, rfl, rfl⟩ ⟨rfl, rfl⟩
  | burstRd | burstWr =>
    injection h with h
    subst h
    unfold State.issueBurst
    split <;> exact .of_same _ ⟨rfl, rfl, rfl⟩ ⟨rfl, rfl⟩
  | setAlarm =>
    simp only [exec, execSetAlarm] at h
    split at h <;> injection h with h <;> subst h <;> exact .of_same _ ⟨rfl, rfl, rfl⟩ ⟨rfl, rfl⟩
  | getAlarm =>
    simp only [exec, execGetAlarm] at h
    split at h <;> injection h with h <;> subst h
    · exact .of_same _ ⟨rfl, rfl, rfl⟩ ⟨rfl, rfl⟩
    · rename_i hi
      rw [alarmIndexOk_iff, not_or] at hi
      exact ⟨by simp [State.raiseResult], by simp [State.raiseResult], by simp [State.raiseResult],
        fun _ => .inr ⟨rfl, hi⟩⟩

/-- The issue of an opcode is the command decoded, or leaves every register but `STATUS` alone (R231). -/
theorem issue_targets {v : Byte} (h : issue v s = .next t) :
    (∃ i, decode v = .ok i ∧ CommandTargets i s t) ∨ SameResults s t ∧ SameRecords s t := by
  unfold issue at h
  split at h
  · exact .inl ⟨_, ‹_›, exec_targets h⟩
  · injection h with h
    subst h
    exact .inr ⟨⟨rfl, rfl, rfl⟩, rfl, rfl⟩

theorem eq_encode_of_decode {v : Byte} {i : Instr} (h : decode v = .ok i) : v = encode i := by
  revert v
  cases i <;> decide

/-! ### What a host write and FINISH write -/

theorem writeReg_time_ne {v : Byte} {x : HostReg} (h : (s.writeReg v x).time ≠ s.time) :
    0x10 ≤ regAddr x ∧ regAddr x ≤ 0x18 := by
  cases x <;> simp [State.writeReg] at h <;> simp [regAddr]

theorem writeReg_alarm_ne {v : Byte} {x : HostReg} (h : (s.writeReg v x).alarm ≠ s.alarm) :
    0x20 ≤ regAddr x ∧ regAddr x ≤ 0x25 := by
  cases x <;> simp [State.writeReg] at h <;> simp [regAddr]

/-- A register that is not reserved has the address it is reached by. -/
theorem toNat_of_le_regAddr {a : Byte} (h : 0x10 ≤ regAddr (hostReg a)) : a.toNat = regAddr (hostReg a) :=
  toNat_of_hostReg rfl fun hr => by simp [hr, regAddr] at h

/-- FINISH writes the record of its `POST` (R193). -/
theorem stepFinish_targets (s : State) :
    (s.stepFinish.time ≠ s.time → s.post = .tdec) ∧ (s.stepFinish.alarm ≠ s.alarm → s.post = .adec) := by
  unfold State.stepFinish State.runPost
  cases s.post <;> simp

theorem stepFinish_kept (s : State) : SameOperands s s.stepFinish ∧ SameResults s s.stepFinish := by
  unfold State.stepFinish
  rw [runPost_eq]
  exact ⟨⟨rfl, rfl, rfl⟩, rfl, rfl, rfl⟩

/-! ### The steps by what they write -/

/-- The registers no step outside reset writes but an issue, a host write and FINISH. -/
structure SameRegisters (s t : State) : Prop where
  operands : SameOperands s t
  results : SameResults s t
  records : SameRecords s t
  status : t.status = s.status

theorem SameRegisters.of_engineFrame (f : EngineFrame (before s) t) : SameRegisters s t :=
  ⟨f.operands, f.results, f.records, f.status⟩

/-- A step outside reset by the registers it writes. -/
inductive WriterCase (s t : State) : Prop
  | none (same : SameRegisters s t)
  | issue (v : Byte) (hi : s.nextInput = .hostWrite 0x00#8 v) (hb : s.status.busy = false)
      (ht : Machine.issue v (before s) = .next t)
  | write (a v : Byte) (hi : s.nextInput = .hostWrite a v) (hb : s.status.busy = false)
      (ht : t = (before s).writeReg v (hostReg a))
  | finish (hi : s.nextInput = .sequencer) (hp : s.phase = .finish) (ht : t = (before s).stepFinish)

theorem step_writerCase (hr : resetting s = false) (hs : step s = .next t) : WriterCase s t := by
  have still : SameRegisters s (before s) := ⟨⟨rfl, rfl, rfl⟩, ⟨rfl, rfl, rfl⟩, ⟨rfl, rfl⟩, rfl⟩
  cases step_cases hr hs with
  | read _ _ ht | busyWrite _ _ _ _ ht | busUser _ _ _ ht | strap _ _ ht | rst _ ht =>
    subst ht
    exact .none ⟨still.operands, still.results, still.records, still.status⟩
  | issue v hi hb ht => exact .issue v hi hb ht
  | write a v hi hb _ ht => exact .write a v hi hb ht
  | sequencer hi ht =>
    by_cases hp : s.phase = .finish
    · refine .finish hi hp ?_
      have hp' : (before s).phase = .finish := hp
      simpa [State.sequencerStep, hp'] using ht.symm
    · exact .none (.of_engineFrame (sequencerStep_frame ht hp).1)
  | transport rx _ ht =>
    rcases transportStep_cases ht with ⟨-, rfl⟩ | ⟨-, -, rfl⟩ | ⟨-, rfl⟩
    · exact .none (.of_engineFrame (doneAddr_frame (before s) rx))
    · exact .none (.of_engineFrame (doneData_frame (before s) rx))
    · exact .none still

/-- A host write that changes what an address shows is a write to that address (R41). -/
theorem addr_eq_of_hostByte_ne {v a b : Byte} (h : (s.writeReg v (hostReg a)).hostByte b ≠ s.hostByte b) :
    a = b :=
  by_contra fun hab => h (hostByte_writeReg_of_ne s v (Ne.symm hab))

/-- What changes an operand register at host address `b`. -/
theorem operand_writer (c : WriterCase s t) {b : Byte} (same : SameOperands s t → t.hostByte b = s.hostByte b)
    (finish : (before s).stepFinish.hostByte b = s.hostByte b) (h : t.hostByte b ≠ s.hostByte b) :
    ∃ v, s.nextInput = .hostWrite b v ∧ s.status.busy = false := by
  cases c with
  | none regs => exact absurd (same regs.operands) h
  | issue v _ _ ht =>
    obtain ⟨t', ht', frame, -⟩ := issue_spec v (before s)
    obtain rfl : t' = t := by simpa [ht'] using ht
    exact absurd (same frame.operands) h
  | write a v hi hb ht =>
    subst ht
    exact ⟨v, by rw [hi, addr_eq_of_hostByte_ne h], hb⟩
  | finish _ _ ht => exact absurd (ht ▸ finish) h

end writers

/-! ### The statements -/

/-- Settles O51: neither an issue nor FINISH writes an operand register. -/
theorem operandRegistersKept : Obligations.OperandRegistersKept := by
  intro s t hr hs
  have c := step_writerCase hr hs
  obtain ⟨⟨a, b, c'⟩, -⟩ := stepFinish_kept (before s)
  exact ⟨operand_writer c (b := 0x01#8) And.left a, operand_writer c (b := 0x02#8) (·.2.1) b,
    operand_writer c (b := 0x03#8) (·.2.2) c'⟩

theorem no_result_changed {s t : State} {P Q : Prop} (h : SameResults s t) :
    (t.res0 ≠ s.res0 → P) ∧ (t.res1 ≠ s.res1 ∨ t.resM ≠ s.resM → Q) := by
  obtain ⟨h0, h1, hm⟩ := h
  simp [h0, h1, hm]

/-- Settles O52: of the writers only an issue reaches a result register. -/
theorem resultRegistersKept : Obligations.ResultRegistersKept := by
  intro s t hr hs
  cases step_writerCase hr hs with
  | none same => exact no_result_changed same.results
  | write a v _ _ ht => exact no_result_changed (ht ▸ (writeReg_frame (before s) v (hostReg a)).results)
  | finish _ _ ht => exact no_result_changed (ht ▸ (stepFinish_kept (before s)).2)
  | issue v hi hb ht =>
    rcases issue_targets ht with ⟨i, hd, target⟩ | ⟨same, -⟩
    · exact ⟨fun h => ⟨hb, v, i, hi, hd, target.res0 h⟩, fun h => ⟨hb, by
        rw [hi, eq_encode_of_decode hd, target.hour h]
        rfl⟩⟩
    · exact no_result_changed same

/-- Settles O53: an issue reaches a record by the commands of `CommandTargets`, a host write by an address of the
record, FINISH by its `POST`. -/
theorem recordsChangeOnlyByTheirWriters : Obligations.RecordsChangeOnlyByTheirWriters := by
  intro s t hr hs
  cases step_writerCase hr hs with
  | none same => exact ⟨fun h => absurd same.records.1 h, fun h => absurd same.records.2 h⟩
  | write a v hi hb ht =>
    subst ht
    refine ⟨fun h => .inr ⟨hb, .inr ⟨a, v, hi, ?_⟩⟩, fun h => .inr ⟨hb, .inr (.inr ⟨a, v, hi, ?_⟩)⟩⟩
    · have hx := writeReg_time_ne h
      rwa [toNat_of_le_regAddr hx.1]
    · have hx := writeReg_alarm_ne h
      rwa [toNat_of_le_regAddr (by omega)]
  | finish hi hp ht =>
    subst ht
    have target := stepFinish_targets (before s)
    exact ⟨fun h => .inl ⟨hi, hp, target.1 h⟩, fun h => .inl ⟨hi, hp, target.2 h⟩⟩
  | issue v hi hb ht =>
    rcases issue_targets ht with ⟨i, hd, target⟩ | ⟨-, same⟩
    · obtain rfl := eq_encode_of_decode hd
      refine ⟨fun h => .inr ⟨hb, .inl ?_⟩, fun h => .inr ⟨hb, ?_⟩⟩
      · rw [hi, target.time h]
        rfl
      · rcases target.alarm h with rfl | ⟨rfl, h0, h1⟩
        · exact .inl hi
        · exact .inr (.inl ⟨hi, h0, h1⟩)
    · exact ⟨fun h => absurd same.1 h, fun h => absurd same.2 h⟩

/-- Settles O54: a host write leaves `STATUS` alone, so an issue and FINISH remain. -/
theorem statusChangesOnlyAtIssueAndFinish : Obligations.StatusChangesOnlyAtIssueAndFinish := by
  intro s t hr hs h
  cases step_writerCase hr hs with
  | none same => exact absurd same.status h
  | write a v _ _ ht => exact absurd (ht ▸ (writeReg_frame (before s) v (hostReg a)).status) h
  | finish hi hp _ => exact .inr ⟨hi, hp⟩
  | issue v hi hb _ => exact .inl ⟨hb, v, hi⟩

end Safety
end Sys2Proof
end

section
/-! The strict machine of R40 stops at no latch of R35 (R184, R185): each phase needs some latches, a step into a
phase finds them needed before or writes them, and what a line reads of the latches is needed in its phase. -/

namespace Sys2Proof
namespace Safety

open Machine

/-! ### The strict step -/

/-- The strict machine goes on when every register read was written (R40). -/
theorem trackedStep_next_iff {t t' : Tracked} :
    t.step = .next t' ↔ stepReads t.st ⊆ t.written ∧ step t.st = .next t'.st ∧ t'.written = t.writtenAfter := by
  have hfind : (stepReads t.st).find? (fun r => !t.written.contains r) = none ↔ stepReads t.st ⊆ t.written := by
    simp [List.find?_eq_none, List.subset_def]
  unfold Tracked.step
  rw [← hfind]
  cases (stepReads t.st).find? (fun r => !t.written.contains r) with
  | some r => simp
  | none =>
    obtain ⟨st', written'⟩ := t'
    cases step t.st <;> simp [eq_comm]

/-- It stops at a register read and not written. -/
theorem mem_stepReads_of_unspecRead {t : Tracked} {r : UnspecReg} (h : t.step = .fault (.unspecRead r)) :
    r ∈ stepReads t.st ∧ r ∉ t.written := by
  unfold Tracked.step at h
  split at h
  · rename_i r' hfind
    obtain rfl : r' = r := by simpa using h
    exact ⟨List.mem_of_find?_eq_some hfind, by simpa using List.find?_some hfind⟩
  · split at h <;> simp at h

/-! ### The latches a phase needs -/

/-- The latches `Tracked.LatchesWritten` asks for in a phase. -/
def latchesIn (p : Phase) : List UnspecReg :=
  (if p ≠ .idle then startLatches else []) ++ (if inFrame p then [.savedCfg] else []) ++
    (if waiting p then [.txb] else []) ++ (if inData p then [.k] else [])

theorem latchesWritten_iff {t : Tracked} : t.LatchesWritten ↔ latchesIn t.st.phase ⊆ t.written := by
  simp only [latchesIn, List.append_subset]
  constructor
  · rintro ⟨started, frame, transfer, data⟩
    refine ⟨⟨⟨?_, ?_⟩, ?_⟩, ?_⟩ <;> split
    all_goals simp_all [List.subset_def]
  · rintro ⟨⟨⟨started, frame⟩, transfer⟩, data⟩
    constructor <;> intro hp
    · rwa [if_pos hp] at started
    · simpa [hp] using frame
    · simpa [hp] using transfer
    · simpa [hp] using data

/-- A command that leaves `IDLE` has written the latches of `start` (R185). -/
theorem startLatches_subset_commandWrites {i : Instr} {s t : State} (h : exec i s = .next t)
    (hp : t.phase ≠ .idle) : startLatches ⊆ commandWrites i s := by
  cases i with
  | bcdEnc | bcdDec | bcd8Enc | bcd8Dec | hourEnc | hourDec | tpktEnc | tpktDec | apktEnc | apktDec =>
    injection h with h
    exact absurd (h ▸ rfl) hp
  | burstRd | burstWr =>
    injection h with h
    by_cases hn : s.cmdB.toNat ≤ 128
    · simp [commandWrites, hn]
    · refine absurd ?_ hp
      rw [← h, State.issueBurst, if_pos (by simpa [State.opB, Config.maxLen] using hn)]
      rfl
  | setTime => exact List.subset_append_right _ _
  | getTime => exact List.Subset.refl _
  | setAlarm =>
    by_cases hi : alarmIndexOk s.opA = true
    · simp [commandWrites, show alarmIndexOk s.cmdA = true from hi]
    · rw [exec, execSetAlarm, if_neg hi] at h
      injection h with h
      exact absurd (h ▸ rfl) hp
  | getAlarm =>
    by_cases hi : alarmIndexOk s.opA = true
    · simp [commandWrites, show alarmIndexOk s.cmdA = true from hi]
    · rw [exec, execGetAlarm, if_neg hi] at h
      injection h with h
      exact absurd (h ▸ rfl) hp

theorem startLatches_subset_of_issue {v : Byte} {s t : State} (h : issue v s = .next t) (hp : t.phase ≠ .idle) :
    ∃ i, decode v = .ok i ∧ startLatches ⊆ commandWrites i s := by
  unfold issue at h
  split at h
  · exact ⟨_, ‹_›, startLatches_subset_commandWrites h hp⟩
  · injection h with h
    exact absurd (h ▸ rfl) hp

/-- One line of R184, from phase `p` to phase `q`. -/
theorem latchesIn_line {s t : State} {ws : List UnspecReg} (p q : Phase) (hp : s.phase = p) (hq : t.phase = q)
    (h : latchesIn q ⊆ latchesIn p ++ ws) : latchesIn t.phase ⊆ latchesIn s.phase ++ ws := by
  rwa [hp, hq]

theorem latchesIn_idle {t : State} (h : t.phase = .idle) (l : List UnspecReg) : latchesIn t.phase ⊆ l :=
  h ▸ List.nil_subset _

theorem latchesIn_issue {v : Byte} {s t : State} (h : issue v s = .next t) :
    latchesIn t.phase = [] ∨ ∃ i, decode v = .ok i ∧ latchesIn t.phase ⊆ commandWrites i s := by
  obtain ⟨t', ht', -, fin, -⟩ := issue_spec v s
  obtain rfl : t' = t := by simpa [ht'] using h
  cases fin with
  | completed _ hc _ => exact .inl (by rw [hc.2]; rfl)
  | started op a n post hst _ _ _ =>
    obtain ⟨-, -, -, -, -, hp, -⟩ := hst
    rw [hp]
    exact .inr (startLatches_subset_of_issue h (by simp [hp]))

theorem latchesIn_sequencerStep {s t : State} (h : s.sequencerStep = .next t) :
    latchesIn t.phase ⊆ latchesIn s.phase ++ sequencerWrites s := by
  rcases sequencerStep_cases h with ⟨-, rfl⟩ | ⟨hp, rfl⟩ | ⟨hp, rfl⟩ | ⟨hp, rfl⟩ | ⟨-, rfl⟩ | ⟨hp, -, rfl⟩ |
    ⟨hp, rfl⟩ | ⟨hp, rfl⟩ | ⟨-, rfl⟩
  · exact List.subset_append_left _ _
  · exact latchesIn_line .save .assert hp rfl (by simp only [sequencerWrites, hp]; decide)
  · exact latchesIn_line .assert .addr hp rfl (by simp only [sequencerWrites, hp]; decide)
  · exact latchesIn_line .addr .addrWait hp rfl (by simp only [sequencerWrites, hp]; decide)
  · exact List.subset_append_left _ _
  · exact latchesIn_line .data .dataWait hp rfl (by simp only [sequencerWrites, hp]; decide)
  · exact latchesIn_line .release .restore hp rfl (by simp only [sequencerWrites, hp]; decide)
  · exact latchesIn_line .restore .finish hp rfl (by simp only [sequencerWrites, hp]; decide)
  · exact latchesIn_idle rfl _

theorem latchesIn_transportStep {s t : State} {rx : Byte} (h : s.transportStep rx = .next t) :
    latchesIn t.phase ⊆ latchesIn s.phase ++ transportWrites s := by
  rcases transportStep_cases h with ⟨hp, rfl⟩ | ⟨hp, -, rfl⟩ | ⟨-, rfl⟩
  · have hq : (s.doneAddr rx).phase = .release ∨ (s.doneAddr rx).phase = .data := ite_eq_or_eq _ _ _
    rcases hq with hq | hq <;> refine latchesIn_line .addrWait _ hp hq ?_ <;>
      simp only [transportWrites, hp] <;> decide
  · have hq : (s.doneData rx).phase = .release ∨ (s.doneData rx).phase = .data := ite_eq_or_eq _ _ _
    rcases hq with hq | hq <;> refine latchesIn_line .dataWait _ hp hq (List.subset_append_of_subset_left _ ?_) <;>
      decide
  · exact List.subset_append_left _ _

/-- The latches needed after a step were needed before it or are written in it. -/
theorem latchesIn_step {s t : State} (hr : resetting s = false) (hs : step s = .next t) :
    latchesIn t.phase ⊆ latchesIn s.phase ++ stepWrites s := by
  have still : t.phase = s.phase → latchesIn t.phase ⊆ latchesIn s.phase ++ stepWrites s :=
    fun hp => hp ▸ List.subset_append_left _ _
  cases step_cases hr hs with
  | read _ _ ht | busyWrite _ _ _ _ ht | busUser _ _ _ ht | strap _ _ ht | rst _ ht => exact still (ht ▸ rfl)
  | write a v _ _ _ ht => exact still (ht ▸ (writeReg_frame (before s) v (hostReg a)).phase)
  | issue v hi hb ht =>
    rcases latchesIn_issue ht with hl | ⟨i, hd, hl⟩
    · exact hl ▸ List.nil_subset _
    · refine List.subset_append_of_subset_right _ ?_
      simp only [stepWrites, hi, hb, hd]
      exact hl
  | sequencer hi ht =>
    simp only [stepWrites, hi]
    exact latchesIn_sequencerStep (s := before s) ht
  | transport rx hi ht =>
    simp only [stepWrites, hi]
    exact latchesIn_transportStep (s := before s) ht

/-- A line's reads are latches of its phase, then host registers. -/
theorem host_or_latch {p : Phase} {latches : List UnspecReg} {as : List Nat} {r : UnspecReg}
    (hl : latches ⊆ latchesIn p) (h : r ∈ latches ++ hostRegs as) : (∃ a, r = .host a) ∨ r ∈ latchesIn p := by
  rcases List.mem_append.1 h with h | h
  · exact .inr (hl h)
  · obtain ⟨a, -, ha⟩ := List.mem_map.1 h
    exact .inl ⟨a, ha.symm⟩

theorem sequencerReads_host_or_latch {s : State} {r : UnspecReg} (h : r ∈ sequencerReads s) :
    (∃ a, r = .host a) ∨ r ∈ latchesIn s.phase := by
  unfold sequencerReads at h
  cases hp : s.phase <;> rw [hp] at h
  case addr => exact host_or_latch (latches := [.opc, .addr]) (as := []) (by decide) h
  case restore => exact host_or_latch (latches := [.savedCfg]) (as := []) (by decide) h
  case data =>
    cases ho : s.opc <;> simp only [ho] at h
    · exact host_or_latch (latches := [.opc, .k]) (as := []) (by decide) h
    · exact host_or_latch (latches := [.opc, .k]) (as := [_]) (by decide) h
  case finish =>
    cases hq : s.post <;> simp only [hq] at h
    · exact host_or_latch (latches := [.post]) (as := []) (by decide) h
    · exact host_or_latch (latches := [.post]) (by decide) h
    · exact host_or_latch (latches := [.post]) (by decide) h
  all_goals exact absurd h List.not_mem_nil

theorem transportReads_subset_latchesIn (s : State) : transportReads s ⊆ latchesIn s.phase := by
  unfold transportReads
  cases s.phase <;> decide

/-- A latch a step reads is needed in its phase. -/
theorem stepReads_host_or_latch {s : State} {r : UnspecReg} (h : r ∈ stepReads s) :
    (∃ a, r = .host a) ∨ r ∈ latchesIn s.phase := by
  unfold stepReads at h
  split at h
  · exact absurd h List.not_mem_nil
  · split at h
    · split at h
      · exact .inl ⟨_, List.mem_singleton.1 h⟩
      · exact absurd h List.not_mem_nil
    · split at h
      · exact absurd h List.not_mem_nil
      · split at h
        · exact host_or_latch (List.nil_subset _) h
        · exact absurd h List.not_mem_nil
    · exact sequencerReads_host_or_latch h
    · exact .inr (transportReads_subset_latchesIn s h)
    all_goals exact absurd h List.not_mem_nil

/-- Settles O60: `latchesIn_step` keeps the latches written, and by `stepReads_host_or_latch` a read of one not
written is none of them. -/
theorem latchesAreWrittenBeforeTheyAreRead : Obligations.LatchesAreWrittenBeforeTheyAreRead := by
  refine ⟨latchesWritten_iff.2 (List.nil_subset _), fun t ht => ⟨fun t' h => ?_, fun r h => ?_⟩⟩
  · obtain ⟨-, hs, hw⟩ := trackedStep_next_iff.1 h
    rw [latchesWritten_iff] at ht ⊢
    rw [hw, Tracked.writtenAfter]
    cases hr : resetting t.st with
    | true =>
      rw [step_resetting hr] at hs
      injection hs with hs
      rw [← hs]
      exact List.nil_subset _
    | false =>
      exact List.Subset.trans (latchesIn_step hr hs)
        (List.append_subset.2 ⟨List.subset_append_of_subset_left _ ht, List.subset_append_right _ _⟩)
  · obtain ⟨hr, hw⟩ := mem_stepReads_of_unspecRead h
    exact (stepReads_host_or_latch hr).resolve_right fun hl => hw (latchesWritten_iff.1 ht hl)

end Safety
end Sys2Proof
end

section
/-! Two states that agree on the registers written take the same strict steps (R40). There is one rule for each
operation of the state: done on both sides, it keeps the agreement, and what it writes is agreed on after. -/

namespace Sys2Proof
namespace Safety

open Machine

section agreement

variable {w : List UnspecReg} {s t : State}

/-! ### What the agreement gives -/

theorem Agree.mono {v : List UnspecReg} (h : Agree w s t) (hv : v ⊆ w) : Agree v s t :=
  { h with regs := fun r hr => h.regs r (hv hr) }

/-- A host register written reads the same on both sides. -/
theorem Agree.host (h : Agree w s t) {a : Nat} (ha : .host a ∈ w) (b : Byte) (hb : b.toNat = a) :
    t.hostByte b = s.hostByte b :=
  h.regs _ ha b hb

/-- An address that is not reserved is its register's (R41). -/
theorem hostReg_of_toNat {b : Byte} {x : HostReg} (hx : x ≠ .reserved) (hb : b.toNat = regAddr x) :
    hostReg b = x := by
  have hb' : b = BitVec.ofNat 8 (regAddr x) := by rw [← hb, BitVec.ofNat_toNat, BitVec.setWidth_eq]
  cases x with
  | buf k =>
    have hb : b.toNat = 0x80 + k := hb
    rw [hostReg_of_bufBase_le (by omega), hb, Nat.add_sub_cancel_left]
  | reserved => exact absurd rfl hx
  | _ =>
    rw [hb']
    rfl

theorem Agree.buf (h : Agree w s t) {k : Nat} (hk : k < Config.bufSize) (ha : .host (bufAddr k) ∈ w) :
    t.buf k = s.buf k := by
  have hb : (BitVec.ofNat 8 (bufAddr k)).toNat = bufAddr k :=
    Nat.mod_eq_of_lt (by simp only [bufAddr, Config.bufBase, Config.bufSize] at hk ⊢; omega)
  have := h.host ha _ hb
  rwa [State.hostByte, State.hostByte, hostReg_of_toNat (x := .buf k) HostReg.noConfusion hb] at this

theorem merByte_inj {m n : MerCode} (h : merByte m = merByte n) : m = n :=
  BitVec.eq_of_toNat_eq (by rw [← merByte_toNat m, h, merByte_toNat])

/-! ### Operations on the sequencer and the ports -/

theorem Agree.before (h : Agree w s t) : Agree w (before s) (before t) :=
  { h with cfgWe := rfl, inputs := congrArg List.tail h.inputs }

theorem Agree.goto (h : Agree w s t) (p : Phase) : Agree w (s.goto p) (t.goto p) := { h with phase := rfl }

/-- After a reset nothing is written, and all else is the reset state or a pin (R260). -/
theorem Agree.applyReset (h : Agree w s t) : Agree [] s.applyReset t.applyReset :=
  ⟨rfl, h.strap, rfl, rfl, rfl, rfl, h.cfgIn, h.strap, h.rst, h.inputs, rfl, h.draws,
    fun _ hr => absurd hr List.not_mem_nil⟩

theorem Agree.setPins (h : Agree w s t) (i : Input) : Agree w (s.setPins i) (t.setPins i) := by
  cases i with
  | busUser c => exact { h with cfgIn := rfl }
  | strap b => exact { h with strap := rfl }
  | rst b => exact { h with rst := rfl }
  | _ => exact h

/-- A register of `w`, or the one new. -/
theorem forall_mem_concat {P : UnspecReg → Prop} {r : UnspecReg} (h : ∀ x ∈ w, P x) (hr : P r) :
    ∀ x ∈ w ++ [r], P x :=
  List.forall_mem_append.2 ⟨h, List.forall_mem_singleton.2 hr⟩

theorem Agree.setK (h : Agree w s t) (n : Byte) : Agree (w ++ [.k]) (s.setK n) (t.setK n) :=
  { h with regs := forall_mem_concat (fun r hr => by cases r with | k => rfl | _ => exact h.regs _ hr) rfl }

theorem Agree.cfgSave (h : Agree w s t) : Agree (w ++ [.savedCfg]) s.cfgSave t.cfgSave :=
  { h with
    trace := by rw [State.cfgSave_trace, State.cfgSave_trace, h.trace, h.cfgIn]
    regs := forall_mem_concat
      (fun r hr => by cases r with | savedCfg => exact h.cfgIn | _ => exact h.regs _ hr) h.cfgIn }

theorem Agree.cfgSet (h : Agree w s t) (c : CfgWord) : Agree (w ++ [.cfgOut]) (s.cfgSet c) (t.cfgSet c) :=
  { h with
    cfgWe := rfl
    cfgIn := rfl
    trace := congrArg (· ++ _) h.trace
    regs := forall_mem_concat (fun r hr => by cases r with | cfgOut => rfl | _ => exact h.regs _ hr) rfl }

theorem Agree.driveSel (h : Agree w s t) (b : Bool) : Agree w (s.driveSel b) (t.driveSel b) :=
  { h with sel := rfl, trace := congrArg (· ++ _) h.trace }

theorem Agree.xferIssue (h : Agree w s t) (tx : Byte) :
    Agree (w ++ [.txb, .xTx]) (s.xferIssue tx) (t.xferIssue tx) :=
  { h with
    xReq := rfl
    regs := List.forall_mem_append.2
      ⟨fun r hr => by cases r with | txb | xTx => rfl | _ => exact h.regs _ hr,
        by simp [SameReg]⟩ }

theorem Agree.xferDone (h : Agree w s t) (htx : t.txb = s.txb) (rx : Byte) :
    Agree w (s.xferDone rx) (t.xferDone rx) :=
  { h with xReq := rfl, trace := by rw [State.xferDone_trace, State.xferDone_trace, h.trace, htx] }

/-! ### `STATUS` -/

/-- Updates of both sides that carry every register's agreement over carry an address's. -/
theorem SameReg.carry {s t s' t' : State} {a : Nat} (h : SameReg s t (.host a))
    (carry : ∀ x, t.readReg x = s.readReg x → t'.readReg x = s'.readReg x) : SameReg s' t' (.host a) :=
  fun b hb => carry _ (h b hb)

theorem Agree.setStatus (h : Agree w s t) (st : Status) :
    Agree w { s with status := st } { t with status := st } :=
  { h with
    status := rfl
    regs := fun r hr => by
      cases r with
      | host a => exact SameReg.carry (h.regs _ hr) fun x hx => by cases x with | status => rfl | _ => exact hx
      | _ => exact h.regs _ hr }

theorem Agree.accept (h : Agree w s t) : Agree w s.accept t.accept := by
  unfold State.accept
  rw [h.status]
  exact h.setStatus _

theorem Agree.complete (h : Agree w s t) (code : ResultCode) : Agree w (s.complete code) (t.complete code) :=
  (h.setStatus (.completed code)).goto .idle

theorem Agree.raiseResult (h : Agree w s t) (code : ResultCode) :
    Agree w (s.raiseResult code) (t.raiseResult code) :=
  h.accept.complete code

theorem Agree.start (h : Agree w s t) (op : Dir) (a n : Byte) (post : Post) :
    Agree (w ++ startLatches) (s.start op a n post) (t.start op a n post) := by
  have h' := h.setStatus s.status.started
  unfold State.start
  rw [h.status]
  exact { h' with
    phase := rfl
    regs := List.forall_mem_append.2
      ⟨fun r hr => by cases r with | opc | addr | len | post => rfl | _ => exact h'.regs _ hr,
        by simp [startLatches, SameReg]⟩ }

/-! ### Registers of the host register space -/

/-- `s` with the registers `unspec` in R20, and the count of draws, of `u`. -/
def hostFrom (s u : State) : State :=
  { s with
    cmdA := u.cmdA, cmdB := u.cmdB, cmdC := u.cmdC, res0 := u.res0, res1 := u.res1, resM := u.resM
    time := u.time, alarm := u.alarm, mem := u.mem, draws := u.draws }

/-- Host registers `xs` are written the same on both sides, the others carry their agreement over. -/
theorem Agree.hostFrom {u v : State} (h : Agree w s t) (xs : List HostReg) (hx : .reserved ∉ xs)
    (draws : v.draws = u.draws)
    (reads : ∀ x, x ∈ xs ∨ t.readReg x = s.readReg x →
      (hostFrom t v).readReg x = (hostFrom s u).readReg x) :
    Agree (w ++ hostRegs (xs.map regAddr)) (hostFrom s u) (hostFrom t v) :=
  { h with
    draws := draws
    regs := List.forall_mem_append.2
      ⟨fun r hr => by
        cases r with
        | host a => exact SameReg.carry (h.regs _ hr) fun x h => reads x (.inr h)
        | _ => exact h.regs _ hr,
      fun r hr => by
        obtain ⟨a, ha, rfl⟩ := List.mem_map.1 hr
        obtain ⟨x, hxs, rfl⟩ := List.mem_map.1 ha
        intro b hb
        have hb := hostReg_of_toNat (fun hr => hx (hr ▸ hxs)) hb
        rw [State.hostByte, State.hostByte, hb]
        exact reads x (.inl hxs)⟩ }

theorem Agree.setRes0 (h : Agree w s t) (v : Byte) : Agree (w ++ hostRegs [0x06]) (s.setRes0 v) (t.setRes0 v) :=
  h.hostFrom (u := s.setRes0 v) (v := t.setRes0 v) [.res0] (by decide) h.draws fun x hx => by
    cases x with
    | res0 => rfl
    | _ => exact hx.resolve_left (by simp)

theorem Agree.putRes0 (h : Agree w s t) (o : Option Byte) :
    Agree (w ++ hostRegs [0x06]) (s.putRes0 o) (t.putRes0 o) :=
  h.hostFrom (u := s.putRes0 o) (v := t.putRes0 o) [.res0] (by decide) (congrArg (· + 1) h.draws) fun x hx => by
    cases x with
    | res0 => exact congrArg (fun n => o.getD (Config.unspecByte (n + 0))) h.draws
    | _ => exact hx.resolve_left (by simp)

theorem Agree.setHour (h : Agree w s t) (a b : Byte) (m : MerCode) :
    Agree (w ++ hostRegs [0x06, 0x07, 0x08]) (s.setHour a b m) (t.setHour a b m) :=
  h.hostFrom (u := s.setHour a b m) (v := t.setHour a b m) [.res0, .res1, .resM] (by decide) h.draws fun x hx => by
    cases x with
    | res0 | res1 | resM => rfl
    | _ => exact hx.resolve_left (by simp)

theorem Agree.setTime (h : Agree w s t) (r : TimeRecord) :
    Agree (w ++ hostRegs timeRegs) { s with time := r } { t with time := r } :=
  h.hostFrom (u := { s with time := r }) (v := { t with time := r })
    [.tSec, .tMin, .tHr24, .tHr12, .tMer, .tDow, .tDom, .tMon, .tYr] (by decide) h.draws fun x hx => by
    cases x with
    | tSec | tMin | tHr24 | tHr12 | tMer | tDow | tDom | tMon | tYr => rfl
    | _ => exact hx.resolve_left (by simp)

theorem Agree.setAlarm (h : Agree w s t) (r : AlarmRecord) :
    Agree (w ++ hostRegs alarmRegs) { s with alarm := r } { t with alarm := r } :=
  h.hostFrom (u := { s with alarm := r }) (v := { t with alarm := r })
    [.aSec, .aMin, .aHr24, .aHr12, .aMer, .aDow] (by decide) h.draws fun x hx => by
    cases x with
    | aSec | aMin | aHr24 | aHr12 | aMer | aDow => rfl
    | _ => exact hx.resolve_left (by simp)

theorem Agree.clearAlarm (h : Agree w s t) : Agree (w ++ hostRegs alarmRegs) s.clearAlarm t.clearAlarm :=
  h.setAlarm _

theorem Agree.decTime (h : Agree w s t) (hb : ∀ k < 7, t.buf k = s.buf k) :
    Agree (w ++ hostRegs timeRegs) s.decTime t.decTime := by
  unfold State.decTime
  simp only [hb 0, hb 1, hb 2, hb 3, hb 4, hb 5, hb 6, Nat.reduceLT]
  exact h.setTime _

theorem Agree.decAlarm (h : Agree w s t) (hb : ∀ k < 4, t.buf k = s.buf k) :
    Agree (w ++ hostRegs alarmRegs) s.decAlarm t.decAlarm := by
  unfold State.decAlarm
  simp only [hb 0, hb 1, hb 2, hb 3, Nat.reduceLT]
  exact h.setAlarm _

theorem bufAddrs_eq (n : Nat) : ((List.range n).map HostReg.buf).map regAddr = bufAddrs n := by
  rw [List.map_map]
  rfl

theorem Agree.putPacket (h : Agree w s t) (os : List (Option Byte)) :
    Agree (w ++ hostRegs (bufAddrs os.length)) (s.putPacket os) (t.putPacket os) := by
  rw [← bufAddrs_eq]
  refine h.hostFrom (u := s.putPacket os) (v := t.putPacket os) _ (by simp) (congrArg (· + _) h.draws)
    fun x hx => ?_
  cases x with
  | buf k =>
    show (t.putPacket os).buf k = (s.putPacket os).buf k
    rw [State.buf_putPacket, State.buf_putPacket]
    cases ho : os[k]? with
    | none => exact hx.resolve_left (by simpa using ho)
    | some o => exact congrArg (fun n => o.getD (Config.unspecByte (n + k))) h.draws
  | _ => exact hx.resolve_left (by simp)

/-- A host write: the register written, if the host may write it. -/
theorem Agree.writeReg (h : Agree w s t) (v : Byte) {x : HostReg} (hx : readOnly x = false) :
    Agree (w ++ hostRegs [regAddr x]) (s.writeReg v x) (t.writeReg v x) := by
  have e : ∀ s : State, Safety.hostFrom s (s.writeReg v x) = s.writeReg v x := fun s => by cases x <;> rfl
  have hres : .reserved ∉ [x] := fun hr => by
    rw [← List.mem_singleton.1 hr] at hx
    exact Bool.noConfusion hx
  have draws : (t.writeReg v x).draws = (s.writeReg v x).draws := by
    rw [(writeReg_frame t v x).draws, (writeReg_frame s v x).draws, h.draws]
  have := h.hostFrom [x] hres draws fun y hy => by
    rw [e, e, readReg_writeReg, readReg_writeReg]
    by_cases hyx : y = x
    · simp [afterWrite, hx, hyx]
    · simpa [hyx] using hy
  rwa [e, e] at this

theorem writeReg_readOnly (s : State) (v : Byte) {x : HostReg} (hx : readOnly x = true) : s.writeReg v x = s := by
  cases x <;> simp [readOnly] at hx <;> rfl

/-! ### The lines of R184 -/

theorem Agree.stepSave (h : Agree w s t) : Agree (w ++ [.savedCfg, .cfgOut]) s.stepSave t.stepSave := by
  have := (h.cfgSave.cfgSet Config.engineCfg).goto .assert
  rwa [List.append_assoc] at this

theorem Agree.stepAssert (h : Agree w s t) : Agree w s.stepAssert t.stepAssert := (h.driveSel true).goto .addr

theorem Agree.stepAddr (h : Agree w s t) (opc : t.opc = s.opc) (addr : t.addr = s.addr) :
    Agree (w ++ [.txb, .xTx]) s.stepAddr t.stepAddr := by
  have hb : t.abyte = s.abyte := by rw [State.abyte, State.abyte, opc, addr]
  unfold State.stepAddr
  rw [hb]
  exact (h.xferIssue _).goto _

theorem Agree.stepData (h : Agree w s t) (hb : t.dataByte = s.dataByte) :
    Agree (w ++ [.txb, .xTx]) s.stepData t.stepData := by
  unfold State.stepData
  rw [hb]
  exact (h.xferIssue _).goto _

theorem Agree.stepRelease (h : Agree w s t) : Agree w s.stepRelease t.stepRelease :=
  (h.driveSel false).goto .restore

theorem Agree.stepRestore (h : Agree w s t) (cfg : t.savedCfg = s.savedCfg) :
    Agree (w ++ [.cfgOut]) s.stepRestore t.stepRestore := by
  unfold State.stepRestore
  rw [cfg]
  exact (h.cfgSet _).goto _

theorem Agree.doneAddr (h : Agree w s t) (txb : t.txb = s.txb) (len : t.len = s.len) (rx : Byte) :
    Agree (w ++ [.k]) (s.doneAddr rx) (t.doneAddr rx) := by
  unfold State.doneAddr
  rw [len]
  exact ((h.xferDone txb rx).setK _).goto _

/-- The end of a data phase, the answer already stored. -/
theorem Agree.endData (h : Agree w s t) (txb : t.txb = s.txb) (rx k : Byte) (p : Phase) :
    Agree (w ++ [.k]) (((s.xferDone rx).setK k).goto p) (((t.xferDone rx).setK k).goto p) :=
  ((h.xferDone txb rx).setK k).goto p

theorem Agree.doneData (h : Agree w s t) (hp : s.phase = .dataWait) (opc : t.opc = s.opc) (k : t.k = s.k)
    (txb : t.txb = s.txb) (len : t.len = s.len) (rx : Byte) :
    Agree (w ++ transportWrites s) (s.doneData rx) (t.doneData rx) := by
  unfold State.doneData State.storeAnswer
  rw [opc, k, len]
  simp only [transportWrites, hp]
  cases s.opc with
  | rd =>
    refine ((h.writeReg rx (x := .buf s.k.toNat) rfl).endData txb rx _ _).mono ?_
    rw [List.append_assoc]
    exact List.append_subset.2 ⟨List.subset_append_left _ _,
      List.subset_append_of_subset_right _ (List.Perm.swap _ _ []).subset⟩
  | wr => exact h.endData txb rx _ _

/-- The outcome is a next state that agrees with `s'` on `w`. -/
def Follows (w : List UnspecReg) (s' : State) (o : Host.Outcome State Fault Refusal) : Prop :=
  ∃ t', o = .next t' ∧ Agree w s' t'

theorem Agree.buf_of_bufAddrs (h : Agree w s t) {n : Nat} (hn : n ≤ Config.bufSize)
    (hr : ∀ a ∈ bufAddrs n, .host a ∈ w) : ∀ k < n, t.buf k = s.buf k := fun k hk =>
  h.buf (by omega) (hr _ (List.mem_map_of_mem (List.mem_range.2 hk)))

theorem Agree.stepFinish (h : Agree w s t) (hp : s.phase = .finish) (hr : sequencerReads s ⊆ w) :
    Agree (w ++ sequencerWrites s) s.stepFinish t.stepFinish := by
  simp only [sequencerReads, hp] at hr
  simp only [sequencerWrites, hp]
  have post : t.post = s.post := by
    refine h.regs .post (hr ?_)
    cases s.post <;> exact List.mem_cons_self
  unfold State.stepFinish State.runPost
  rw [post]
  cases hq : s.post <;> simp only [hq] at hr ⊢
  · simpa using h.complete .ok
  · exact (h.decTime (h.buf_of_bufAddrs (by decide) fun a ha => hr (by simp [hostRegs, ha]))).complete .ok
  · exact (h.decAlarm (h.buf_of_bufAddrs (by decide) fun a ha => hr (by simp [hostRegs, ha]))).complete .ok

theorem Agree.dataByte (h : Agree w s t) (hp : s.phase = .data) (hk : s.k.toNat < Config.bufSize)
    (hr : sequencerReads s ⊆ w) : t.dataByte = s.dataByte ∧ t.k = s.k := by
  simp only [sequencerReads, hp] at hr
  have opc : t.opc = s.opc := h.regs .opc (hr (by cases s.opc <;> simp))
  have k : t.k = s.k := h.regs .k (hr (by cases s.opc <;> simp))
  refine ⟨?_, k⟩
  unfold State.dataByte
  rw [opc, k]
  cases ho : s.opc <;> simp only [ho] at hr ⊢
  exact h.buf hk (hr (by simp))

/-- A move that leaves the block as it is. -/
theorem Agree.follows_self (h : Agree w s t) {ws : List UnspecReg} (hw : ws = [])
    {o : Host.Outcome State Fault Refusal} (ho : o = .next t) : Follows (w ++ ws) s o :=
  ⟨t, ho, by rwa [hw, List.append_nil]⟩

/-- The sequencer's turn. -/
theorem Agree.sequencerStep (h : Agree w s t) (hr : sequencerReads s ⊆ w) {s' : State}
    (hs : s.sequencerStep = .next s') : Follows (w ++ sequencerWrites s) s' t.sequencerStep := by
  have reg : ∀ r, r ∈ sequencerReads s → SameReg s t r := fun _ hm => h.regs _ (hr hm)
  rcases sequencerStep_cases hs with ⟨hp, rfl⟩ | ⟨hp, rfl⟩ | ⟨hp, rfl⟩ | ⟨hp, rfl⟩ | ⟨hw, rfl⟩ | ⟨hp, hk, rfl⟩ |
    ⟨hp, rfl⟩ | ⟨hp, rfl⟩ | ⟨hp, rfl⟩
  · exact h.follows_self (by rw [sequencerWrites, hp]) (by rw [State.sequencerStep, h.phase.trans hp])
  · refine ⟨t.stepSave, by rw [State.sequencerStep, h.phase.trans hp], ?_⟩
    simpa only [sequencerWrites, hp] using h.stepSave
  · refine ⟨t.stepAssert, by rw [State.sequencerStep, h.phase.trans hp], ?_⟩
    simpa only [sequencerWrites, hp, List.append_nil] using h.stepAssert
  · refine ⟨t.stepAddr, by rw [State.sequencerStep, h.phase.trans hp], ?_⟩
    simpa only [sequencerWrites, hp] using
      h.stepAddr (reg .opc (by simp [sequencerReads, hp])) (reg .addr (by simp [sequencerReads, hp]))
  · have hp : s'.phase = .addrWait ∨ s'.phase = .dataWait := by
      cases hp : s'.phase <;> simp [hp, waiting] at hw ⊢
    rcases hp with hp | hp <;>
      exact h.follows_self (by rw [sequencerWrites, hp]) (by rw [State.sequencerStep, h.phase.trans hp])
  · obtain ⟨hb, k⟩ := h.dataByte hp hk hr
    refine ⟨t.stepData, ?_, by simpa only [sequencerWrites, hp] using h.stepData hb⟩
    rw [State.sequencerStep, h.phase.trans hp]
    exact withBufIndex_of_lt (by rw [k]; exact hk) _
  · refine ⟨t.stepRelease, by rw [State.sequencerStep, h.phase.trans hp], ?_⟩
    simpa only [sequencerWrites, hp, List.append_nil] using h.stepRelease
  · refine ⟨t.stepRestore, by rw [State.sequencerStep, h.phase.trans hp], ?_⟩
    simpa only [sequencerWrites, hp] using h.stepRestore (reg .savedCfg (by simp [sequencerReads, hp]))
  · exact ⟨t.stepFinish, by rw [State.sequencerStep, h.phase.trans hp], h.stepFinish hp hr⟩

/-- The transport's move. -/
theorem Agree.transportStep (h : Agree w s t) (hr : transportReads s ⊆ w) {s' : State} {rx : Byte}
    (hs : s.transportStep rx = .next s') : Follows (w ++ transportWrites s) s' (t.transportStep rx) := by
  have reg : ∀ {r : UnspecReg}, r ∈ transportReads s → SameReg s t r := fun hm => h.regs _ (hr hm)
  rcases transportStep_cases hs with ⟨hp, rfl⟩ | ⟨hp, hk, rfl⟩ | ⟨hw, rfl⟩
  · simp only [transportReads, transportWrites, hp] at reg ⊢
    exact ⟨_, by rw [State.transportStep, h.phase.trans hp],
      h.doneAddr (reg (r := .txb) (by simp)) (reg (r := .len) (by simp)) rx⟩
  · simp only [transportReads, hp] at reg
    have k : t.k = s.k := reg (r := .k) (by simp)
    refine ⟨t.doneData rx, ?_, h.doneData hp (reg (r := .opc) (by simp)) k (reg (r := .txb) (by simp))
      (reg (r := .len) (by simp)) rx⟩
    rw [State.transportStep, h.phase.trans hp]
    exact withBufIndex_of_lt (by rw [k]; exact hk) _
  · refine h.follows_self ?_ (transportStep_of_not_waiting rx (by rw [h.phase, hw]))
    unfold transportWrites
    cases hp : s'.phase <;> simp [hp, waiting] at hw ⊢

/-! ### The commands -/

theorem Agree.cmdA (h : Agree w s t) (hm : .host 0x01 ∈ w) : t.cmdA = s.cmdA := h.host hm 0x01#8 rfl

theorem Agree.cmdB (h : Agree w s t) (hm : .host 0x02 ∈ w) : t.cmdB = s.cmdB := h.host hm 0x02#8 rfl

theorem Agree.opC (h : Agree w s t) (hm : .host 0x03 ∈ w) : t.opC = s.opC :=
  congrArg merOfByte (h.host hm 0x03#8 rfl : t.cmdC = s.cmdC)

/-- The hour encoder reads only the fields of `hourReads` (R140, D37). -/
theorem hourEnc_congr {mode12 : Bool} {x y x' y' : Byte} {m m' : MerCode} {a24 a12 am : Nat} {F : Nat → Prop}
    (hr : ∀ a ∈ hourReads mode12 (isWild y) a24 a12 am, F a) (h24 : F a24 → x' = x) (h12 : F a12 → y' = y)
    (hm : F am → m' = m) :
    hourEnc mode12 x' y' m' = hourEnc mode12 x y m ∧
      hourReads mode12 (isWild y') a24 a12 am = hourReads mode12 (isWild y) a24 a12 am := by
  cases mode12 with
  | false => exact ⟨by rw [h24 (hr a24 List.mem_cons_self)]; rfl, rfl⟩
  | true =>
    obtain rfl := h12 (hr a12 List.mem_cons_self)
    refine ⟨?_, rfl⟩
    cases hw : isWild y' with
    | true => simp [hourEnc, hourEnc12, hw]
    | false => rw [hm (hr am (by simp [hourReads, hw]))]; rfl

theorem Agree.tpktEnc (h : Agree w s t) (hr : ∀ a ∈ timeReads s, .host a ∈ w) :
    Machine.tpktEnc t.mode12 t.time = Machine.tpktEnc s.mode12 s.time ∧ timeReads t = timeReads s := by
  simp only [timeReads, List.forall_mem_append, List.forall_mem_cons] at hr
  obtain ⟨⟨⟨hsec, hmin, -⟩, hhour⟩, hdow, hdom, hmon, hyr, -⟩ := hr
  have hr24 : .host 0x12 ∈ w → t.time.hr24 = s.time.hr24 := fun hm => h.host hm 0x12#8 rfl
  have hr12 : .host 0x13 ∈ w → t.time.hr12 = s.time.hr12 := fun hm => h.host hm 0x13#8 rfl
  have mer : .host 0x14 ∈ w → t.time.mer = s.time.mer := fun hm => merByte_inj (h.host hm 0x14#8 rfl)
  obtain ⟨henc, hreads⟩ := hourEnc_congr hhour hr24 hr12 mer
  have sec : t.time.sec = s.time.sec := h.host hsec 0x10#8 rfl
  have min : t.time.min = s.time.min := h.host hmin 0x11#8 rfl
  have dow : t.time.dow = s.time.dow := h.host hdow 0x15#8 rfl
  have dom : t.time.dom = s.time.dom := h.host hdom 0x16#8 rfl
  have mon : t.time.mon = s.time.mon := h.host hmon 0x17#8 rfl
  have yr : t.time.yr = s.time.yr := h.host hyr 0x18#8 rfl
  constructor
  · simp only [Machine.tpktEnc, h.mode12, henc, sec, min, dow, dom, mon, yr]
  · simp only [timeReads, h.mode12, hreads]

theorem Agree.apktEnc (h : Agree w s t) (hr : ∀ a ∈ alarmReads s, .host a ∈ w) :
    Machine.apktEnc t.mode12 t.alarm = Machine.apktEnc s.mode12 s.alarm ∧ alarmReads t = alarmReads s := by
  simp only [alarmReads, List.forall_mem_append, List.forall_mem_cons] at hr
  obtain ⟨⟨⟨hsec, hmin, -⟩, hhour⟩, hdow, -⟩ := hr
  have hr24 : .host 0x22 ∈ w → t.alarm.hr24 = s.alarm.hr24 := fun hm => h.host hm 0x22#8 rfl
  have hr12 : .host 0x23 ∈ w → t.alarm.hr12 = s.alarm.hr12 := fun hm => h.host hm 0x23#8 rfl
  have mer : .host 0x24 ∈ w → t.alarm.mer = s.alarm.mer := fun hm => merByte_inj (h.host hm 0x24#8 rfl)
  obtain ⟨henc, hreads⟩ := hourEnc_congr hhour hr24 hr12 mer
  have sec : t.alarm.sec = s.alarm.sec := h.host hsec 0x20#8 rfl
  have min : t.alarm.min = s.alarm.min := h.host hmin 0x21#8 rfl
  have dow : t.alarm.dow = s.alarm.dow := h.host hdow 0x25#8 rfl
  constructor
  · simp only [Machine.apktEnc, h.mode12, henc, sec, min, dow]
  · simp only [alarmReads, h.mode12, hreads]

theorem Agree.encTime (h : Agree w s t) (hr : ∀ a ∈ timeReads s, .host a ∈ w) :
    Agree (w ++ hostRegs (bufAddrs 7)) s.encTime t.encTime := by
  unfold State.encTime
  rw [(h.tpktEnc hr).1]
  exact h.putPacket (Machine.tpktEnc s.mode12 s.time)

theorem Agree.encAlarm (h : Agree w s t) (hr : ∀ a ∈ alarmReads s, .host a ∈ w) :
    Agree (w ++ hostRegs (bufAddrs 4)) s.encAlarm t.encAlarm := by
  unfold State.encAlarm
  rw [(h.apktEnc hr).1]
  exact h.putPacket (Machine.apktEnc s.mode12 s.alarm)

theorem Agree.issueBurst (h : Agree w s t) (ha : t.cmdA = s.cmdA) (hb : t.cmdB = s.cmdB) (op : Dir) :
    Agree (w ++ if s.cmdB.toNat ≤ 128 then startLatches else []) (s.issueBurst op) (t.issueBurst op) := by
  unfold State.issueBurst State.opA State.opB
  rw [ha, hb]
  by_cases hn : s.cmdB.toNat ≤ 128
  · have hn' : ¬ s.cmdB.toNat > Config.maxLen := Nat.not_lt.2 hn
    rw [if_pos hn, if_neg hn', if_neg hn']
    exact h.accept.start _ _ _ _
  · have hn' : s.cmdB.toNat > Config.maxLen := Nat.not_le.1 hn
    rw [if_neg hn, if_pos hn', if_pos hn', List.append_nil]
    exact h.raiseResult _

/-- The issue of a command. -/
theorem Agree.exec (h : Agree w s t) {i : Instr} (hr : ∀ a ∈ commandReads i s, .host a ∈ w) :
    ∃ s' t', exec i s = .next s' ∧ Machine.exec i t = .next t' ∧ Agree (w ++ commandWrites i s) s' t' := by
  have hA : 0x01 ∈ commandReads i s → t.opA = s.opA := fun hm => h.cmdA (hr _ hm)
  have hB : 0x02 ∈ commandReads i s → t.opB = s.opB := fun hm => h.cmdB (hr _ hm)
  cases i with
  | bcdEnc =>
    exact ⟨_, _, rfl, by rw [Machine.exec, execBcdEnc, hA (by simp [commandReads]), hB (by simp [commandReads])],
      (h.accept.putRes0 _).complete .ok⟩
  | bcdDec =>
    exact ⟨_, _, rfl, by rw [Machine.exec, execBcdDec, hA (by simp [commandReads]), hB (by simp [commandReads])],
      (h.accept.setRes0 _).complete .ok⟩
  | bcd8Enc =>
    exact ⟨_, _, rfl, by rw [Machine.exec, execBcd8Enc, hA (by simp [commandReads])],
      (h.accept.putRes0 _).complete .ok⟩
  | bcd8Dec =>
    exact ⟨_, _, rfl, by rw [Machine.exec, execBcd8Dec, hA (by simp [commandReads])],
      (h.accept.setRes0 _).complete .ok⟩
  | hourEnc =>
    have hc : hourEnc s.mode12 t.opA t.opB t.opC = hourEnc s.mode12 s.opA s.opB s.opC :=
      (hourEnc_congr hr h.cmdA h.cmdB h.opC).1
    exact ⟨_, _, rfl, by rw [Machine.exec, execHourEnc, h.mode12, hc], (h.accept.putRes0 _).complete .ok⟩
  | hourDec =>
    exact ⟨_, _, rfl, by rw [Machine.exec, execHourDec, hA (by simp [commandReads])],
      (h.accept.setHour _ _ _).complete .ok⟩
  | tpktEnc => exact ⟨_, _, rfl, rfl, (h.accept.encTime hr).complete .ok⟩
  | tpktDec => exact ⟨_, _, rfl, rfl, (h.accept.decTime (h.buf_of_bufAddrs (by decide) hr)).complete .ok⟩
  | apktEnc => exact ⟨_, _, rfl, rfl, (h.accept.encAlarm hr).complete .ok⟩
  | apktDec => exact ⟨_, _, rfl, rfl, (h.accept.decAlarm (h.buf_of_bufAddrs (by decide) hr)).complete .ok⟩
  | burstRd | burstWr =>
    exact ⟨_, _, rfl, rfl, h.issueBurst (hA (by simp [commandReads])) (hB (by simp [commandReads])) _⟩
  | setTime =>
    have := (h.accept.encTime hr).start .wr timeBase timeLen .none
    rw [List.append_assoc] at this
    exact ⟨_, _, rfl, rfl, this⟩
  | getTime => exact ⟨_, _, rfl, rfl, h.accept.start .rd timeBase timeLen .tdec⟩
  | setAlarm =>
    have hA := hA List.mem_cons_self
    simp only [commandReads, commandWrites] at hr ⊢
    by_cases hi : alarmIndexOk s.opA = true
    · have hi' : alarmIndexOk s.cmdA = true := hi
      rw [if_pos hi'] at hr ⊢
      have := (h.accept.encAlarm (List.forall_mem_cons.1 hr).2).start .wr (alarmBase s.opA) alarmLen .none
      rw [List.append_assoc] at this
      exact ⟨_, _, if_pos hi, by rw [Machine.exec, execSetAlarm, hA, if_pos hi], this⟩
    · have hi' : ¬ alarmIndexOk s.cmdA = true := hi
      rw [if_neg hi', List.append_nil]
      exact ⟨_, _, if_neg hi, by rw [Machine.exec, execSetAlarm, hA, if_neg hi], h.raiseResult .noopBadIdx⟩
  | getAlarm =>
    have hA := hA List.mem_cons_self
    simp only [commandWrites]
    by_cases hi : alarmIndexOk s.opA = true
    · have hi' : alarmIndexOk s.cmdA = true := hi
      rw [if_pos hi']
      exact ⟨_, _, if_pos hi, by rw [Machine.exec, execGetAlarm, hA, if_pos hi],
        h.accept.start .rd (alarmBase s.opA) alarmLen .adec⟩
    · have hi' : ¬ alarmIndexOk s.cmdA = true := hi
      rw [if_neg hi']
      exact ⟨_, _, if_neg hi, by rw [Machine.exec, execGetAlarm, hA, if_neg hi],
        h.clearAlarm.raiseResult .noopBadIdx⟩

/-! ### What is read and written depends on registers read -/

theorem Agree.commandReads (h : Agree w s t) {i : Instr} (hr : ∀ a ∈ commandReads i s, .host a ∈ w) :
    Safety.commandReads i t = Safety.commandReads i s ∧ commandWrites i t = commandWrites i s := by
  cases i with
  | hourEnc =>
    obtain ⟨-, hc⟩ := hourEnc_congr hr h.cmdA h.cmdB h.opC
    exact ⟨by rw [Safety.commandReads, h.mode12, hc]; rfl, rfl⟩
  | tpktEnc | setTime => exact ⟨(h.tpktEnc hr).2, rfl⟩
  | apktEnc => exact ⟨(h.apktEnc hr).2, rfl⟩
  | burstRd | burstWr =>
    have hB := h.cmdB (hr 0x02 (by simp [Safety.commandReads]))
    exact ⟨rfl, by simp only [commandWrites, hB]⟩
  | setAlarm =>
    have hA := h.cmdA (hr 0x01 List.mem_cons_self)
    refine ⟨?_, by simp only [commandWrites, hA]⟩
    simp only [Safety.commandReads, hA] at hr ⊢
    by_cases hi : alarmIndexOk s.cmdA = true
    · rw [if_pos hi] at hr ⊢
      rw [if_pos hi, (h.apktEnc (List.forall_mem_cons.1 hr).2).2]
    · rw [if_neg hi, if_neg hi]
  | getAlarm =>
    have hA := h.cmdA (hr 0x01 List.mem_cons_self)
    exact ⟨rfl, by simp only [commandWrites, hA]⟩
  | bcdEnc | bcdDec | bcd8Enc | bcd8Dec | hourDec | tpktDec | apktDec | getTime => exact ⟨rfl, rfl⟩

theorem Agree.sequencerReads (h : Agree w s t) (hr : sequencerReads s ⊆ w) :
    Safety.sequencerReads t = Safety.sequencerReads s ∧ sequencerWrites t = sequencerWrites s := by
  have reg : ∀ r, r ∈ Safety.sequencerReads s → SameReg s t r := fun _ hm => h.regs _ (hr hm)
  unfold Safety.sequencerReads at reg ⊢
  unfold sequencerWrites
  rw [h.phase]
  cases hp : s.phase with
  | data =>
    simp only [hp] at reg
    have opc : t.opc = s.opc := reg .opc (by cases s.opc <;> simp)
    have k : t.k = s.k := reg .k (by cases s.opc <;> simp)
    rw [opc, k]
    exact ⟨rfl, rfl⟩
  | finish =>
    simp only [hp] at reg
    have post : t.post = s.post := reg .post (by cases s.post <;> simp)
    rw [post]
    exact ⟨rfl, rfl⟩
  | _ => exact ⟨rfl, rfl⟩

theorem Agree.transportReads (h : Agree w s t) (hr : transportReads s ⊆ w) :
    Safety.transportReads t = Safety.transportReads s ∧ transportWrites t = transportWrites s := by
  have reg : ∀ r, r ∈ Safety.transportReads s → SameReg s t r := fun _ hm => h.regs _ (hr hm)
  unfold Safety.transportReads at reg ⊢
  unfold transportWrites
  rw [h.phase]
  cases hp : s.phase with
  | dataWait =>
    simp only [hp] at reg
    have opc : t.opc = s.opc := reg .opc (by simp)
    have k : t.k = s.k := reg .k (by simp)
    rw [opc, k]
    exact ⟨rfl, rfl⟩
  | _ => exact ⟨rfl, rfl⟩

theorem Agree.nextInput (h : Agree w s t) : t.nextInput = s.nextInput := congrArg (·.headD .sequencer) h.inputs

theorem Agree.resetting (h : Agree w s t) : Safety.resetting t = Safety.resetting s := by
  unfold Safety.resetting
  rw [h.nextInput, h.rst]
  cases s.nextInput with
  | rst b => rfl
  | _ => exact congrArg (_ || ·) h.rst

theorem forall_host_of_hostRegs {as : List Nat} (h : hostRegs as ⊆ w) : ∀ a ∈ as, .host a ∈ w :=
  fun _ ha => h (List.mem_map_of_mem ha)

/-- What the issue of a command reads and writes (R92). -/
theorem stepReads_command {v : Byte} {i : Instr} (hn : resetting s = false)
    (hi : s.nextInput = .hostWrite 0x00#8 v) (hb : s.status.busy = false) (hd : decode v = .ok i) :
    stepReads s = hostRegs (commandReads i s) ∧ stepWrites s = commandWrites i s := by
  simp [stepReads, stepWrites, hn, hi, hb, hd]

/-- An opcode of no command reads and writes no register (R231). -/
theorem stepReads_illegal {v : Byte} {e : DecodeError} (hi : s.nextInput = .hostWrite 0x00#8 v)
    (hd : decode v = .error e) : stepReads s = [] ∧ stepWrites s = [] := by
  simp [stepReads, stepWrites, hi, hd]

/-- A host write that is no command reads no register, and what it writes is in its address and value. -/
theorem stepReads_hostWrite {a v : Byte} (hi : s.nextInput = .hostWrite a v)
    (hw : s.status.busy = true ∨ a ≠ 0x00#8) :
    stepReads s = [] ∧ stepWrites s =
      if s.status.busy then [] else if hostWritable a.toNat then [.host a.toNat] else [] := by
  rcases hw with hw | hw <;> simp [stepReads, stepWrites, hi, hw]

/-- A strict step reads the same registers on both sides, and outside reset writes the same. -/
theorem Agree.stepReads (h : Agree w s t) (hn : Safety.resetting s = false) (hr : stepReads s ⊆ w) :
    Safety.stepReads t = Safety.stepReads s ∧ stepWrites t = stepWrites s := by
  have hnt : Safety.resetting t = false := h.resetting.trans hn
  cases hi : s.nextInput with
  | hostWrite a v =>
    have hit := h.nextInput.trans hi
    by_cases hw : s.status.busy = true ∨ a ≠ 0x00#8
    · obtain ⟨reads, writes⟩ := stepReads_hostWrite hi hw
      obtain ⟨reads', writes'⟩ := stepReads_hostWrite hit (h.status ▸ hw)
      exact ⟨reads'.trans reads.symm, by rw [writes, writes', h.status]⟩
    · obtain ⟨hb, rfl⟩ : s.status.busy = false ∧ a = 0x00#8 := by simpa using hw
      cases hd : decode v with
      | error e =>
        obtain ⟨reads, writes⟩ := stepReads_illegal hi hd
        obtain ⟨reads', writes'⟩ := stepReads_illegal hit hd
        exact ⟨reads'.trans reads.symm, writes'.trans writes.symm⟩
      | ok i =>
        obtain ⟨reads, writes⟩ := stepReads_command hn hi hb hd
        obtain ⟨reads', writes'⟩ := stepReads_command hnt hit (by rw [h.status, hb]) hd
        obtain ⟨creads, cwrites⟩ := h.commandReads (forall_host_of_hostRegs (reads ▸ hr))
        exact ⟨by rw [reads, reads', creads], by rw [writes, writes', cwrites]⟩
  | sequencer =>
    simp only [Safety.stepReads, stepWrites, hn, hnt, h.nextInput, hi] at hr ⊢
    exact h.sequencerReads hr
  | transport rx =>
    simp only [Safety.stepReads, stepWrites, hn, hnt, h.nextInput, hi] at hr ⊢
    exact h.transportReads hr
  | hostRead a | busUser c | strap b | rst b => simp [Safety.stepReads, stepWrites, hn, hnt, h.nextInput, hi]

/-! ### The step -/

/-- What a host read shows is agreed on, if the register is not `unspec` in R20 or is written. -/
theorem Agree.hostByte (h : Agree w s t) {a : Byte} (hr : unspecReg a.toNat = true → .host a.toNat ∈ w) :
    t.hostByte a = s.hostByte a := by
  have fixed : ∀ a : Byte, unspecReg a.toNat = false → hostReg a ∈ [.cmdOp, .status, .cfg, .reserved] := by decide
  cases hu : unspecReg a.toNat with
  | true => exact h.host (hr hu) a rfl
  | false =>
    have hx := fixed a hu
    unfold State.hostByte
    simp only [List.mem_cons, List.not_mem_nil, or_false] at hx
    rcases hx with hx | hx | hx | hx <;> rw [hx]
    · rfl
    · exact congrArg Status.byte h.status
    · exact congrArg cfgByte h.mode12
    · rfl

theorem Agree.setRdata (h : Agree w s t) (v : Byte) :
    Agree (w ++ [.hRdata]) { s with hRdata := v } { t with hRdata := v } :=
  { h with regs := forall_mem_concat (fun r hr => by cases r with | hRdata => rfl | _ => exact h.regs _ hr) rfl }

/-- The issue of an opcode: the command decoded, or `ILLEGAL_OP`. -/
theorem Agree.issue (h : Agree w s t) {v : Byte} {s' : State} (hi : s.nextInput = .hostWrite 0x00#8 v)
    (hb : s.status.busy = false) (hn : Safety.resetting s = false) (hr : Safety.stepReads s ⊆ w)
    (hs : issue v (Safety.before s) = .next s') :
    Follows (w ++ stepWrites s) s' (Machine.issue v (Safety.before t)) := by
  unfold Machine.issue at hs ⊢
  cases hd : decode v with
  | ok i =>
    obtain ⟨reads, writes⟩ := stepReads_command hn hi hb hd
    obtain ⟨u, t', hu, ht, h'⟩ := h.before.exec (i := i) (forall_host_of_hostRegs (reads ▸ hr))
    obtain rfl : u = s' := by simpa [hd, hu] using hs
    rw [writes]
    exact ⟨t', ht, h'⟩
  | error e =>
    rw [hd] at hs
    injection hs with hs
    subst hs
    rw [(stepReads_illegal hi hd).2, List.append_nil]
    exact ⟨_, rfl, h.before.raiseResult .illegalOp⟩

/-- A host write to an address the host may write or not. -/
theorem Agree.hostWrite (h : Agree w s t) (v a : Byte) :
    Agree (w ++ if hostWritable a.toNat then [.host a.toNat] else [])
      (s.writeReg v (hostReg a)) (t.writeReg v (hostReg a)) := by
  have ho := readOnly_hostReg a
  cases hw : hostWritable a.toNat <;> rw [hw] at ho
  · rw [writeReg_readOnly _ _ ho, writeReg_readOnly _ _ ho]
    simpa using h
  · have hx : hostReg a ≠ .reserved := fun hx => by simp [hx, readOnly] at ho
    rw [toNat_eq_regAddr a hx]
    exact h.writeReg v ho

/-- A strict step outside reset has its like from the other state. -/
theorem Agree.step (h : Agree w s t) (hn : Safety.resetting s = false) (hr : Safety.stepReads s ⊆ w) {s' : State}
    (hs : step s = .next s') : Follows (w ++ stepWrites s) s' (Machine.step t) := by
  have hb := h.before
  have hrt : t.rst = false := h.rst.trans (rst_of_not_resetting hn)
  cases step_cases hn hs with
  | read a hi ht =>
    subst ht
    simp only [Safety.stepReads, stepWrites, hn, hi] at hr ⊢
    have hread : t.hostByte a = s.hostByte a := h.hostByte fun hu => hr (by simp [hu])
    exact ⟨_, by rw [step_hostRead hrt (h.nextInput.trans hi), hread], hb.setRdata _⟩
  | busyWrite a v hi hbusy ht =>
    subst ht
    refine hb.follows_self ?_ (step_hostWrite_busy hrt (by rw [h.status, hbusy]) (h.nextInput.trans hi))
    rw [(stepReads_hostWrite hi (.inl hbusy)).2, hbusy]
    rfl
  | issue v hi hbusy ht =>
    rw [step_issue ⟨hrt, by rw [h.status, hbusy]⟩ (h.nextInput.trans hi)]
    exact h.issue hi hbusy hn hr ht
  | write a v hi hbusy ha ht =>
    subst ht
    refine ⟨_, step_hostWrite ⟨hrt, by rw [h.status, hbusy]⟩ ha (h.nextInput.trans hi), ?_⟩
    rw [(stepReads_hostWrite hi (.inr ha)).2, hbusy]
    exact hb.hostWrite v a
  | sequencer hi ht =>
    rw [step_sequencer hrt (h.nextInput.trans hi)]
    simp only [Safety.stepReads, stepWrites, hn, hi] at hr ⊢
    exact hb.sequencerStep hr ht
  | transport rx hi ht =>
    rw [step_transport hrt (h.nextInput.trans hi)]
    simp only [Safety.stepReads, stepWrites, hn, hi] at hr ⊢
    exact hb.transportStep hr ht
  | busUser c hi hp ht =>
    subst ht
    refine (hb.setPins (.busUser c)).follows_self ?_
      ((step_busUser hrt (h.nextInput.trans hi)).trans (if_pos (h.phase.trans hp)))
    simp [stepWrites, hi]
  | strap b hi ht =>
    subst ht
    refine (hb.setPins (.strap b)).follows_self ?_ (step_strap hrt (h.nextInput.trans hi))
    simp [stepWrites, hi]
  | rst hi ht =>
    subst ht
    refine hb.follows_self ?_ (step_rst_falls (h.resetting.trans hn) (h.nextInput.trans hi)).1
    simp [stepWrites, hi]

end agreement

/-- A reset step forgets what was written and all that was not a pin (R260). -/
theorem Agree.resetStep {w : List UnspecReg} {s t : State} (h : Agree w s t) :
    Agree [] ((Safety.before s).setPins s.nextInput).applyReset
      ((Safety.before t).setPins t.nextInput).applyReset := by
  rw [h.nextInput]
  exact (h.before.setPins _).applyReset

theorem stepReads_of_resetting {s : State} (hn : resetting s = true) : stepReads s = [] := if_pos hn

theorem writtenAfter_of_resetting {t : Tracked} (hn : resetting t.st = true) : t.writtenAfter = [] := if_pos hn

theorem writtenAfter_of_not_resetting {t : Tracked} (hn : resetting t.st = false) :
    t.writtenAfter = t.written ++ stepWrites t.st := if_neg (Bool.eq_false_iff.1 hn)

/-- Settles O59: a reset step by `Agree.resetStep`, another by `Agree.step`; what it reads and writes is the same
on both sides by `Agree.stepReads`. -/
theorem strictRunsIgnoreUnwrittenRegisters : Obligations.StrictRunsIgnoreUnwrittenRegisters := by
  intro s t s' w w' h hs
  obtain ⟨hr, hs, rfl⟩ := trackedStep_next_iff.1 hs
  cases hn : resetting s with
  | true =>
    have hnt : resetting t = true := h.resetting.trans hn
    have hs := (step_resetting hn).symm.trans hs
    injection hs with hs
    subst hs
    rw [writtenAfter_of_resetting hn]
    exact ⟨_, trackedStep_next_iff.2 ⟨(stepReads_of_resetting hnt).symm ▸ List.nil_subset _, step_resetting hnt,
      (writtenAfter_of_resetting hnt).symm⟩, h.resetStep⟩
  | false =>
    have hnt : resetting t = false := h.resetting.trans hn
    obtain ⟨t', ht, h'⟩ := h.step hn hr hs
    obtain ⟨reads, writes⟩ := h.stepReads hn hr
    rw [writtenAfter_of_not_resetting hn]
    refine ⟨t', trackedStep_next_iff.2 ⟨reads ▸ hr, ht, ?_⟩, h'⟩
    rw [writtenAfter_of_not_resetting hnt, writes]

end Safety
end Sys2Proof
end

section
/-! The opcode map, its decoder and encoder, and the assembler (R93, R96, R98); then what the issue of an opcode
is, by what it decodes to (R90, R94, R231). -/

namespace Sys2Proof
namespace Safety

open Machine

/-! ### Decoder and encoder -/

theorem decode_encode (i : Instr) : decode (encode i) = .ok i := by
  cases i <;> rfl

theorem decode_eq_ok_iff {v : Byte} {i : Instr} : decode v = .ok i ↔ v = encode i :=
  ⟨eq_encode_of_decode, fun h => h ▸ decode_encode i⟩

/-- The opcodes of no command, by range (R94). -/
theorem decode_eq_error {v : Byte} (h : v.toNat = 0x00 ∨ v.toNat = 0x07 ∨ (0x0C ≤ v.toNat ∧ v.toNat ≤ 0x0F) ∨
    (0x12 ≤ v.toNat ∧ v.toNat ≤ 0x17) ∨ 0x1C ≤ v.toNat) : ∃ e, decode v = .error e := by
  cases hd : decode v with
  | error e => exact ⟨e, rfl⟩
  | ok i =>
    rw [eq_encode_of_decode hd] at h
    cases i <;> simp [encode] at h

/-- Settles O2: an opcode that decodes is the command's own, and a command's opcode decodes to it. -/
theorem decodeAndEncodeAgree : Obligations.DecodeAndEncodeAgree := fun _ _ => decode_eq_ok_iff

/-- Settles O1: each row is `decode_eq_ok_iff` at its command. -/
theorem opcodeMapRows : Obligations.OpcodeMapRows := fun _ =>
  ⟨decode_eq_ok_iff, decode_eq_ok_iff, decode_eq_ok_iff, decode_eq_ok_iff, decode_eq_ok_iff, decode_eq_ok_iff,
    decode_eq_ok_iff, decode_eq_ok_iff, decode_eq_ok_iff, decode_eq_ok_iff, decode_eq_ok_iff, decode_eq_ok_iff,
    decode_eq_ok_iff, decode_eq_ok_iff, decode_eq_ok_iff, decode_eq_ok_iff⟩

/-! ### Assembler and reader -/

theorem addr_ne_cmdOp (r : OperandReg) : r.addr ≠ 0x00#8 := by
  cases r <;> decide

/-- A write that is not to `CMD_OP` is held. -/
theorem disassemble_hold {a : Byte} (ha : a ≠ 0x00#8) (v : Byte) (pending rest : List HostWrite) :
    disassemble pending ((a, v) :: rest) = disassemble (pending ++ [(a, v)]) rest := by
  simp [disassemble, ha]

/-- The write to `CMD_OP` closes the command whose operand registers the held writes name in order. -/
theorem disassemble_close {i : Instr} {pending : List HostWrite}
    (h : pending.map Prod.fst = i.operandRegs.map OperandReg.addr) (rest : List HostWrite) :
    disassemble pending ((0x00#8, encode i) :: rest) =
      (disassemble [] rest).map (⟨i, pending.map fun w => .num w.2.toNat⟩ :: ·) := by
  simp [disassemble, decode_encode, h]

/-- Operand writes are held in order until the opcode comes. -/
theorem disassemble_operandWrites (rs : List OperandReg) (xs : List Operand) (pending rest : List HostWrite) :
    disassemble pending (operandWrites rs xs ++ rest) = disassemble (pending ++ operandWrites rs xs) rest := by
  induction rs, xs using operandWrites.induct generalizing pending with
  | case1 r rs x xs ih =>
    simp only [operandWrites, List.cons_append]
    rw [disassemble_hold (addr_ne_cmdOp r), ih, List.append_assoc, List.singleton_append]
  | case2 rs xs h => simp [operandWrites]

/-- Operands that match the registers one for one are written each to its own register. -/
theorem operandWrites_of_operandsWf {rs : List OperandReg} {xs : List Operand} (h : operandsWf rs xs = true) :
    (operandWrites rs xs).map Prod.fst = rs.map OperandReg.addr ∧
      (operandWrites rs xs).map (fun w => Operand.num w.2.toNat) = xs.map Operand.numeric := by
  induction rs, xs using operandsWf.induct with
  | case1 => exact ⟨rfl, rfl⟩
  | case2 r rs x xs ih =>
    simp only [operandsWf, Bool.and_eq_true] at h
    obtain ⟨addrs, values⟩ := ih h.2
    exact ⟨by simp [operandWrites, addrs], by simp [operandWrites, values, Operand.numeric]⟩
  | case3 rs xs => simp [operandsWf] at h

/-- One assembled command, whatever follows it, reads back as it. -/
theorem disassemble_assemble {w : Written} (hw : w.wf = true) (rest : List HostWrite) :
    disassemble [] (assemble w ++ rest) = (disassemble [] rest).map (w.numeric :: ·) := by
  obtain ⟨addrs, values⟩ := operandWrites_of_operandsWf hw
  rw [assemble, List.append_assoc, disassemble_operandWrites, List.nil_append, List.singleton_append,
    disassemble_close addrs, values, Written.numeric]

/-- Settles O3, by induction on the list of commands. -/
theorem assembledCommandsReadBack : Obligations.AssembledCommandsReadBack := by
  intro ws hw
  induction ws with
  | nil => rfl
  | cons w ws ih =>
    obtain ⟨hw, hws⟩ := List.forall_mem_cons.1 hw
    rw [List.flatMap_cons, disassemble_assemble hw, ih hws, Option.map_some, List.map_cons]

/-! ### The issue of an opcode -/

theorem issue_of_decode_ok {v : Byte} {i : Instr} (h : decode v = .ok i) (s : State) : issue v s = exec i s := by
  simp [issue, h]

theorem issue_of_decode_error {v : Byte} {e : DecodeError} (h : decode v = .error e) (s : State) :
    issue v s = .next (s.raiseResult .illegalOp) := by
  simp [issue, h]

/-- `STATUS` after an illegal opcode, as the host reads it (R25, R230). -/
theorem byte_completed_illegalOp : (Status.completed .illegalOp).byte = 0x0A#8 := by decide

/-- The state a move is made in, with the move named (log 1, log 8). -/
theorem before_of_inputs {s : State} {m : Input} {rest : List Input} (h : s.inputs = m :: rest) :
    before s = { s with inputs := rest, cfgWe := false } := by
  simp [before, State.popInput, State.dropStrobe, h]

theorem exec_end {i : Instr} {s t : State} (h : exec i s = .next t) : IssueEnd s t := by
  obtain ⟨u, hu, -, e, -⟩ := exec_spec i s
  rw [h] at hu
  injection hu with hu
  exact hu ▸ e

/-- Settles O5: by `step_issue` the step is the issue of the byte, and the byte decodes to the command. -/
theorem stepRunsTheDecodedCommand : Obligations.StepRunsTheDecodedCommand := fun s v i rest hr hi hd => by
  rw [step_issue hr (nextInput_cons hi), issue_of_decode_ok hd, before_of_inputs hi]

/-- Settles O4: the step is the issue of the byte, no command, so `raiseResult` is all it does. -/
theorem illegalOpcodeCompletesAtOnce : Obligations.IllegalOpcodeCompletesAtOnce := by
  intro s v hr hi hv
  obtain ⟨e, he⟩ := decode_eq_error hv
  have frame := IssueFrame.of_accept_complete (before s) .illegalOp
  obtain ⟨xReq, xTx, sel, cfgOut, -, cfgIn, trace⟩ := frame.bus
  exact ⟨(before s).raiseResult .illegalOp, (step_issue hr hi).trans (issue_of_decode_error he _), ⟨rfl, rfl⟩,
    byte_completed_illegalOp, frame.operands, ⟨rfl, rfl, rfl⟩, ⟨rfl, rfl⟩, fun _ => rfl,
    ⟨rfl, rfl, rfl, rfl, rfl, rfl, rfl⟩, ⟨xReq, xTx, sel, cfgOut, cfgIn, trace⟩, frame.rest⟩

/-- Settles O50: the first part is how an issuing step ends; the ten codec and packet commands end with
`complete .ok` by their definitions. -/
theorem commandCompletesOrStarts : Obligations.CommandCompletesOrStarts := by
  intro i s t h
  refine ⟨?_, fun hRd hWr hSetTime hGetTime hSetAlarm hGetAlarm => ?_⟩
  · cases exec_end h with
    | completed code hc latches => exact .inl ⟨code, hc, latches⟩
    | started op a n post hst len =>
      obtain ⟨-, -, hn, -, status, phase, -⟩ := hst
      exact .inr ⟨status, phase, hn ▸ len⟩
  · cases i with
    | burstRd | burstWr | setTime | getTime | setAlarm | getAlarm => contradiction
    | bcdEnc | bcdDec | bcd8Enc | bcd8Dec | hourEnc | hourDec | tpktEnc | tpktDec | apktEnc | apktDec =>
      injection h with h
      subst h
      exact ⟨rfl, rfl⟩

end Safety
end Sys2Proof
end

section
/-! The BCD codec (R120 to R132): what its four commands write and keep, and the two round trips. The commands
are known by the codec relations of what they leave in `RES0`; the round trips are arithmetic of BCD digits
on naturals. -/

namespace Sys2Proof
namespace Safety

open Machine

/-! ### The commands -/

/-- A command has completed `OK` and changed no register, byte, latch or port but `RES0` and `STATUS` (R126 to R129). -/
def CompletesOnRes0 (s t : State) : Prop :=
  Completed .ok t ∧ t.status.byte = 0x02#8 ∧ t.res1 = s.res1 ∧ t.resM = s.resM ∧
    SameOperands s t ∧ SameRecords s t ∧ SameBuf s t ∧ SameLatches s t ∧ SameBus s t ∧ SameRest s t

theorem completesOnRes0_setRes0 (s : State) (v : Byte) :
    CompletesOnRes0 s ((s.accept.setRes0 v).complete .ok) := by
  obtain ⟨operands, bus, rest, -⟩ := IssueFrame.of_accept_complete s .ok
  exact ⟨⟨rfl, rfl⟩, byte_completed_ok, rfl, rfl, operands, ⟨rfl, rfl⟩, fun _ => rfl,
    ⟨rfl, rfl, rfl, rfl, rfl, rfl, rfl⟩, bus, rest⟩

/-- An encoder's result is the same but for the count of draws, which no register shows (log 5). -/
theorem completesOnRes0_putRes0 (s : State) (o : Option Byte) :
    CompletesOnRes0 s ((s.accept.putRes0 o).complete .ok) :=
  completesOnRes0_setRes0 s (s.accept.resolve 0 o)

section commands

variable {s t : State}

theorem exec_bcdEnc (h : exec .bcdEnc s = .next t) :
    Encodes s.cmdA s.cmdB t.res0 ∧ CompletesOnRes0 s t := by
  injection h with h
  subst h
  exact ⟨enc_encodes s.accept 0 s.cmdA s.cmdB, completesOnRes0_putRes0 s _⟩

theorem exec_bcdDec (h : exec .bcdDec s = .next t) :
    Decodes s.cmdA s.cmdB t.res0 ∧ CompletesOnRes0 s t := by
  injection h with h
  subst h
  exact ⟨dec_decodes s.cmdA s.cmdB, completesOnRes0_setRes0 s _⟩

theorem exec_bcd8Enc (h : exec .bcd8Enc s = .next t) :
    EncodesYear s.cmdA t.res0 ∧ CompletesOnRes0 s t := by
  injection h with h
  subst h
  exact ⟨enc8_encodes s.accept 0 s.cmdA, completesOnRes0_putRes0 s _⟩

theorem exec_bcd8Dec (h : exec .bcd8Dec s = .next t) :
    DecodesYear s.cmdA t.res0 ∧ CompletesOnRes0 s t := by
  injection h with h
  subst h
  exact ⟨dec8_decodes s.cmdA, completesOnRes0_setRes0 s _⟩

end commands

/-- What holds wherever a command answers holds of the state it answers with. -/
theorem exists_exec_next {i : Instr} {s : State} {P : State → Prop} (h : ∀ {t}, exec i s = .next t → P t) :
    ∃ t, exec i s = .next t ∧ P t := by
  obtain ⟨t, ht, -⟩ := exec_spec i s
  exact ⟨t, ht, h ht⟩

/-- Settles O6: `BCD_ENC` always answers, with what `exec_bcdEnc` says. -/
theorem bcdEncStoresMaskedBcd : Obligations.BcdEncStoresMaskedBcd := fun _ => exists_exec_next exec_bcdEnc

/-- Settles O7: `BCD_DEC` always answers, with what `exec_bcdDec` says. -/
theorem bcdDecStoresMaskedValue : Obligations.BcdDecStoresMaskedValue := fun _ => exists_exec_next exec_bcdDec

/-- Settles O8: `BCD8_ENC` always answers, with what `exec_bcd8Enc` says. -/
theorem yearEncStoresBcd : Obligations.YearEncStoresBcd := fun _ => exists_exec_next exec_bcd8Enc

/-- Settles O9: `BCD8_DEC` always answers, with what `exec_bcd8Dec` says. -/
theorem yearDecStoresValue : Obligations.YearDecStoresValue := fun _ => exists_exec_next exec_bcd8Dec

/-! ### The digits -/

theorem ofBcd_bcdOf (n : Nat) : ofBcd (bcdOf n) = n := by
  unfold ofBcd bcdOf
  omega

/-- A mask clears bits of each digit by itself, so it makes neither digit greater. -/
theorem digits_and_le (c m : Nat) : (c &&& m) / 16 ≤ c / 16 ∧ (c &&& m) % 16 ≤ c % 16 := by
  have tens : (c &&& m) / 16 = c / 16 &&& m / 16 := Nat.and_div_two_pow (n := 4)
  have units : (c &&& m) % 16 = c % 16 &&& m % 16 := Nat.and_mod_two_pow (n := 4)
  exact ⟨tens ▸ Nat.and_le_left, units ▸ Nat.and_le_left⟩

/-- Two bytes with the same weighted sum are equal where no digit of the one is above the other's. -/
theorem eq_of_ofBcd_eq {c d : Nat} (tens : d / 16 ≤ c / 16) (units : d % 16 ≤ c % 16)
    (h : ofBcd d = ofBcd c) : d = c := by
  unfold ofBcd at h
  omega

/-- A masked encoding decodes to the value exactly when the mask keeps its digits (R130). -/
theorem ofBcd_and_eq_iff (n m : Nat) : ofBcd (bcdOf n &&& m) = n ↔ bcdOf n &&& m = bcdOf n := by
  constructor
  · intro h
    obtain ⟨tens, units⟩ := digits_and_le (bcdOf n) m
    exact eq_of_ofBcd_eq tens units (h.trans (ofBcd_bcdOf n).symm)
  · intro h
    rw [h, ofBcd_bcdOf]

theorem bcdOf_lt_of_lt_tens {n d : Nat} (h : n < d * 10) : bcdOf n < d * 16 := by
  unfold bcdOf
  omega

theorem bcdOf_eq_of_lt_ten {n : Nat} (h : n < 10) : bcdOf n = n := by
  unfold bcdOf
  omega

/-! ### The round trips -/

/-- The masked codec's round trip in its relations: an encoding under a mask with bit 7 clear is no wildcard. -/
theorem decoded_eq_iff {v m c r : Byte} (hv : v.toNat < 100) (hm : m.toNat < 128)
    (henc : Encodes v m c) (hdec : Decodes c m r) :
    r = v ↔ bcdOf v.toNat &&& m.toNat = bcdOf v.toNat := by
  have hc : c.toNat = bcdOf v.toNat &&& m.toNat := henc.2 hv
  have notWild : c.toNat < 128 := hc ▸ Nat.and_le_right.trans_lt hm
  have hr : r.toNat = ofBcd (bcdOf v.toNat &&& m.toNat) := by
    rw [hdec.2 notWild, hc, Nat.and_assoc, Nat.and_self]
  rw [← BitVec.toNat_inj, hr, ofBcd_and_eq_iff]

/-- Settles O10: by `decoded_eq_iff`; in each of its four ranges the digits fit the mask. -/
theorem maskedBcdRoundTrip : Obligations.MaskedBcdRoundTrip := by
  intro s t u hv hm ht hu
  obtain ⟨henc, -, -, -, -, ⟨-, hB, -⟩, -⟩ := exec_bcdEnc ht
  have hdec : Decodes t.res0 s.cmdB u.res0 := hB ▸ (exec_bcdDec hu).1
  have roundTrip := decoded_eq_iff hv hm henc hdec
  have ofMask : ∀ k, s.cmdB.toNat = 2 ^ k - 1 → bcdOf s.cmdA.toNat < 2 ^ k → u.res0 = s.cmdA := by
    intro k hk hlt
    rw [roundTrip, hk, Nat.and_two_pow_sub_one_of_lt_two_pow hlt]
  refine ⟨roundTrip, fun hB h => ofMask 7 (by simp [hB]) (bcdOf_lt_of_lt_tens (d := 8) h),
    fun hB h => ofMask 6 (by simp [hB]) (bcdOf_lt_of_lt_tens (d := 4) h),
    fun hB h => ofMask 5 (by simp [hB]) (bcdOf_lt_of_lt_tens (d := 2) h),
    fun hB h => ofMask 3 (by simp [hB]) ?_⟩
  rwa [bcdOf_eq_of_lt_ten (by omega)]

/-- Settles O11: with no mask both digits are kept, and `ofBcd_bcdOf` weighs them back. -/
theorem yearRoundTrip : Obligations.YearRoundTrip := by
  intro s t u hv ht hu
  obtain ⟨henc, -⟩ := exec_bcd8Enc ht
  obtain ⟨hdec, -⟩ := exec_bcd8Dec hu
  apply BitVec.eq_of_toNat_eq
  calc u.res0.toNat = ofBcd t.res0.toNat := hdec
    _ = ofBcd (bcdOf s.cmdA.toNat) := by rw [henc hv]
    _ = s.cmdA.toNat := ofBcd_bcdOf _

end Safety
end Sys2Proof
end

section
/-! The hour codec (R139 to R147): what `HOUR_ENC` and `HOUR_DEC` write and keep, the round trips through hour
bytes, and that an encoder reads the authoritative hour field only (R140, D37). The commands are known by the codec
relations of what they leave; the round trips join an encoder's relation to the decoder's. -/

namespace Sys2Proof
namespace Safety

open Machine

/-! ### The commands -/

/-- A command has completed `OK` and changed no register, byte, latch or port but the result registers and
`STATUS` (R145). -/
def CompletesOnResults (s t : State) : Prop :=
  Completed .ok t ∧ t.status.byte = 0x02#8 ∧
    SameOperands s t ∧ SameRecords s t ∧ SameBuf s t ∧ SameLatches s t ∧ SameBus s t ∧ SameRest s t

theorem completesOnResults_setHour (s : State) (a b : Byte) (m : MerCode) :
    CompletesOnResults s ((s.accept.setHour a b m).complete .ok) := by
  obtain ⟨operands, bus, rest, -⟩ := IssueFrame.of_accept_complete s .ok
  exact ⟨⟨rfl, rfl⟩, byte_completed_ok, operands, ⟨rfl, rfl⟩, fun _ => rfl,
    ⟨rfl, rfl, rfl, rfl, rfl, rfl, rfl⟩, bus, rest⟩

theorem exec_hourEnc {s t : State} (h : exec .hourEnc s = .next t) :
    HourEncodes s.mode12 s.cmdA s.cmdB (s.cmdC.extractLsb' 0 2) t.res0 ∧ CompletesOnRes0 s t := by
  injection h with h
  subst h
  exact ⟨hourEnc_encodes s.accept 0 s.mode12 s.cmdA s.cmdB s.opC, completesOnRes0_putRes0 s _⟩

theorem exec_hourDec {s t : State} (h : exec .hourDec s = .next t) :
    HourDecodes s.cmdA t.res0 t.res1 t.resM ∧ CompletesOnResults s t := by
  injection h with h
  subst h
  exact ⟨hourDec_decodes s.cmdA, completesOnResults_setHour s _ _ _⟩

/-- Settles O12: `HOUR_ENC` always answers, with what `exec_hourEnc` says. -/
theorem hourEncStoresHourByte : Obligations.HourEncStoresHourByte := fun _ => exists_exec_next exec_hourEnc

/-- Settles O13: `HOUR_DEC` always answers, with what `exec_hourDec` says. -/
theorem hourDecStoresHourTriple : Obligations.HourDecStoresHourTriple := fun _ => exists_exec_next exec_hourDec

/-! ### The hour bytes -/

/-- The hour of the day a 12-hour clock shows: 12 counts as 0, and the afternoon begins at 12 (R141). -/
def hourOfClock (h : Nat) (mer : MerCode) : Nat := h % 12 + if mer = Mer.pm then 12 else 0

theorem hourOfClock_am (h : Nat) : hourOfClock h Mer.am = h % 12 := rfl

theorem hourOfClock_pm (h : Nat) : hourOfClock h Mer.pm = h % 12 + 12 := rfl

section bytes

variable {hr24 hr12 byte : Byte} {mer mer' : MerCode} {n : Nat}

/-- The mask of the 24-hour shape keeps the digits of an hour below 40 (R139). -/
theorem toNat_of_hourEncodes_24 (henc : HourEncodes false hr24 hr12 mer byte) (h : hr24.toNat < 40) :
    byte.toNat = bcdOf hr24.toNat :=
  ((henc.1 rfl).2 (by omega)).trans
    (Nat.and_two_pow_sub_one_of_lt_two_pow (n := 6) (bcdOf_lt_of_lt_tens (d := 4) h))

/-- The mask of the 12-hour shape keeps the digits of an hour below 20; the mode and meridiem bits stand above
them (R139). -/
theorem toNat_of_hourEncodes_12 (henc : HourEncodes true hr24 hr12 mer byte) (h : hr12.toNat < 20) :
    byte.toNat = bcdOf hr12.toNat + 64 + if mer = Mer.pm then 32 else 0 := by
  have digits : bcdOf hr12.toNat &&& 0x1F = bcdOf hr12.toNat :=
    Nat.and_two_pow_sub_one_of_lt_two_pow (n := 5) (bcdOf_lt_of_lt_tens (d := 2) h)
  have hb := (henc.2 rfl).2 (by omega)
  rwa [digits] at hb

/-- The 24-hour byte of an hour decodes to it and to what a 12-hour clock shows then (R141). -/
theorem hourDecodes_of_bcd (hdec : HourDecodes byte hr24 hr12 mer) (hb : byte.toNat = bcdOf n) (hn : n ≤ 23) :
    hr24.toNat = n ∧ 1 ≤ hr12.toNat ∧ hr12.toNat ≤ 12 ∧ hourOfClock hr12.toNat mer = n := by
  have shape : byte.toNat < 64 := hb ▸ bcdOf_lt_of_lt_tens (d := 4) (by omega)
  obtain ⟨h24, midnight, morning, noon, afternoon⟩ := hdec.2.1 shape
  rw [hb, ofBcd_bcdOf] at h24 midnight morning noon afternoon
  refine ⟨h24, ?_⟩
  rcases (by omega : n = 0 ∨ 1 ≤ n ∧ n ≤ 11 ∨ n = 12 ∨ 13 ≤ n) with h | ⟨h, h'⟩ | h | h
  · obtain ⟨h12, rfl⟩ := midnight h
    rw [hourOfClock_am]
    omega
  · obtain ⟨h12, rfl⟩ := morning h h'
    rw [hourOfClock_am]
    omega
  · obtain ⟨h12, rfl⟩ := noon h
    rw [hourOfClock_pm]
    omega
  · obtain ⟨h12, rfl⟩ := afternoon h hn
    rw [hourOfClock_pm]
    omega

/-- The 12-hour byte of what a clock shows decodes to that, with every code but `PM` read back as `AM`, and to
the hour of the day (R141). -/
theorem hourDecodes_of_clock (hdec : HourDecodes byte hr24 hr12 mer')
    (hb : byte.toNat = bcdOf n + 64 + if mer = Mer.pm then 32 else 0) (hlo : 1 ≤ n) (hhi : n ≤ 12) :
    hr24.toNat = hourOfClock n mer ∧ hr12.toNat = n ∧ mer' = if mer = Mer.pm then Mer.pm else Mer.am := by
  have digits : bcdOf n < 32 := bcdOf_lt_of_lt_tens (d := 2) (by omega)
  have shape : 64 ≤ byte.toNat ∧ byte.toNat < 128 ∧ byte.toNat % 32 = bcdOf n := by
    split at hb <;> omega
  obtain ⟨lo, hi, low⟩ := shape
  obtain ⟨h12, pm, am⟩ := hdec.2.2 lo hi
  rw [low, ofBcd_bcdOf] at h12 pm am
  unfold hourOfClock
  split at hb
  case isTrue hm =>
    obtain ⟨rfl, h24⟩ := pm (by omega)
    rw [if_pos hm, if_pos hm]
    exact ⟨by split at h24 <;> omega, h12, rfl⟩
  case isFalse hm =>
    obtain ⟨rfl, h24⟩ := am (by omega)
    rw [if_neg hm, if_neg hm]
    exact ⟨by split at h24 <;> omega, h12, rfl⟩

end bytes

/-! ### The round trips -/

/-- Settles O14: each clause takes the byte `HOUR_ENC` leaves through `HOUR_DEC`'s relation. -/
theorem hourRoundTrip : Obligations.HourRoundTrip := by
  intro s t u ht hu
  obtain ⟨henc, -⟩ := exec_hourEnc ht
  obtain ⟨hdec, -⟩ : HourDecodes t.res0 u.res0 u.res1 u.resM ∧ _ := exec_hourDec hu
  refine ⟨fun hm h => ?_, fun hm hlo hhi => ?_, fun hm h => ?_, fun hm h => ?_⟩ <;> rw [hm] at henc
  · obtain ⟨h24, -⟩ := hourDecodes_of_bcd hdec (toNat_of_hourEncodes_24 henc (by omega)) h
    exact BitVec.eq_of_toNat_eq h24
  · obtain ⟨-, h12, mer⟩ := hourDecodes_of_clock hdec (toNat_of_hourEncodes_12 henc (by omega)) hlo hhi
    exact ⟨BitVec.eq_of_toNat_eq h12, mer⟩
  · have byte : t.res0 = s.cmdA := (henc.1 rfl).1 h
    exact byte ▸ hdec.1 (byte ▸ h)
  · have byte : t.res0 = s.cmdB := (henc.2 rfl).1 h
    exact byte ▸ hdec.1 (byte ▸ h)

/-- What a meridiem register shows is stored back as its code (R34). -/
theorem extractLsb'_merByte : ∀ m : MerCode, (merByte m).extractLsb' 0 2 = m := by decide

/-- Settles O15: the first decoding leaves what a 12-hour clock shows at the hour, and the second one the hour of
the day of that. -/
theorem hourCrossRoundTrip : Obligations.HourCrossRoundTrip := by
  intro s t u v w hm hA ht hu hv hw
  obtain ⟨henc24, -⟩ := exec_hourEnc ht
  obtain ⟨hdec24, -⟩ : HourDecodes t.res0 u.res0 u.res1 u.resM ∧ _ := exec_hourDec hu
  obtain ⟨henc12, -⟩ := exec_hourEnc hv
  obtain ⟨hdec12, -⟩ : HourDecodes v.res0 w.res0 w.res1 w.resM ∧ _ := exec_hourDec hw
  rw [hm] at henc24
  simp only [extractLsb'_merByte] at henc12
  obtain ⟨-, hlo, hhi, clock⟩ := hourDecodes_of_bcd hdec24 (toNat_of_hourEncodes_24 henc24 (by omega)) hA
  obtain ⟨h24, -⟩ := hourDecodes_of_clock hdec12 (toNat_of_hourEncodes_12 henc12 (by omega)) hlo hhi
  exact BitVec.eq_of_toNat_eq (h24.trans clock)

/-! ### The hour fields that are not read -/

/-- The hour encoder depends on the fields it uses only (R140, D37). -/
theorem hourEnc_eq_of_sameUsedHour {mode12 : Bool} {x y x' y' : Byte} {m m' : MerCode}
    (h : SameUsedHour mode12 x y m x' y' m') : hourEnc mode12 x' y' m' = hourEnc mode12 x y m := by
  have reads24 : 0 ∈ hourReads mode12 (isWild y) 0 1 2 → mode12 = false := by
    cases mode12 <;> simp [hourReads]
  have reads12 : 1 ∈ hourReads mode12 (isWild y) 0 1 2 → mode12 = true := by
    cases mode12 <;> simp [hourReads]
  have readsMer : 2 ∈ hourReads mode12 (isWild y) 0 1 2 → mode12 = true ∧ y.toNat < 128 := by
    cases mode12 <;> simp [hourReads, isWild_false_iff]
  exact (hourEnc_congr (fun _ => id) (fun hx => h.1 (reads24 hx)) (fun hy => (h.2 (reads12 hy)).1)
    fun hm => (h.2 (readsMer hm).1).2 (readsMer hm).2).1

/-- The state with other hour fields in the time record. -/
def withTimeHour (s : State) (x y : Byte) (m : MerCode) : State :=
  { s with time := { s.time with hr24 := x, hr12 := y, mer := m } }

/-- The state with other hour fields in the alarm record. -/
def withAlarmHour (s : State) (x y : Byte) (m : MerCode) : State :=
  { s with alarm := { s.alarm with hr24 := x, hr12 := y, mer := m } }

theorem encTime_withTimeHour {s : State} {x y : Byte} {m : MerCode}
    (h : SameUsedHour s.mode12 s.time.hr24 s.time.hr12 s.time.mer x y m) :
    (withTimeHour s x y m).encTime = withTimeHour s.encTime x y m := by
  have packet : tpktEnc s.mode12 (withTimeHour s x y m).time = tpktEnc s.mode12 s.time := by
    simp only [tpktEnc, withTimeHour, hourEnc_eq_of_sameUsedHour h]
  exact congrArg (withTimeHour s x y m).putPacket packet

theorem encAlarm_withAlarmHour {s : State} {x y : Byte} {m : MerCode}
    (h : SameUsedHour s.mode12 s.alarm.hr24 s.alarm.hr12 s.alarm.mer x y m) :
    (withAlarmHour s x y m).encAlarm = withAlarmHour s.encAlarm x y m := by
  have packet : apktEnc s.mode12 (withAlarmHour s x y m).alarm = apktEnc s.mode12 s.alarm := by
    simp only [apktEnc, withAlarmHour, hourEnc_eq_of_sameUsedHour h]
  exact congrArg (withAlarmHour s x y m).putPacket packet

theorem exec_setAlarm_of_index {s : State} (h : alarmIndexOk s.opA = true) :
    exec .setAlarm s = .next (s.accept.encAlarm.start .wr (alarmBase s.opA) alarmLen .none) := if_pos h

theorem exec_setAlarm_of_not_index {s : State} (h : ¬alarmIndexOk s.opA = true) :
    exec .setAlarm s = .next (s.raiseResult .noopBadIdx) := if_neg h

/-- Settles O22: the hour byte, or the packet, is the same in both runs, and nothing else a command does reads an
hour field. -/
theorem unusedHourFieldsIgnored : Obligations.UnusedHourFieldsIgnored := by
  refine ⟨fun s t a b c hsame ht => ?_, fun i s t x y m hi hsame ht => ?_, fun i s t x y m hi hsame ht => ?_⟩
  · have byte : hourEnc s.mode12 a b (merOfByte c) = hourEnc s.mode12 s.opA s.opB s.opC :=
      hourEnc_eq_of_sameUsedHour hsame
    cases ht
    exact congrArg (fun o => Host.Outcome.next
      (({ s with cmdA := a, cmdB := b, cmdC := c }.accept.putRes0 o).complete .ok)) byte
  · have packet := encTime_withTimeHour (s := s.accept) hsame
    rcases hi with rfl | rfl <;> cases ht
    · exact congrArg (fun u => Host.Outcome.next (u.complete .ok)) packet
    · exact congrArg (fun u => Host.Outcome.next (u.start .wr timeBase timeLen .none)) packet
  · have packet := encAlarm_withAlarmHour (s := s.accept) hsame
    rcases hi with rfl | rfl
    · cases ht
      exact congrArg (fun u => Host.Outcome.next (u.complete .ok)) packet
    · by_cases index : alarmIndexOk s.opA = true
      · cases (exec_setAlarm_of_index index).symm.trans ht
        exact (exec_setAlarm_of_index (s := withAlarmHour s x y m) index).trans
          (congrArg (fun u => Host.Outcome.next (u.start .wr (alarmBase s.opA) alarmLen .none)) packet)
      · cases (exec_setAlarm_of_not_index index).symm.trans ht
        exact exec_setAlarm_of_not_index (s := withAlarmHour s x y m) index

end Safety
end Sys2Proof
end

section
/-! The packet codec (R160 to R172): what its four commands write and keep, and what comes back of a record from
encode then decode. The commands are known by the packet relations of what they leave; the round trips join an
encoder's relation to the decoder's, field by field. -/

namespace Sys2Proof
namespace Safety

open Machine

/-! ### The commands -/

/-- A command has completed `OK` and changed no register, byte, latch or port but `BUF[0..n-1]` and `STATUS`
(R167, R169). -/
def CompletesOnBuf (n : Nat) (s t : State) : Prop :=
  SameBufBut n s t ∧ Completed .ok t ∧ t.status.byte = 0x02#8 ∧
    SameOperands s t ∧ SameResults s t ∧ SameRecords s t ∧ SameLatches s t ∧ SameBus s t ∧ SameRest s t

/-- A command has completed `OK` and changed no register, byte, latch or port but the records and `STATUS`
(R168, R170). -/
def CompletesOnRecords (s t : State) : Prop :=
  Completed .ok t ∧ t.status.byte = 0x02#8 ∧
    SameOperands s t ∧ SameResults s t ∧ SameBuf s t ∧ SameLatches s t ∧ SameBus s t ∧ SameRest s t

theorem completesOnBuf_putPacket (s : State) (os : List (Option Byte)) :
    CompletesOnBuf os.length s ((s.accept.putPacket os).complete .ok) := by
  obtain ⟨operands, bus, rest, -⟩ := IssueFrame.of_accept_complete s .ok
  exact ⟨State.memByte_putPacket s.accept os, ⟨rfl, rfl⟩, byte_completed_ok, operands, ⟨rfl, rfl, rfl⟩,
    ⟨rfl, rfl⟩, ⟨rfl, rfl, rfl, rfl, rfl, rfl, rfl⟩, bus, rest⟩

theorem completesOnRecords_of_records (s : State) (time : TimeRecord) (alarm : AlarmRecord) :
    CompletesOnRecords s (State.complete { s.accept with time := time, alarm := alarm } .ok) := by
  obtain ⟨operands, bus, rest, -⟩ := IssueFrame.of_accept_complete s .ok
  exact ⟨⟨rfl, rfl⟩, byte_completed_ok, operands, ⟨rfl, rfl, rfl⟩, fun _ => rfl,
    ⟨rfl, rfl, rfl, rfl, rfl, rfl, rfl⟩, bus, rest⟩

section commands

variable {s t : State}

theorem exec_tpktEnc (h : exec .tpktEnc s = .next t) :
    TimePacketOf s.mode12 s.time t.buf ∧ CompletesOnBuf 7 s t := by
  injection h with h
  subst h
  exact ⟨s.accept.encTime_packet, completesOnBuf_putPacket s (tpktEnc s.mode12 s.time)⟩

theorem exec_tpktDec (h : exec .tpktDec s = .next t) :
    TimeRecordOf s.buf t.time ∧ t.alarm = s.alarm ∧ CompletesOnRecords s t := by
  injection h with h
  subst h
  exact ⟨tpktDec_record s.buf, rfl, completesOnRecords_of_records s _ s.alarm⟩

theorem exec_apktEnc (h : exec .apktEnc s = .next t) :
    AlarmPacketOf s.mode12 s.alarm t.buf ∧ CompletesOnBuf 4 s t := by
  injection h with h
  subst h
  exact ⟨s.accept.encAlarm_packet, completesOnBuf_putPacket s (apktEnc s.mode12 s.alarm)⟩

theorem exec_apktDec (h : exec .apktDec s = .next t) :
    AlarmRecordOf s.buf t.alarm ∧ t.time = s.time ∧ CompletesOnRecords s t := by
  injection h with h
  subst h
  exact ⟨apktDec_record s.buf, rfl, completesOnRecords_of_records s s.time _⟩

end commands

/-- Settles O16: `TPKT_ENC` always answers, with what `exec_tpktEnc` says. -/
theorem timePacketEncoded : Obligations.TimePacketEncoded := fun _ => exists_exec_next exec_tpktEnc

/-- Settles O17: `TPKT_DEC` always answers, with what `exec_tpktDec` says. -/
theorem timePacketDecoded : Obligations.TimePacketDecoded := fun _ => exists_exec_next exec_tpktDec

/-- Settles O18: `APKT_ENC` always answers, with what `exec_apktEnc` says. -/
theorem alarmPacketEncoded : Obligations.AlarmPacketEncoded := fun _ => exists_exec_next exec_apktEnc

/-- Settles O19: `APKT_DEC` always answers, with what `exec_apktDec` says. -/
theorem alarmPacketDecoded : Obligations.AlarmPacketDecoded := fun _ => exists_exec_next exec_apktDec

/-! ### A field through its encoder and decoder -/

section fields

variable {v m c r hr24 hr12 : Byte} {mer mer' : MerCode} {mode12 : Bool}

/-- A value whose digits fit below a mask of `k` low bits comes back (R130). -/
theorem decoded_eq_of_bcdOf_lt {k : Nat} (henc : Encodes v m c) (hdec : Decodes c m r) (hk : k ≤ 7)
    (hm : m.toNat = 2 ^ k - 1) (h : bcdOf v.toNat < 2 ^ k) : r = v := by
  have bound : 2 ^ k ≤ 2 ^ 7 := Nat.pow_le_pow_right (by decide) hk
  have hv : v.toNat < 100 := by
    unfold bcdOf at h
    omega
  rw [decoded_eq_iff hv (by omega) henc hdec, hm, Nat.and_two_pow_sub_one_of_lt_two_pow h]

/-- The year codec gives a year of its range back (R132). -/
theorem decodedYear_eq (henc : EncodesYear v c) (hdec : DecodesYear c r) (hv : v.toNat < 100) : r = v := by
  apply BitVec.eq_of_toNat_eq
  calc r.toNat = ofBcd c.toNat := hdec
    _ = ofBcd (bcdOf v.toNat) := by rw [henc hv]
    _ = v.toNat := ofBcd_bcdOf _

/-- A wildcard goes through the masked codec as it is (R131). -/
theorem decoded_eq_of_wild (henc : Encodes v m c) (hdec : Decodes c m r) (hv : 128 ≤ v.toNat) : r = v := by
  obtain rfl : c = v := henc.1 hv
  exact hdec.1 hv

/-- A wildcard in the authoritative hour field goes through the hour codec as it is (R146). -/
theorem decodedHour_eq_of_wild {x y : Byte} (henc : HourEncodes mode12 hr24 hr12 mer c)
    (hdec : HourDecodes c x y mer') :
    (mode12 = false → 128 ≤ hr24.toNat → x = hr24) ∧ (mode12 = true → 128 ≤ hr12.toNat → y = hr12) := by
  refine ⟨fun hm hv => ?_, fun hm hv => ?_⟩
  · obtain rfl : c = hr24 := (henc.1 hm).1 hv
    exact (hdec.1 hv).1
  · obtain rfl : c = hr12 := (henc.2 hm).1 hv
    exact (hdec.1 hv).2.1

end fields

/-! ### The round trips -/

/-- Settles O20: the digits of every field's source range fit its mask, and the hour byte of the authoritative
field decodes to it. -/
theorem timeRecordRoundTrip : Obligations.TimeRecordRoundTrip := by
  intro s t u hsec hmin _ hdow _ hdom _ hmon hyr h24 h12 ht hu
  obtain ⟨⟨encSec, encMin, encHour, encDow, encDom, encMon, encYr⟩, -⟩ := exec_tpktEnc ht
  obtain ⟨⟨decSec, decMin, decHour, decDow, decDom, decMon, decYr⟩, -⟩ := exec_tpktDec hu
  refine ⟨decoded_eq_of_bcdOf_lt (k := 7) encSec decSec (by decide) rfl (bcdOf_lt_of_lt_tens (d := 8) (by omega)),
    decoded_eq_of_bcdOf_lt (k := 7) encMin decMin (by decide) rfl (bcdOf_lt_of_lt_tens (d := 8) (by omega)),
    decoded_eq_of_bcdOf_lt (k := 3) encDow decDow (by decide) rfl ?_,
    decoded_eq_of_bcdOf_lt (k := 6) encDom decDom (by decide) rfl (bcdOf_lt_of_lt_tens (d := 4) (by omega)),
    decoded_eq_of_bcdOf_lt (k := 6) encMon decMon (by decide) rfl (bcdOf_lt_of_lt_tens (d := 4) (by omega)),
    decodedYear_eq encYr decYr (by omega), fun hm => ?_, fun hm => ?_⟩
  · rw [bcdOf_eq_of_lt_ten (by omega)]
    omega
  · rw [hm] at encHour
    have hour := h24 hm
    obtain ⟨hr24, -⟩ := hourDecodes_of_bcd decHour (toNat_of_hourEncodes_24 encHour (by omega)) hour
    exact BitVec.eq_of_toNat_eq hr24
  · rw [hm] at encHour
    obtain ⟨lo, hi, code⟩ := h12 hm
    obtain ⟨-, hr12, mer⟩ := hourDecodes_of_clock decHour (toNat_of_hourEncodes_12 encHour (by omega)) lo hi
    refine ⟨BitVec.eq_of_toNat_eq hr12, mer.trans ?_⟩
    rcases code with code | code <;> rw [code] <;> rfl

/-- Settles O21: in either packet a wildcard stands as it is in its field's byte, which decodes to itself. -/
theorem wildcardFieldsSurvive : Obligations.WildcardFieldsSurvive := by
  refine ⟨fun s t u ht hu => ?_, fun s t u ht hu => ?_⟩
  · obtain ⟨⟨encSec, encMin, encHour, encDow, encDom, encMon, -⟩, -⟩ := exec_tpktEnc ht
    obtain ⟨⟨decSec, decMin, decHour, decDow, decDom, decMon, -⟩, -⟩ := exec_tpktDec hu
    obtain ⟨wild24, wild12⟩ := decodedHour_eq_of_wild encHour decHour
    exact ⟨decoded_eq_of_wild encSec decSec, decoded_eq_of_wild encMin decMin, wild24, wild12,
      decoded_eq_of_wild encDow decDow, decoded_eq_of_wild encDom decDom, decoded_eq_of_wild encMon decMon⟩
  · obtain ⟨⟨encSec, encMin, encHour, encDow⟩, -⟩ := exec_apktEnc ht
    obtain ⟨⟨decSec, decMin, decHour, decDow⟩, -⟩ := exec_apktDec hu
    obtain ⟨wild24, wild12⟩ := decodedHour_eq_of_wild encHour decHour
    exact ⟨decoded_eq_of_wild encSec decSec, decoded_eq_of_wild encMin decMin, wild24, wild12,
      decoded_eq_of_wild encDow decDow⟩

end Safety
end Sys2Proof
end

section
/-! The transaction engine, step by step (R180 to R193, R196, R197): what a step outside reset does to the select
line, to the bus configuration and to the history; then what each phase sends and stores; then the hold of an
unanswered transfer. -/

namespace Sys2Proof
namespace Safety

open Machine

/-! ### The frame of a transaction -/

section frame

variable {s t : State}

/-- The select line, the sampled configuration and the output of the configuration are as before, and the strobe
has fallen (R36, R181, R182). -/
structure FrameKept (s t : State) : Prop where
  sel : t.sel = s.sel
  savedCfg : t.savedCfg = s.savedCfg
  cfgOut : t.cfgOut = s.cfgOut
  cfgWe : t.cfgWe = false

theorem FrameKept.refl_before (s : State) : FrameKept s (before s) := ⟨rfl, rfl, rfl, rfl⟩

/-- The phases whose lines touch the frame (R186, R187, R191, R192). -/
def framing : List Phase := [.save, .assert, .release, .restore]

/-- A step outside reset by what it does to the frame: one of the four framing lines of R184, the completion of a
transfer, or a step that emits no event. -/
inductive FrameCase (s t : State) : Prop
  | save (hi : s.nextInput = .sequencer) (hp : s.phase = .save) (ht : t = (before s).stepSave)
  | assert (hi : s.nextInput = .sequencer) (hp : s.phase = .assert) (ht : t = (before s).stepAssert)
  | release (hi : s.nextInput = .sequencer) (hp : s.phase = .release) (ht : t = (before s).stepRelease)
  | restore (hi : s.nextInput = .sequencer) (hp : s.phase = .restore) (ht : t = (before s).stepRestore)
  | xfer (rx : Byte) (hi : s.nextInput = .transport rx) (hp : s.phase = .addrWait ∨ s.phase = .dataWait)
      (kept : FrameKept s t) (trace : t.trace = s.trace ++ [.xfer s.txb rx])
  | quiet (hl : s.nextInput = .sequencer → s.phase ∉ framing)
      (hx : ∀ rx, s.nextInput = .transport rx → waiting s.phase = false)
      (kept : FrameKept s t) (trace : t.trace = s.trace)

/-- A move of another agent than the sequencer and the transport is no line of R184. -/
theorem FrameCase.of_agent (hl : s.nextInput ≠ .sequencer) (hx : ∀ rx, s.nextInput ≠ .transport rx)
    (kept : FrameKept s t) (trace : t.trace = s.trace) : FrameCase s t :=
  .quiet (fun hi => absurd hi hl) (fun rx hi => absurd hi (hx rx)) kept trace

/-- FINISH touches the records, `STATUS` and `PHASE` only (R193). -/
theorem stepFinish_eq (s : State) : s.stepFinish =
    { s with time := s.runPost.time, alarm := s.runPost.alarm, status := .completed .ok, phase := .idle } := by
  unfold State.stepFinish
  rw [runPost_eq]
  rfl

theorem not_framing_of_waiting {p : Phase} (hw : waiting p = true) : p ∉ framing := by
  revert hw
  cases p <;> decide

theorem frameCase_sequencer (hi : s.nextInput = .sequencer) (ht : (before s).sequencerStep = .next t) :
    FrameCase s t := by
  have quiet (hl : (before s).phase ∉ framing) (kept : FrameKept s t) (trace : t.trace = s.trace) :
      FrameCase s t := .quiet (fun _ => hl) (by simp [hi]) kept trace
  rcases sequencerStep_cases ht with ⟨hp, rfl⟩ | ⟨hp, ht⟩ | ⟨hp, ht⟩ | ⟨hp, rfl⟩ | ⟨hp, rfl⟩ | ⟨hp, -, rfl⟩ |
    ⟨hp, ht⟩ | ⟨hp, ht⟩ | ⟨hp, rfl⟩
  · exact quiet (by simp [hp, framing]) (.refl_before s) rfl
  · exact .save hi hp ht
  · exact .assert hi hp ht
  · exact quiet (by simp [hp, framing]) (by constructor <;> simp [State.stepAddr, before])
      (by simp [State.stepAddr, before])
  · exact quiet (not_framing_of_waiting hp) (.refl_before s) rfl
  · exact quiet (by simp [hp, framing]) (by constructor <;> simp [State.stepData, before])
      (by simp [State.stepData, before])
  · exact .release hi hp ht
  · exact .restore hi hp ht
  · refine quiet (by simp [hp, framing]) ?_ ?_ <;> rw [stepFinish_eq]
    · exact ⟨rfl, rfl, rfl, rfl⟩
    · rfl

theorem frameCase_transport {rx : Byte} (hi : s.nextInput = .transport rx)
    (ht : (before s).transportStep rx = .next t) : FrameCase s t := by
  rcases transportStep_cases ht with ⟨hp, rfl⟩ | ⟨hp, -, rfl⟩ | ⟨hp, rfl⟩
  · exact .xfer rx hi (.inl hp) (by constructor <;> simp [State.doneAddr, before]) (by simp [State.doneAddr, before])
  · unfold State.doneData
    rw [storeAnswer_eq]
    exact .xfer rx hi (.inr hp) (by constructor <;> simp [before]) (by simp [before])
  · exact .quiet (by simp [hi]) (fun _ _ => hp) (.refl_before s) rfl

/-- Inversion of a step outside reset by what it does to the frame. -/
theorem step_frameCase (hn : resetting s = false) (hs : step s = .next t) : FrameCase s t := by
  cases step_cases hn hs with
  | read _ hi ht | busyWrite _ _ hi _ ht | busUser _ hi _ ht | strap _ hi ht | rst hi ht =>
    subst ht
    exact .of_agent (by simp [hi]) (by simp [hi]) ⟨rfl, rfl, rfl, rfl⟩ rfl
  | issue v hi _ ht =>
    obtain ⟨t', ht', frame, -⟩ := issue_spec v (before s)
    obtain rfl : t' = t := by simpa [ht'] using ht
    obtain ⟨-, -, sel, cfgOut, cfgWe, -, trace⟩ := frame.bus
    exact .of_agent (by simp [hi]) (by simp [hi]) ⟨sel, frame.savedCfg, cfgOut, cfgWe⟩ trace
  | write a v hi _ _ ht =>
    subst ht
    have frame := writeReg_frame (before s) v (hostReg a)
    obtain ⟨-, -, sel, cfgOut, cfgWe, -, trace⟩ := frame.bus
    obtain ⟨-, -, -, -, -, savedCfg, -⟩ := frame.latches
    exact .of_agent (by simp [hi]) (by simp [hi]) ⟨sel, savedCfg, cfgOut, cfgWe⟩ trace
  | sequencer hi ht => exact frameCase_sequencer hi ht
  | transport rx hi ht => exact frameCase_transport hi ht

end frame

/-- Settles O30: each framing line does what its definition says, and no other case touches the frame. -/
theorem frameSaveAssertReleaseRestore : Obligations.FrameSaveAssertReleaseRestore := by
  intro s t hn hs
  cases step_frameCase hn hs with
  | save hi hp ht => subst ht; simp [hi, hp, before, State.stepSave]
  | assert hi hp ht => subst ht; simp [hi, hp, before, State.stepAssert, State.selLevel]
  | release hi hp ht => subst ht; simp [hi, hp, before, State.stepRelease, State.selLevel]
  | restore hi hp ht => subst ht; simp [hi, hp, before, State.stepRestore]
  | xfer rx hi _ kept _ => simp [hi, kept.savedCfg, kept.cfgWe, kept.cfgOut]
  | quiet hl _ kept _ =>
    exact ⟨fun hi hp => absurd (by simp [hp, framing]) (hl hi), fun hi hp => absurd (by simp [hp, framing]) (hl hi),
      fun hi hp => absurd (by simp [hp, framing]) (hl hi), fun hi hp => absurd (by simp [hp, framing]) (hl hi),
      fun _ => kept.savedCfg, fun _ => ⟨kept.cfgWe, kept.cfgOut⟩⟩

/-- Settles O55: of the cases of a step only ASSERT and RELEASE drive `sel`. -/
theorem selectLineChangesOnlyInAssertAndRelease : Obligations.SelectLineChangesOnlyInAssertAndRelease := by
  intro s t hn hs
  cases step_frameCase hn hs with
  | save hi hp ht => subst ht; simp [hi, hp, before, State.stepSave]
  | assert hi hp ht => subst ht; simp [hi, hp, State.stepAssert, State.selLevel]
  | release hi hp ht => subst ht; simp [hi, hp, State.stepRelease, State.selLevel]
  | restore hi hp ht => subst ht; simp [hi, hp, before, State.stepRestore]
  | xfer rx hi _ kept _ => simp [hi, kept.sel]
  | quiet hl _ kept _ =>
    rw [if_neg fun h => hl h.1 (by simp [h.2, framing]), if_neg fun h => hl h.1 (by simp [h.2, framing]), kept.sel]

/-- Settles O56: each line of the history's table is a case of a step, and a quiet step is no line of it. -/
theorem eventsOnlyFromTheLinesOfATransaction : Obligations.EventsOnlyFromTheLinesOfATransaction := by
  intro s t hn hs
  cases step_frameCase hn hs with
  | save hi hp ht => subst ht; simp [hi, hp, before, State.stepSave]
  | assert hi hp ht => subst ht; simp [hi, hp, before, State.stepAssert]
  | release hi hp ht => subst ht; simp [hi, hp, before, State.stepRelease]
  | restore hi hp ht => subst ht; simp [hi, hp, before, State.stepRestore]
  | xfer rx hi hp _ trace => rcases hp with hp | hp <;> simp [hi, hp, trace]
  | quiet hl hx _ trace =>
    rw [trace]
    split
    case h_1 hi hp | h_2 hi hp | h_5 hi hp | h_6 hi hp => exact absurd (by simp [hp, framing]) (hl hi)
    case h_3 hi hp | h_4 hi hp => simpa [hp, waiting] using hx _ hi
    case h_7 => exact (List.append_nil _).symm

/-! ### What each phase sends and stores -/

section phases

variable {s t : State}

/-- The transport's next move stands on the list, since a turn of the sequencer is all an empty list gives. -/
theorem inputs_of_transport {rx : Byte} (hi : s.nextInput = .transport rx) :
    s.inputs = .transport rx :: s.inputs.tail := by
  unfold State.nextInput at hi
  cases h : s.inputs with
  | nil => simp [h] at hi
  | cons m ms => simpa [h] using hi

theorem step_stepAddr (hr : s.rst = false) (hi : s.nextInput = .sequencer) (hp : s.phase = .addr) :
    step s = .next (before s).stepAddr := by
  rw [step_sequencer hr hi, State.sequencerStep, show (before s).phase = .addr from hp]

theorem step_stepFinish (hr : s.rst = false) (hi : s.nextInput = .sequencer) (hp : s.phase = .finish) :
    step s = .next (before s).stepFinish := by
  rw [step_sequencer hr hi, State.sequencerStep, show (before s).phase = .finish from hp]

/-- A data phase requests the transfer of its byte, in either direction (R189, R190). -/
theorem step_data_sends (hr : s.rst = false) (hk : s.k.toNat < 128) (hi : s.nextInput = .sequencer)
    (hp : s.phase = .data) :
    ∃ t, step s = .next t ∧ t.xTx = s.dataByte ∧ t.txb = s.dataByte ∧ t.xReq = true ∧ t.phase = .dataWait ∧
      t.k = s.k ∧ SameBuf s t := by
  refine ⟨(before s).stepData, ?_, rfl, rfl, rfl, rfl, rfl, fun _ => rfl⟩
  rw [step_sequencer hr hi, State.sequencerStep, show (before s).phase = .data from hp]
  exact withBufIndex_of_lt hk _

/-- A data phase's transfer completes, in either direction: what becomes of the answer is `storeAnswer`. -/
theorem step_data_stores {rx : Byte} (hr : s.rst = false) (hk : s.k.toNat < 128)
    (hi : s.nextInput = .transport rx) (hp : s.phase = .dataWait) :
    ∃ t, step s = .next t ∧ SameBuf (s.storeAnswer rx) t ∧ t.xReq = false ∧
      t.trace = s.trace ++ [.xfer s.txb rx] ∧ t.k.toNat = s.k.toNat + 1 ∧
      t.phase = (if s.k.toNat + 1 = s.len.toNat then .release else .data) := by
  obtain ⟨t, ht, frame, mem, -, phase, k, xReq, -, -, -, trace⟩ := step_dataWait hr hp hk (inputs_of_transport hi)
  have resets : t.resets = (s.storeAnswer rx).resets := by rw [storeAnswer_eq, frame.resets]
  exact ⟨t, ht, State.memByte_of_mem_eq mem resets, xReq, trace, k, phase⟩

end phases

/-- Settles O31: the two steps are `stepAddr` and, for the completion, `step_addrWait`. -/
theorem addressPhaseSendsAddressByte : Obligations.AddressPhaseSendsAddressByte := by
  intro s t hn hs
  have hr := rst_of_not_resetting hn
  refine ⟨fun hi hp => ?_, fun rx hi hp => ?_⟩
  · obtain rfl : (before s).stepAddr = t := by simpa [step_stepAddr hr hi hp] using hs
    refine ⟨?_, rfl, rfl, rfl⟩
    change s.abyte = _
    unfold State.abyte
    cases s.opc <;> rfl
  · obtain ⟨u, hu, frame, mem, -, phase, k, xReq, -, -, -, trace⟩ := step_addrWait hr hp (inputs_of_transport hi)
    obtain rfl : u = t := by simpa [hu] using hs
    exact ⟨xReq, k, trace, State.memByte_of_mem_eq mem frame.resets, frame.records, frame.results, phase⟩

/-- Settles O32: in a read the byte sent is the filler, and `storeAnswer` is the store to `BUF[K]`. -/
theorem readDataPhaseStoresAnswer : Obligations.ReadDataPhaseStoresAnswer := by
  intro s hn ho hk hl
  have hr := rst_of_not_resetting hn
  refine ⟨fun hi hp => ?_, fun rx hi hp => ?_⟩
  · have filler : s.dataByte = Config.fillByte := by simp [State.dataByte, ho]
    exact filler ▸ step_data_sends hr (by omega) hi hp
  · obtain ⟨t, ht, stored, rest⟩ := step_data_stores hr (by omega) hi hp
    have buf (a : Nat) : t.memByte a = if a = bufAddr s.k.toNat then rx else s.memByte a := by
      rw [stored a, State.storeAnswer, ho, State.memByte_setBuf]
    exact ⟨t, ht, (buf _).trans (if_pos rfl), fun a ha => (buf a).trans (if_neg ha), rest⟩

/-- Settles O33: in a write the byte sent is `BUF[K]`, and `storeAnswer` stores nothing. -/
theorem writeDataPhaseSendsBuffer : Obligations.WriteDataPhaseSendsBuffer := by
  intro s hn ho hk hl
  have hr := rst_of_not_resetting hn
  refine ⟨fun hi hp => ?_, fun rx hi hp => ?_⟩
  · have byte : s.dataByte = s.buf s.k.toNat := by simp [State.dataByte, ho]
    exact byte ▸ step_data_sends hr (by omega) hi hp
  · have discarded : s.storeAnswer rx = s := by simp [State.storeAnswer, ho]
    have stores := step_data_stores hr (by omega) hi hp
    rwa [discarded] at stores

/-- Settles O34: FINISH touches the records only beside `STATUS` and `PHASE`, and `POST` says which. -/
theorem finishDoesPostAndCompletes : Obligations.FinishDoesPostAndCompletes := by
  intro s hn hi hp
  refine ⟨_, step_stepFinish (rst_of_not_resetting hn) hi hp, ?_⟩
  rw [stepFinish_eq]
  refine ⟨⟨rfl, rfl⟩, fun _ => rfl, ⟨rfl, rfl, rfl⟩, ⟨rfl, rfl, rfl⟩, ⟨rfl, rfl, rfl, rfl, rfl, rfl, rfl⟩,
    ⟨rfl, rfl, rfl, rfl, rfl, rfl⟩, fun hpost => ?_, fun hpost => ?_, fun hpost => ?_⟩ <;>
    simp only [State.runPost, show (before s).post = _ from hpost]
  · exact ⟨rfl, rfl⟩
  · exact ⟨tpktDec_record s.buf, rfl⟩
  · exact ⟨apktDec_record s.buf, rfl⟩

/-! ### The hold of an unanswered transfer (R196) -/

/-- The sequencer's own turn in a wait phase. -/
theorem sequencerStep_of_waiting {s : State} (hw : waiting s.phase = true) : s.sequencerStep = .next s := by
  unfold State.sequencerStep
  cases hp : s.phase with
  | addrWait | dataWait => rfl
  | _ => simp [hp, waiting] at hw

/-- A block held in a wait phase: besides the list of moves, only the strobe, the read port and the strap's pin can
differ. -/
def held (s : State) (rest : List Input) (we : Bool) (rd : Byte) (strap : Bool) : State :=
  { s with inputs := rest, cfgWe := we, hRdata := rd, strap := strap }

/-- A move that completes no transfer and does not touch `rst` or the bus configuration holds the block. -/
theorem step_held {s : State} {m : Input} {ms : List Input} (hr : s.rst = false) (hw : waiting s.phase = true)
    (hb : s.status.busy = true) (hi : s.inputs = m :: ms) (transport : ∀ rx, m ≠ .transport rx)
    (rst : ∀ b, m ≠ .rst b) (busUser : ∀ c, m ≠ .busUser c) :
    ∃ rd strap, step s = .next (held s ms false rd strap) := by
  have hm := nextInput_cons hi
  have hbefore : before s = held s ms false s.hRdata s.strap := before_of_inputs hi
  have unmoved (hs : step s = .next (before s)) : ∃ rd strap, step s = .next (held s ms false rd strap) :=
    ⟨_, _, hbefore ▸ hs⟩
  cases m with
  | hostWrite a v => exact unmoved (step_hostWrite_busy hr hb hm)
  | hostRead a => exact ⟨s.hostByte a, s.strap, (step_hostRead hr hm).trans (by rw [hbefore]; rfl)⟩
  | sequencer => exact unmoved ((step_sequencer hr hm).trans (sequencerStep_of_waiting hw))
  | strap b => exact ⟨s.hRdata, b, (step_strap hr hm).trans (by rw [hbefore]; rfl)⟩
  | transport rx => exact absurd rfl (transport rx)
  | rst b => exact absurd rfl (rst b)
  | busUser c => exact absurd rfl (busUser c)

/-- The hold, by induction on the moves. -/
theorem run_held {ms rest : List Input} : ∀ {s : State}, s.rst = false → waiting s.phase = true →
    s.status.busy = true → s.inputs = ms ++ rest → (∀ m ∈ ms, ∀ rx, m ≠ .transport rx) →
    (∀ m ∈ ms, ∀ b, m ≠ .rst b) → (∀ m ∈ ms, ∀ c, m ≠ .busUser c) →
    ∃ we rd strap, core.run ms.length s = .next (held s rest we rd strap) := by
  induction ms with
  | nil =>
    intro s _ _ _ hi _ _ _
    exact ⟨s.cfgWe, s.hRdata, s.strap, by rw [← List.nil_append rest, ← hi]; rfl⟩
  | cons m ms ih =>
    intro s hr hw hb hi transport rst busUser
    rw [List.forall_mem_cons] at transport rst busUser
    obtain ⟨rd, strap, hs⟩ := step_held hr hw hb hi transport.1 rst.1 busUser.1
    obtain ⟨we', rd', strap', ht⟩ := ih (s := held s (ms ++ rest) false rd strap) hr hw hb rfl transport.2 rst.2
      busUser.2
    exact ⟨we', rd', strap', (run_next _ hs).trans ht⟩

/-- In a wait phase the select line is asserted, the engine's configuration installed and a transfer requested. -/
theorem Inv.lines_of_waiting {s : State} (h : Inv s) (hw : waiting s.phase = true) :
    s.status = ⟨true, false, .ok⟩ ∧ s.sel = Config.selActive ∧ s.xReq = true ∧ s.cfgIn = Config.engineCfg := by
  have phases : s.phase ≠ .idle ∧ selAsserted s.phase = true ∧ inFrame s.phase = true := by
    cases hp : s.phase <;> simp_all [waiting, selAsserted, inFrame]
  obtain ⟨hp, sel, frame⟩ := phases
  obtain ⟨done, result⟩ := h.running hp
  have busy : s.status.busy = true := by simp [h.busy_iff, hp]
  refine ⟨?_, ?_, h.req_iff.trans hw, h.cfg_held frame⟩
  · rw [← busy, ← done, ← result]
  · rw [h.sel_level, sel]
    rfl

/-- Settles O57: `run_held` keeps the block, whose lines the invariant gives. -/
theorem unansweredTransferHangs : Obligations.UnansweredTransferHangs := by
  intro s ms rest h hr hw hi transport rst busUser
  obtain ⟨status, sel, xReq, cfgIn⟩ := h.lines_of_waiting hw
  obtain ⟨we, rd, strap, ht⟩ := run_held hr hw (by rw [status]) hi transport rst busUser
  refine ⟨_, ht, rfl, ?_, sel, xReq, rfl, rfl, ⟨rfl, rfl, rfl, rfl, rfl, rfl, rfl⟩, ⟨rfl, rfl, rfl⟩,
    ⟨rfl, rfl, rfl⟩, ⟨rfl, rfl⟩, fun _ => rfl, cfgIn, rfl⟩
  change s.status.byte = 0x01#8
  rw [status, byte_running]

end Safety
end Sys2Proof
end

section
/-! The bursts (R184, R185, R194, R195, R197): how one is started, and its transaction from the issue to FINISH. -/

namespace Sys2Proof
namespace Safety

open Machine

/-- A burst is started: the operands are latched, and nothing else changes but `STATUS` and `PHASE` (R185). -/
def BurstStarted (op : Dir) (s t : State) : Prop :=
  Started op s.cmdA s.cmdB .none s t ∧ t.status.byte = 0x01#8 ∧
    SameOperands s t ∧ SameResults s t ∧ SameRecords s t ∧ SameBuf s t ∧ SameBus s t ∧ SameRest s t

theorem burstStarted_issueBurst {s : State} (hl : s.cmdB.toNat ≤ 128) (op : Dir) :
    BurstStarted op s (s.issueBurst op) := by
  have legal : s.issueBurst op = s.accept.start op s.cmdA s.cmdB .none := if_neg (Nat.not_lt.2 hl)
  rw [legal]
  exact ⟨started_of_start s s.accept op _ _ _ rfl rfl rfl rfl, byte_running, ⟨rfl, rfl, rfl⟩, ⟨rfl, rfl, rfl⟩,
    ⟨rfl, rfl⟩, fun _ => rfl, ⟨rfl, rfl, rfl, rfl, rfl, rfl, rfl⟩, ⟨rfl, rfl, rfl, rfl, rfl, rfl⟩⟩

/-- Settles O23: both bursts are `issueBurst`. -/
theorem burstOfLegalLengthStarts : Obligations.BurstOfLegalLengthStarts := fun s hl =>
  ⟨⟨s.issueBurst .rd, rfl, burstStarted_issueBurst hl .rd⟩, ⟨s.issueBurst .wr, rfl, burstStarted_issueBurst hl .wr⟩⟩

/-- The step that issues a command, by the state the command answers. -/
theorem step_of_exec {s v : State} {i : Instr} {ms : List Input} (h : Ready s)
    (hi : s.inputs = .hostWrite 0x00#8 (encode i) :: ms) (hv : exec i (before s) = .next v) : step s = .next v :=
  (step_issue h (nextInput_cons hi)).trans ((issue_of_decode_ok (decode_encode i) _).trans hv)

/-- What FINISH leaves of a transaction that was started in `v`, issued in `s`, whatever its `POST` is. -/
theorem afterTransaction_stepFinish {s v u : State} {rest : List Input} (operands : SameOperands (before s) v)
    (results : SameResults (before s) v) (bus : SameBus (before s) v) (same : SameRest (before s) v)
    (fin : AtFinish v u rest) : AfterTransaction s (before u).stepFinish rest := by
  obtain ⟨a, b, c⟩ := operands
  obtain ⟨res0, res1, resM⟩ := results
  obtain ⟨-, -, -, -, -, cfgIn, -⟩ := bus
  obtain ⟨mode12, hRdata, strap, rst, -, resets⟩ := same
  obtain ⟨frame, inputs, xReq, cfgIn', sel⟩ := fin
  obtain ⟨a', b', c'⟩ := frame.operands
  obtain ⟨res0', res1', resM'⟩ := frame.results
  rw [stepFinish_eq]
  exact ⟨⟨rfl, rfl⟩, sel, xReq, cfgIn'.trans cfgIn, before_inputs inputs, ⟨a'.trans a, b'.trans b, c'.trans c⟩,
    ⟨res0'.trans res0, res1'.trans res1, resM'.trans resM⟩, frame.mode12.trans mode12, frame.hRdata.trans hRdata,
    frame.strap.trans strap, frame.rst.trans rst, frame.resets.trans resets⟩

/-- A burst has no `POST`: beside the end of every transaction, FINISH keeps the records, the history and `BUF`. -/
theorem burst_finished {s v u : State} {op : Dir} {rest : List Input} (h : BurstStarted op (before s) v)
    (fin : AtFinish v u rest) :
    AfterTransaction s (before u).stepFinish rest ∧ SameRecords s (before u).stepFinish ∧
      (before u).stepFinish.trace = u.trace ∧ SameBuf u (before u).stepFinish := by
  obtain ⟨⟨-, -, -, post, -⟩, -, operands, results, ⟨time, alarm⟩, -, bus, same⟩ := h
  obtain ⟨time', alarm'⟩ := fin.frame.records
  have idle : (before u).runPost = before u := by
    rw [State.runPost, show (before u).post = .none from fin.frame.post.trans post]
  refine ⟨afterTransaction_stepFinish operands results bus same fin, ?_⟩
  rw [stepFinish_eq, idle]
  exact ⟨⟨time'.trans time, alarm'.trans alarm⟩, rfl, fun _ => rfl⟩

/-- Settles O35: the issue is `burstStarted_issueBurst`, the transaction `run_read`. -/
theorem burstReadRunsItsTransaction : Obligations.BurstReadRunsItsTransaction := by
  intro s rxa rxs rest hready hi hlen hmax
  have h := burstStarted_issueBurst (s := before s) (hlen.trans_le hmax) .rd
  have finished {u} := burst_finished (u := u) (rest := rest) h
  obtain ⟨⟨opc, addr, len, -, -, phase, -⟩, -, -, -, -, buf, ⟨-, -, -, -, -, cfgIn, trace⟩,
    ⟨-, -, -, rst, inputs, -⟩⟩ := h
  obtain ⟨u, hrun, fin, utrace, answers, others⟩ := run_read (rst.trans hready.1) phase opc
    ((congrArg BitVec.toNat len).trans hlen) hmax (inputs.trans (before_inputs hi))
  obtain ⟨after, records, ftrace, fbuf⟩ := finished fin
  refine ⟨_, (run_next _ (step_of_exec (i := .burstRd) hready hi rfl)).trans hrun, ?_, fun k hk => ?_, fun a ha => ?_,
    records, after⟩
  · rw [ftrace, utrace, trace, cfgIn, addr]
    rfl
  · rw [State.buf, fbuf]
    exact answers k hk
  · rw [fbuf, others a ha]
    exact buf a

/-- Settles O36: the issue is `burstStarted_issueBurst`, the transaction `run_write`. -/
theorem burstWriteRunsItsTransaction : Obligations.BurstWriteRunsItsTransaction := by
  intro s rxa rxs rest hready hi hlen hmax
  have h := burstStarted_issueBurst (s := before s) (hlen.trans_le hmax) .wr
  have finished {u} := burst_finished (u := u) (rest := rest) h
  obtain ⟨⟨opc, addr, len, -, -, phase, -⟩, -, -, -, -, buf, ⟨-, -, -, -, -, cfgIn, trace⟩,
    ⟨-, -, -, rst, inputs, -⟩⟩ := h
  obtain ⟨u, hrun, fin, utrace, mem⟩ := run_write (rst.trans hready.1) phase opc
    ((congrArg BitVec.toNat len).trans hlen) hmax (inputs.trans (before_inputs hi))
  obtain ⟨after, records, ftrace, fbuf⟩ := finished fin
  refine ⟨_, (run_next _ (step_of_exec (i := .burstWr) hready hi rfl)).trans hrun, ?_, fun a => ?_, records, after⟩
  · have sent : ((before s).issueBurst .wr).buf = s.buf := funext fun k => buf (bufAddr k)
    rw [ftrace, utrace, trace, cfgIn, addr, sent]
    rfl
  · rw [fbuf, State.memByte_of_mem_eq mem fin.frame.resets]
    exact buf a

end Safety
end Sys2Proof
end

section
/-! The time and alarm commands (R210 to R215): how each is started, and its transaction from the issue to the
completion. The four start a transaction in one way, and the transaction is the engine's `run_read` or `run_write`
whichever command started it; what tells them apart is the packet a SET leaves in `BUF` and the `POST` of a GET. -/

namespace Sys2Proof
namespace Safety

open Machine

/-! ### The issue -/

/-- A transaction is started, and nothing else has changed but the bytes it is long in `BUF` and `STATUS` (R185). -/
def TransactionStarted (op : Dir) (a n : Byte) (post : Post) (s t : State) : Prop :=
  SameBufBut n.toNat s t ∧ Started op a n post s t ∧
    SameOperands s t ∧ SameResults s t ∧ SameRecords s t ∧ SameBus s t ∧ SameRest s t

/-- `start` after an encoder, which writes `BUF` and counts draws; a GET writes and counts none. -/
theorem transactionStarted_start {s u : State} (op : Dir) (a n : Byte) (post : Post)
    (hu : u = { s.accept with mem := u.mem, draws := u.draws }) (others : SameBufBut n.toNat s u) :
    TransactionStarted op a n post s (u.start op a n post) := by
  refine ⟨others, ?_⟩
  rw [hu]
  exact ⟨⟨rfl, rfl, rfl, rfl, rfl, rfl, rfl, rfl, rfl⟩, ⟨rfl, rfl, rfl⟩, ⟨rfl, rfl, rfl⟩, ⟨rfl, rfl⟩,
    ⟨rfl, rfl, rfl, rfl, rfl, rfl, rfl⟩, ⟨rfl, rfl, rfl, rfl, rfl, rfl⟩⟩

theorem transactionStarted_accept (s : State) (op : Dir) (a n : Byte) (post : Post) :
    TransactionStarted op a n post s (s.accept.start op a n post) :=
  transactionStarted_start op a n post rfl fun _ _ => rfl

/-- `alarm_base(i)` as R214 and R215 write it. -/
theorem alarmBase_of_index {i : Byte} (h : i = 0#8 ∨ i = 1#8) :
    alarmBase i = if i = 0#8 then 0x07#8 else 0x0B#8 := by
  rcases h with rfl | rfl <;> rfl

theorem exec_getAlarm_of_index {s : State} (h : alarmIndexOk s.opA = true) :
    exec .getAlarm s = .next (s.accept.start .rd (alarmBase s.opA) alarmLen .adec) := if_pos h

/-- What the issue of `SET_TIME` does (R212). -/
theorem exec_setTime (s : State) : ∃ t, exec .setTime s = .next t ∧ TimePacketOf s.mode12 s.time t.buf ∧
    TransactionStarted .wr 0x00#8 7#8 .none s t :=
  ⟨_, rfl, s.accept.encTime_packet, transactionStarted_start .wr _ timeLen .none rfl s.accept.encTime_frame⟩

/-- What the issue of `GET_TIME` does (R213). -/
theorem exec_getTime (s : State) : ∃ t, exec .getTime s = .next t ∧ SameBuf s t ∧
    TransactionStarted .rd 0x00#8 7#8 .tdec s t :=
  ⟨_, rfl, fun _ => rfl, transactionStarted_accept s .rd _ _ .tdec⟩

/-- What the issue of `SET_ALARM` does with an alarm that exists (R214). -/
theorem exec_setAlarm {s : State} (h : s.cmdA = 0#8 ∨ s.cmdA = 1#8) : ∃ t, exec .setAlarm s = .next t ∧
    AlarmPacketOf s.mode12 s.alarm t.buf ∧
    TransactionStarted .wr (if s.cmdA = 0#8 then 0x07#8 else 0x0B#8) 4#8 .none s t :=
  ⟨_, exec_setAlarm_of_index ((alarmIndexOk_iff s.cmdA).2 h), s.accept.encAlarm_packet,
    alarmBase_of_index h ▸ transactionStarted_start .wr _ alarmLen .none rfl s.accept.encAlarm_frame⟩

/-- What the issue of `GET_ALARM` does with an alarm that exists (R215). -/
theorem exec_getAlarm {s : State} (h : s.cmdA = 0#8 ∨ s.cmdA = 1#8) : ∃ t, exec .getAlarm s = .next t ∧
    SameBuf s t ∧ TransactionStarted .rd (if s.cmdA = 0#8 then 0x07#8 else 0x0B#8) 4#8 .adec s t :=
  ⟨_, exec_getAlarm_of_index ((alarmIndexOk_iff s.cmdA).2 h), fun _ => rfl,
    alarmBase_of_index h ▸ transactionStarted_accept s .rd _ _ .adec⟩

/-- Settles O25: by `exec_setTime`. -/
theorem setTimeEncodesAndStarts : Obligations.SetTimeEncodesAndStarts := exec_setTime

/-- Settles O26: by `exec_getTime`. -/
theorem getTimeStarts : Obligations.GetTimeStarts := by
  intro s
  obtain ⟨t, ht, buf, -, started, operands, results, records, bus, rest⟩ := exec_getTime s
  exact ⟨t, ht, started, operands, results, records, buf, bus, rest⟩

/-- Settles O27: by `exec_setAlarm`. -/
theorem setAlarmEncodesAndStarts : Obligations.SetAlarmEncodesAndStarts := fun _ => exec_setAlarm

/-- Settles O28: by `exec_getAlarm`. -/
theorem getAlarmStarts : Obligations.GetAlarmStarts := by
  intro s h
  obtain ⟨t, ht, buf, -, started, operands, results, records, bus, rest⟩ := exec_getAlarm h
  exact ⟨t, ht, started, operands, results, records, buf, bus, rest⟩

/-! ### From the issue to the completion -/

/-- What `POST` leaves in the records at the end of a transaction issued in `s` (R193). -/
def PostDone (s t : State) : Post → Prop
  | .none => SameRecords s t
  | .tdec => TimeRecordOf t.buf t.time ∧ t.alarm = s.alarm
  | .adec => AlarmRecordOf t.buf t.alarm ∧ t.time = s.time

theorem postDone_stepFinish {s u : State} (h : SameRecords s u) : PostDone s u.stepFinish u.post := by
  obtain ⟨time, alarm⟩ := h
  rw [stepFinish_eq]
  cases hp : u.post <;> simp only [State.runPost, hp]
  case none => exact ⟨time, alarm⟩
  case tdec => exact ⟨tpktDec_record u.buf, alarm⟩
  case adec => exact ⟨apktDec_record u.buf, time⟩

section transaction

variable {s v : State} {i : Instr} {a n : Byte} {post : Post} {rxa : Byte} {rxs : List Byte} {rest : List Input}

/-- What FINISH leaves of a started transaction; the history and `BUF` it leaves alone. -/
theorem transaction_finished {u : State} {op : Dir} (h : TransactionStarted op a n post (before s) v)
    (fin : AtFinish v u rest) :
    PostDone s (before u).stepFinish post ∧ AfterTransaction s (before u).stepFinish rest ∧
      (before u).stepFinish.trace = u.trace ∧ SameBuf u (before u).stepFinish := by
  obtain ⟨-, ⟨-, -, -, hpost, -⟩, operands, results, ⟨time, alarm⟩, bus, same⟩ := h
  obtain ⟨time', alarm'⟩ := fin.frame.records
  have done : PostDone s (before u).stepFinish u.post :=
    postDone_stepFinish (u := before u) ⟨time'.trans time, alarm'.trans alarm⟩
  rw [fin.frame.post, hpost] at done
  refine ⟨done, afterTransaction_stepFinish operands results bus same fin, ?_⟩
  rw [stepFinish_eq]
  exact ⟨rfl, fun _ => rfl⟩

/-- A command that starts a read runs its whole transaction (R184, R189, R193). -/
theorem run_startedRead (hready : Ready s)
    (hi : s.inputs = .hostWrite 0x00#8 (encode i) :: transactionMoves rxa rxs ++ rest)
    (hv : exec i (before s) = .next v) (h : TransactionStarted .rd a n post (before s) v)
    (hlen : rxs.length = n.toNat) (hmax : n.toNat ≤ 128) :
    ∃ t, core.run (2 * n.toNat + 8) s = .next t ∧
      t.trace = s.trace ++ frameEvents s.cfgIn (.xfer a rxa :: readTransfers rxs) ∧
      (∀ k, k < n.toNat → some (t.buf k) = rxs[k]?) ∧ SameBufBut n.toNat s t ∧
      PostDone s t post ∧ AfterTransaction s t rest := by
  have finished {u} := transaction_finished (u := u) (rest := rest) h
  obtain ⟨buf, ⟨opc, addr, len, -, -, phase, -⟩, -, -, -, ⟨-, -, -, -, -, cfgIn, trace⟩,
    ⟨-, -, -, rst, inputs, -⟩⟩ := h
  obtain ⟨u, hrun, fin, utrace, answers, others⟩ := run_read (rst.trans hready.1) phase opc
    ((congrArg BitVec.toNat len).trans hlen.symm) (hlen.trans_le hmax) (inputs.trans (before_inputs hi))
  obtain ⟨done, after, ftrace, fbuf⟩ := finished fin
  rw [hlen] at hrun answers others
  refine ⟨_, (run_next _ (step_of_exec hready hi hv)).trans hrun, ?_, fun k hk => ?_, fun x hx => ?_, done, after⟩
  · rw [ftrace, utrace, trace, cfgIn, addr]
    rfl
  · rw [State.buf, fbuf]
    exact answers k hk
  · rw [fbuf, others x hx]
    exact buf x hx

/-- A command that starts a write runs its whole transaction, and `BUF` is as the issue left it (R184, R190, R193). -/
theorem run_startedWrite (hready : Ready s)
    (hi : s.inputs = .hostWrite 0x00#8 (encode i) :: transactionMoves rxa rxs ++ rest)
    (hv : exec i (before s) = .next v) (h : TransactionStarted .wr a n post (before s) v)
    (hlen : rxs.length = n.toNat) (hmax : n.toNat ≤ 128) :
    ∃ t, core.run (2 * n.toNat + 8) s = .next t ∧
      t.trace = s.trace ++ frameEvents s.cfgIn (.xfer (a ||| 0x80#8) rxa :: writeTransfers t.buf rxs) ∧
      t.buf = v.buf ∧ SameBufBut n.toNat s t ∧ PostDone s t post ∧ AfterTransaction s t rest := by
  have finished {u} := transaction_finished (u := u) (rest := rest) h
  obtain ⟨buf, ⟨opc, addr, len, -, -, phase, -⟩, -, -, -, ⟨-, -, -, -, -, cfgIn, trace⟩,
    ⟨-, -, -, rst, inputs, -⟩⟩ := h
  obtain ⟨u, hrun, fin, utrace, mem⟩ := run_write (rst.trans hready.1) phase opc
    ((congrArg BitVec.toNat len).trans hlen.symm) (hlen.trans_le hmax) (inputs.trans (before_inputs hi))
  obtain ⟨done, after, ftrace, fbuf⟩ := finished fin
  have kept (x : Nat) : (before u).stepFinish.memByte x = v.memByte x :=
    (fbuf x).trans (State.memByte_of_mem_eq mem fin.frame.resets x)
  have sent : (before u).stepFinish.buf = v.buf := funext fun k => kept (bufAddr k)
  rw [hlen] at hrun
  refine ⟨_, (run_next _ (step_of_exec hready hi hv)).trans hrun, ?_, sent, fun x hx => ?_, done, after⟩
  · rw [ftrace, utrace, trace, cfgIn, addr, sent]
    rfl
  · rw [kept]
    exact buf x hx

end transaction

/-- The address byte of a write to an alarm that exists (R183, R211). -/
theorem alarmAddress_or_write (i : Byte) :
    (if i = 0#8 then 0x07#8 else 0x0B#8) ||| 0x80#8 = if i = 0#8 then 0x87#8 else 0x8B#8 := by
  split <;> rfl

/-- Settles O37: the packet is in `BUF` from the issue, `exec_setTime`, and the write sends it and keeps it. -/
theorem setTimeRunsItsTransaction : Obligations.SetTimeRunsItsTransaction := by
  intro s rxa rxs rest hready hi hlen
  obtain ⟨v, hv, packet, started⟩ := exec_setTime (before s)
  obtain ⟨t, hrun, trace, buf, others, records, after⟩ :=
    run_startedWrite (i := .setTime) hready hi hv started hlen (by decide)
  exact ⟨t, hrun, trace, buf ▸ packet, others, records, after⟩

/-- Settles O38: the issue is `exec_getTime`, the transaction a read whose `POST` decodes the answers. -/
theorem getTimeRunsItsTransaction : Obligations.GetTimeRunsItsTransaction := by
  intro s rxa rxs rest hready hi hlen
  obtain ⟨v, hv, -, started⟩ := exec_getTime (before s)
  obtain ⟨t, hrun, trace, answers, others, ⟨record, alarm⟩, after⟩ :=
    run_startedRead (i := .getTime) hready hi hv started hlen (by decide)
  exact ⟨t, hrun, trace, answers, others, record, alarm, after⟩

/-- Settles O39: the packet is in `BUF` from the issue, `exec_setAlarm`, and the write sends it and keeps it. -/
theorem setAlarmRunsItsTransaction : Obligations.SetAlarmRunsItsTransaction := by
  intro s rxa rxs rest hready hi hlen index
  obtain ⟨v, hv, packet, started⟩ := exec_setAlarm (s := before s) index
  obtain ⟨t, hrun, trace, buf, others, records, after⟩ :=
    run_startedWrite (i := .setAlarm) hready hi hv started hlen (by decide)
  rw [alarmAddress_or_write] at trace
  exact ⟨t, hrun, trace, buf ▸ packet, others, records, after⟩

/-- Settles O40: the issue is `exec_getAlarm`, the transaction a read whose `POST` decodes the answers. -/
theorem getAlarmRunsItsTransaction : Obligations.GetAlarmRunsItsTransaction := by
  intro s rxa rxs rest hready hi hlen index
  obtain ⟨v, hv, -, started⟩ := exec_getAlarm (s := before s) index
  obtain ⟨t, hrun, trace, answers, others, ⟨record, time⟩, after⟩ :=
    run_startedRead (i := .getAlarm) hready hi hv started hlen (by decide)
  exact ⟨t, hrun, trace, answers, others, record, time, after⟩

end Safety
end Sys2Proof
end

section
/-! The completions with an exception code in the issuing step (R232, R233, R237): a burst that is too long and an
alarm index that names no alarm. Both are `raiseResult`, after `clearAlarm` for a GET_ALARM, and no other command
is. -/

namespace Sys2Proof
namespace Safety

open Machine

/-- A command has completed with a code and changed no register, byte, latch or port but `STATUS` (R230). -/
def CompletesOnStatus (code : ResultCode) (s t : State) : Prop :=
  Completed code t ∧ SameOperands s t ∧ SameResults s t ∧ SameRecords s t ∧ SameBuf s t ∧ SameLatches s t ∧
    SameBus s t ∧ SameRest s t

theorem completesOnStatus_raiseResult (s : State) (code : ResultCode) :
    CompletesOnStatus code s (s.raiseResult code) := by
  obtain ⟨operands, bus, rest, -⟩ := IssueFrame.of_accept_complete s code
  exact ⟨⟨rfl, rfl⟩, operands, ⟨rfl, rfl, rfl⟩, ⟨rfl, rfl⟩, fun _ => rfl, ⟨rfl, rfl, rfl, rfl, rfl, rfl, rfl⟩, bus,
    rest⟩

theorem issueBurst_of_lt {s : State} (h : 128 < s.cmdB.toNat) (op : Dir) :
    s.issueBurst op = s.raiseResult .lenRange := if_pos h

theorem exec_getAlarm_of_not_index {s : State} (h : ¬alarmIndexOk s.opA = true) :
    exec .getAlarm s = .next (s.clearAlarm.raiseResult .noopBadIdx) := if_neg h

/-- What `RESULT` reads after an issuing step, with the commands and the operands that raise a code. -/
inductive ResultCase (i : Instr) (s t : State) : Prop
  | ok (result : t.status.result = .ok)
  | lenRange (result : t.status.result = .lenRange) (burst : i = .burstRd ∨ i = .burstWr)
      (len : 128 < s.cmdB.toNat)
  | noopBadIdx (result : t.status.result = .noopBadIdx) (alarm : i = .setAlarm ∨ i = .getAlarm)
      (index : ¬alarmIndexOk s.opA = true)

theorem resultCase_issueBurst {i : Instr} (s : State) (op : Dir) (hi : i = .burstRd ∨ i = .burstWr) :
    ResultCase i s (s.issueBurst op) := by
  rcases Nat.lt_or_ge 128 s.cmdB.toNat with hl | hl
  · exact .lenRange (issueBurst_of_lt hl op ▸ rfl) hi hl
  · obtain ⟨⟨-, -, -, -, status, -⟩, -⟩ := burstStarted_issueBurst hl op
    exact .ok (status ▸ rfl)

theorem exec_resultCase {i : Instr} {s t : State} (h : exec i s = .next t) : ResultCase i s t := by
  cases i with
  | bcdEnc | bcdDec | bcd8Enc | bcd8Dec | hourEnc | hourDec | tpktEnc | tpktDec | apktEnc | apktDec | setTime
  | getTime =>
    injection h with h
    subst h
    exact .ok rfl
  | burstRd =>
    injection h with h
    exact h ▸ resultCase_issueBurst s .rd (.inl rfl)
  | burstWr =>
    injection h with h
    exact h ▸ resultCase_issueBurst s .wr (.inr rfl)
  | setAlarm =>
    by_cases index : alarmIndexOk s.opA = true
    · injection (exec_setAlarm_of_index index).symm.trans h with h
      exact .ok (h ▸ rfl)
    · injection (exec_setAlarm_of_not_index index).symm.trans h with h
      exact .noopBadIdx (h ▸ rfl) (.inl rfl) index
  | getAlarm =>
    by_cases index : alarmIndexOk s.opA = true
    · injection (exec_getAlarm_of_index index).symm.trans h with h
      exact .ok (h ▸ rfl)
    · injection (exec_getAlarm_of_not_index index).symm.trans h with h
      exact .noopBadIdx (h ▸ rfl) (.inr rfl) index

/-- A burst that is too long is `raiseResult`, in either direction. -/
theorem exec_burst_of_lt {i : Instr} {s : State} (hi : i = .burstRd ∨ i = .burstWr) (hl : 128 < s.cmdB.toNat) :
    exec i s = .next (s.raiseResult .lenRange) := by
  rcases hi with rfl | rfl
  · exact congrArg Host.Outcome.next (issueBurst_of_lt hl .rd)
  · exact congrArg Host.Outcome.next (issueBurst_of_lt hl .wr)

/-- Settles O24: a burst that is too long is `raiseResult`, and `exec_resultCase` has no other source of
`LEN_RANGE`. -/
theorem burstLengthAbove128Rejected : Obligations.BurstLengthAbove128Rejected := by
  intro i s t h
  refine ⟨fun ⟨hi, hl⟩ => ?_, fun result => ?_⟩
  · injection (exec_burst_of_lt hi hl).symm.trans h with h
    obtain ⟨completed, frame⟩ := completesOnStatus_raiseResult s .lenRange
    exact h ▸ ⟨completed, byte_completed_lenRange, frame⟩
  · cases exec_resultCase h with
    | lenRange _ burst len => exact ⟨burst, len⟩
    | ok result' | noopBadIdx result' => cases result'.symm.trans result

/-- Settles O29: both commands are `raiseResult`, `GET_ALARM` from the state whose alarm record is cleared. -/
theorem badAlarmIndexIsANoOp : Obligations.BadAlarmIndexIsANoOp := by
  intro s h0 h1
  have index : ¬alarmIndexOk s.opA = true := fun h => ((alarmIndexOk_iff s.cmdA).1 h).elim h0 h1
  obtain ⟨completed, frame⟩ := completesOnStatus_raiseResult s .noopBadIdx
  obtain ⟨completed', operands, results, ⟨time, alarm⟩, frame'⟩ :=
    completesOnStatus_raiseResult s.clearAlarm .noopBadIdx
  exact ⟨⟨_, exec_setAlarm_of_not_index index, completed, byte_completed_noopBadIdx, frame⟩,
    ⟨_, exec_getAlarm_of_not_index index, completed', byte_completed_noopBadIdx, alarm, time, operands, results,
      frame'⟩⟩

end Safety
end Sys2Proof
end

section
/-! Reset (R36, R260 to R262): a reset step ends in the reset state whatever it cuts short, and no other step moves
`MODE12`. -/

namespace Sys2Proof
namespace Safety

open Machine

/-! ### The reset state -/

/-- Settles O44: `STATUS` shows `byte_reset`, `CMD_OP` is write-only, and the rest is the reset state's own field. -/
theorem resetStateValues : Obligations.ResetStateValues := ⟨byte_reset, rfl, rfl, rfl, rfl, rfl, rfl⟩

/-- Settles O48: the reset state is in `IDLE`, with nothing written to `BUF` and every line at rest. -/
theorem resetKeepsInvariant : Obligations.ResetKeepsInvariant := .of_idle rfl rfl rfl rfl rfl rfl

/-! ### A step in reset -/

/-- A move's effect on the pins does not depend on when it is taken off the list. -/
theorem setPins_before (s : State) (i : Input) : (before s).setPins i = before (s.setPins i) := by
  cases i <;> rfl

/-- A step in reset by the pins as its move leaves them. -/
theorem step_resetting_pins {s : State} (h : resetting s = true) :
    step s = .next (before (s.setPins s.nextInput)).applyReset :=
  setPins_before s s.nextInput ▸ step_resetting h

theorem resetting_of_rises {s : State} (hi : s.nextInput = .rst true) : resetting s = true := by
  simp [resetting, hi, State.setPins]

/-- Settles O45: the step is `applyReset` on the pins as the move leaves them. -/
theorem resetWinsOverEveryMove : Obligations.ResetWinsOverEveryMove := fun _ h =>
  ⟨_, step_resetting_pins h, rfl, byte_reset, rfl, rfl, rfl, rfl, rfl, rfl, rfl⟩

/-- In `IDLE`, with the strobe down, `x_done` is ignored: the move is used up and nothing else happens (R36). -/
theorem step_transport_of_idle {s : State} {rx : Byte} (hr : s.rst = false) (hp : s.phase = .idle)
    (hi : s.nextInput = .transport rx) : step s = .next (before s) := by
  have idle : (before s).phase = .idle := hp
  rw [step_transport hr hi, State.transportStep, idle]

/-- Settles O46: the step in which `rst` rises is a reset step, and a later `x_done` meets `IDLE`. -/
theorem resetAbandonsTransaction : Obligations.ResetAbandonsTransaction := by
  intro s rest _ hi
  have rises : s.nextInput = .rst true := nextInput_cons hi
  refine ⟨_, step_resetting_pins (resetting_of_rises rises), rfl, rfl, ?_, rfl, rfl, rfl,
    fun _ _ => step_transport_of_idle rfl rfl rfl⟩
  rw [rises]
  rfl

/-! ### `MODE12` outside reset -/

theorem mode12_stepFinish (s : State) : s.stepFinish.mode12 = s.mode12 := by
  rw [stepFinish_eq]

/-- No step outside reset changes `MODE12` (R262). -/
theorem mode12_step {s t : State} (hn : resetting s = false) (hs : step s = .next t) : t.mode12 = s.mode12 := by
  cases step_cases hn hs with
  | read _ _ ht | busyWrite _ _ _ _ ht | busUser _ _ _ ht | strap _ _ ht | rst _ ht => exact ht ▸ rfl
  | issue v _ _ ht =>
    obtain ⟨t', ht', frame, -⟩ := issue_spec v (before s)
    obtain rfl : t' = t := by simpa [ht'] using ht
    exact frame.rest.1
  | write a v _ _ _ ht => exact ht ▸ (writeReg_frame (before s) v (hostReg a)).rest.1
  | sequencer _ ht =>
    by_cases hp : (before s).phase = .finish
    · obtain rfl : (before s).stepFinish = t := by simpa [State.sequencerStep, hp] using ht
      exact mode12_stepFinish (before s)
    · exact (sequencerStep_frame ht hp).1.mode12
  | transport rx _ ht =>
    rcases transportStep_cases ht with ⟨-, rfl⟩ | ⟨-, -, rfl⟩ | ⟨-, rfl⟩
    · exact (doneAddr_frame (before s) rx).mode12
    · exact (doneData_frame (before s) rx).mode12
    · rfl

/-- Settles O47: `mode12_step` outside reset; a reset step samples the strap, which is then as its move leaves it. -/
theorem modeChangesOnlyInReset : Obligations.ModeChangesOnlyInReset := by
  intro s t hs
  refine ⟨fun hn => mode12_step hn hs, fun hn => ?_⟩
  obtain rfl : ((before s).setPins s.nextInput).applyReset = t := by simpa [step_resetting hn] using hs
  rfl

end Safety
end Sys2Proof
end
